-- ==== Sys2Proof/Word.lean ====
section
/-! DEFINITION. The words, register numbers and algebraic values of the engine
(00_scope.md R10 to R12, 10_state.md R17). -/

namespace Sys2Proof

/-- One 32-bit bus word, and one command word (20_memory.md R43, 30_encoding.md R58). -/
abbrev Word := BitVec 32

/-- One byte of a bus word (20_memory.md R45). -/
abbrev Byte := BitVec 8

/-- The value of one operand register, `U256` (00_scope.md R11, R12): 4 limbs of 64 bits, limb 0
the least significant. -/
abbrev U256 := BitVec 256

/-- The number of an operand register, 0 to 63 (10_state.md R17). -/
abbrev Reg := Fin 64

/-- An element `re + im·u` of Fp2 (00_scope.md R11, 42_fp2.md R94). -/
structure Fp2 where
  re : Nat
  im : Nat
deriving DecidableEq, Repr

/-- A point in Jacobian coordinates over `F` (00_scope.md R11, 43_g1.md R103). -/
structure Point (F : Type) where
  x : F
  y : F
  z : F
deriving DecidableEq, Repr

end Sys2Proof
end

