-- ==== Sys2Proof/Config.lean ====
section
/-! DEFINITION. What one built engine fixes at design time (00_scope.md R8, 10_state.md R35), the
spec's own test instance T1 (95_test_vectors.md §1), and the free value of an operand register after
a power-on reset. -/

namespace Sys2Proof

/-- The design-time parameters of one built engine (00_scope.md R8). All but `lat` and `base` are the
constant store (10_state.md R35). State carries one, and no step writes it (log 1). -/
structure Config where
  /-- The field prime `P`. -/
  p : U256
  /-- `BETA`, the value of u² in Fp2. -/
  beta : U256
  /-- `B1`, the coefficient b of the G1 curve. -/
  b1 : U256
  /-- `A2`, the coefficient a of the G2 curve, (real part, u part). -/
  a2 : U256 × U256
  /-- `B2`, the coefficient b of the G2 curve. -/
  b2 : U256 × U256
  /-- `GEN1`, the affine G1 generator (x, y). -/
  gen1 : U256 × U256
  /-- `GEN2`, the affine G2 generator ((x0, x1), (y0, y1)), real parts first (44_g2.md R122). -/
  gen2 : (U256 × U256) × (U256 × U256)
  /-- `LAT(op)`, the latency in clock cycles, by opcode byte (70_reset_and_hazards.md R162). -/
  lat : Vector Nat 256
  /-- `BASE`, the bus base address (20_memory.md R42). -/
  base : Nat
deriving DecidableEq, Repr

/-- `P` as a number (00_scope.md R8). -/
def Config.P (c : Config) : Nat := c.p.toNat

/-- A pair of registers' worth of constants, read as an Fp2 element (42_fp2.md R94). -/
def Config.pair (v : U256 × U256) : Fp2 := ⟨v.1.toNat, v.2.toNat⟩

/-- What an operand register holds after a power-on reset inside a run: unspecified (10_state.md R19,
70_reset_and_hazards.md R153). A FREE VALUE (log 4): the n-th power-on reset leaves
`powerOnValue n r` in W[r], and nothing says what that is. -/
opaque Config.powerOnValue : Nat → Nat → U256

/-- The spec's test instance T1 (95_test_vectors.md §1, D43), with one cycle of latency for every
opcode and base address 0. DESIGN CHOICE (log 1): only `State.reset` names it; the engine's rules and
the statements hold for every `Config`. -/
def Config.t1 : Config where
  p := 0xFFFFFFFEFFFFFFFFFFFFFFFFFFFFFFFFFFFFFFFF00000000FFFFFFFFFFFFFFFF#256
  beta := 0xFFFFFFFEFFFFFFFFFFFFFFFFFFFFFFFFFFFFFFFF00000000FFFFFFFFFFFFFFFD#256
  b1 := 0x28E9FA9E9D9F5E344D5A9E4BCF6509A7F39789F515AB8F92DDBCBD414D940E93#256
  a2 := (0#256, 0#256)
  b2 := (0x127CF4D6611D41CC58D62ECEC7AC127CE01884667A5F490A23D1004D2EDFA2A2#256,
         0x4AB1EAB467790878E33C9DB6249A604CDBE8D6354D341F7B89A2723B64086A63#256)
  gen1 := (0x32C4AE2C1F1981195F9904466A39C9948FE30BBFF2660BE1715A4589334C74C7#256,
           0xBC3736A2F4F6779C59BDCEE36B692153D0A9877CC62A474002DF32E52139F0A0#256)
  gen2 := ((0x0123456789ABCDEF0123456789ABCDEF0123456789ABCDEF0123456789ABCDEF#256,
            0xFEDCBA9876543210FEDCBA9876543210FEDCBA9876543210FEDCBA9876543210#256),
           (0x1111111111111111111111111111111111111111111111111111111111111111#256,
            0x2222222222222222222222222222222222222222222222222222222222222222#256))
  lat := Vector.replicate 256 1
  base := 0

end Sys2Proof
end

