-- ==== Sys2Proof/Syntax.lean ====
section
/-! DEFINITION. The abstract syntax of CORE-CMD version 1: one constructor for each row of
spec/opcode_table.json (30_encoding.md R63), in the table's order, and the operand types of R62. -/

namespace Sys2Proof

/-- The type of an operand group (10_state.md R21, 30_encoding.md R62, R63). -/
inductive OperandTy where
  | u256
  | u512
  | fp
  | fp2
  | g1
  | g2
deriving DecidableEq, Repr

/-- The six command formats (30_encoding.md R60). -/
inductive Format where
  | n
  | rrr
  | rr
  | ss
  | s
  | d
deriving DecidableEq, Repr

/-- One operand of a command: the first register of its group, and the group's type
(10_state.md R21). -/
structure Slot where
  reg : Reg
  ty : OperandTy
deriving DecidableEq, Repr

/-- The operands of a command by the field that names them, RD, RS1, RS2 (30_encoding.md R59). -/
structure Slots where
  rd : Option Slot
  rs1 : Option Slot
  rs2 : Option Slot
deriving DecidableEq, Repr

/-- A command of CORE-CMD version 1 (30_encoding.md R63). A register field is a plain 6-bit register
number (R61). -/
inductive Instr where
  | nop
  | add (rd rs1 rs2 : Reg)
  | sub (rd rs1 rs2 : Reg)
  | cmp (rs1 rs2 : Reg)
  | mul (rd rs1 rs2 : Reg)
  | addw (rd rs1 rs2 : Reg)
  | subw (rd rs1 rs2 : Reg)
  | cmpw (rs1 rs2 : Reg)
  | fadd (rd rs1 rs2 : Reg)
  | fsub (rd rs1 rs2 : Reg)
  | fneg (rd rs1 : Reg)
  | fdbl (rd rs1 : Reg)
  | ftpl (rd rs1 : Reg)
  | fhlv (rd rs1 : Reg)
  | fsqr (rd rs1 : Reg)
  | fmul (rd rs1 rs2 : Reg)
  | fred (rd rs1 : Reg)
  | fcan (rd rs1 : Reg)
  | fisz (rs1 : Reg)
  | f2add (rd rs1 rs2 : Reg)
  | f2sub (rd rs1 rs2 : Reg)
  | f2neg (rd rs1 : Reg)
  | f2dbl (rd rs1 : Reg)
  | f2sqr (rd rs1 : Reg)
  | f2mul (rd rs1 rs2 : Reg)
  | pzero (rd : Reg)
  | pgen (rd : Reg)
  | pisz (rs1 : Reg)
  | pval (rs1 : Reg)
  | pneg (rd rs1 : Reg)
  | pdbl (rd rs1 : Reg)
  | pdbl5 (rd rs1 : Reg)
  | padd (rd rs1 rs2 : Reg)
  | psub (rd rs1 rs2 : Reg)
  | qzero (rd : Reg)
  | qgen (rd : Reg)
  | qisz (rs1 : Reg)
  | qval (rs1 : Reg)
  | qneg (rd rs1 : Reg)
  | qdbl (rd rs1 : Reg)
  | qdbl5 (rd rs1 : Reg)
  | qadd (rd rs1 rs2 : Reg)
  | qsub (rd rs1 rs2 : Reg)
deriving DecidableEq, Repr

end Sys2Proof
end

