-- ==== Sys2Proof/Machine/State.lean ====
section
/-! DEFINITION. The state of the engine as plain data (10_state.md), why a step can stop, and the
state after power-on reset (70_reset_and_hazards.md R153). -/

namespace Sys2Proof.Machine

/-- Why the machine stops with a fault. There is no such reason on this hardware, so the type has no
constructor: a command "never commits partially and never faults at commit" (45_control.md R134), "the
engine takes no trap" (60_exceptions.md R145), a refused bus transfer completes with `err` = 1 and no
effect (20_memory.md R40), and a read of a word that nothing has written answers (log 3). Safe: no run
ends where the engine would go on. -/
inductive Fault : Type
deriving DecidableEq, Repr

/-- Why the machine has no meaning for an instruction. -/
inductive Refusal where
  /-- Raised only by an arm of `exec` that has no meaning yet. Safe: nothing is proved past it. No arm
  raises it now. -/
  | notModelled (mnemonic : String)
deriving DecidableEq, Repr

/-- The STATUS register by its fields (10_state.md R25); bits 11:10 and 31:16 are reserved, read 0
and hold nothing. Every field resets to 0. -/
structure Status where
  /-- Bit 0: a command is in flight. -/
  busy : Bool := false
  /-- Bit 1, RW1C: the last command has ended, normally or with an error. -/
  done : Bool := false
  /-- Bit 2, RW1C: the last command was rejected. -/
  err : Bool := false
  /-- Bit 3, RW1C: a CMD write arrived while BUSY and was dropped. -/
  ovr : Bool := false
  /-- Bit 4: carry or borrow out (R26). -/
  c : Bool := false
  /-- Bit 5: result of the last zero test (R28). -/
  z : Bool := false
  /-- Bit 6: the last compare found rs1 < rs2 (R27). -/
  lt : Bool := false
  /-- Bit 7: the last compare found rs1 = rs2 (R27). -/
  eq : Bool := false
  /-- Bit 8: the last compare found rs1 > rs2 (R27). -/
  gt : Bool := false
  /-- Bit 9: the last validity test found the point valid (R29). -/
  v : Bool := false
  /-- Bits 15:12: the error code of the last rejected command (60_exceptions.md R139). -/
  errcode : BitVec 4 := 0#4
deriving DecidableEq, Repr

/-- The command in flight (10_state.md R36). It holds the command itself; the command word is its
encoding (log 9). -/
structure InFlight where
  /-- The command. -/
  cmd : Instr
  /-- The values of the RS1 operand group, in register order, read at issue (45_control.md R133). -/
  src1 : List U256
  /-- The values of the RS2 operand group, in register order, read at issue. -/
  src2 : List U256
  /-- Clock cycles still to run, starting at `LAT(op)`; 0 says that the latency has run out and the
  commit is due (45_control.md R134). -/
  remaining : Nat
deriving DecidableEq, Repr

/-- One bus transfer as the host drives it (20_memory.md R39, R40). -/
structure Transfer where
  /-- 1 = write, 0 = read. -/
  we : Bool
  /-- Byte offset from `BASE`. -/
  addr : BitVec 14
  /-- Byte enables, one for each byte lane. -/
  be : BitVec 4
  /-- Write data. -/
  wdata : Word
deriving DecidableEq, Repr

/-- What the bus port drives after a step (20_memory.md R39, R40): the model's own field (log 7). -/
structure PortOut where
  /-- A transfer completed in this step. -/
  ready : Bool := false
  /-- With `ready`: the transfer was refused. -/
  err : Bool := false
  /-- The read data, where a read completed; none where the spec says nothing about `rdata`. -/
  rdata : Option Word := none
deriving DecidableEq, Repr

/-- Whose step comes next (45_control.md R130): the host's, the engine's (one clock cycle), or the
reset pin's. -/
inductive Turn where
  /-- The host's next transfer, or its wait state while that is held. -/
  | host
  /-- A host's transfer that passes held ones, such as the CTRL write of a soft reset that ends a stall
  (20_memory.md R50, 70_reset_and_hazards.md R154; log 14). -/
  | pass
  | engine
  /-- The platform drives `rst_n` to this level. -/
  | rst (level : Bool)
deriving DecidableEq, Repr

/-- The whole state (10_state.md §1). -/
structure State where
  /-- The constant store and the other design-time parameters (10_state.md R35, 00_scope.md R8). No
  step writes it (log 1). -/
  const : Config
  /-- The operand registers W0 to W63 (R17). -/
  w : Vector U256 64
  /-- The written marks, one for each 32-bit word of each operand register, word 0 the least
  significant (20_memory.md R48). -/
  written : Vector (Vector Bool 8) 64
  /-- CTRL.IRQ_EN (R32). -/
  irqEn : Bool
  /-- STATUS (R25). -/
  status : Status
  /-- The command in flight, if any (R36). -/
  inflight : Option InFlight
  /-- The level of the pin `rst_n` (20_memory.md R39). -/
  rstN : Bool
  /-- What the bus port drives after the last step: the model's own (log 7). -/
  port : PortOut
  /-- The transfers the host is still to make, the next one first: the model's own (log 5). -/
  host : List Transfer
  /-- Whose turn comes next; empty: the model's own rule (log 5). -/
  sched : List Turn
  /-- How many power-on resets have drawn fresh register values: the model's own (log 4). -/
  draws : Nat
deriving DecidableEq, Repr

/-- Every word of every operand register marked not written (70_reset_and_hazards.md R153). -/
def State.noneWritten : Vector (Vector Bool 8) 64 := Vector.replicate 64 (Vector.replicate 8 false)

/-- The engine of configuration `c` after a power-on reset that leaves `regs` in the operand registers,
with no transfer pending (70_reset_and_hazards.md R153). -/
def State.afterPowerOn (c : Config) (regs : Vector U256 64) : State where
  const := c
  w := regs
  written := State.noneWritten
  irqEn := false
  status := {}
  inflight := none
  rstN := true
  port := {}
  host := []
  sched := []
  draws := 0

/-- The state right after power-on reset (70_reset_and_hazards.md R153). DESIGN CHOICE: the operand
registers, which the spec leaves unspecified, hold 0 (log 2), and the parameters, which it leaves OPEN,
are those of its test instance T1 (log 1). -/
def State.reset : State := State.afterPowerOn Config.t1 (Vector.replicate 64 0#256)

end Sys2Proof.Machine
end

