-- ==== Sys2Proof/Machine/Flags.lean ====
section
/-! DEFINITION. The condition flags C, Z, LT, EQ, GT and V of STATUS: what a command writes at its
commit and how each is computed (10_state.md R26 to R30). -/

namespace Sys2Proof.Machine

/-- The flags one command writes at its commit (10_state.md R26 to R29). -/
inductive FlagWrite where
  /-- The command writes no flag. -/
  | none
  /-- C: ADD, SUB, ADDW, SUBW (R26). -/
  | carry (b : Bool)
  /-- LT, EQ and GT: CMP, CMPW (R27). -/
  | order (lt eq gt : Bool)
  /-- Z: FISZ, PISZ, QISZ (R28). -/
  | zero (b : Bool)
  /-- V: PVAL, QVAL (R29). -/
  | valid (b : Bool)
deriving DecidableEq, Repr

/-- Writes the flags a command names and leaves every other field of STATUS as it is (10_state.md
R30). -/
def FlagWrite.apply (st : Status) : FlagWrite → Status
  | .none => st
  | .carry b => { st with c := b }
  | .order l e g => { st with lt := l, eq := e, gt := g }
  | .zero b => { st with z := b }
  | .valid b => { st with v := b }

/-- The carry out of bit n−1 of an exact sum: bit n of it (40_integer.md R71, R76). -/
def carryOut (n sum : Nat) : Bool := sum.testBit n

/-- The borrow out of a − b: 1 exactly when a < b (40_integer.md R72, R77). -/
def borrowOut (a b : Nat) : Bool := decide (a < b)

/-- The unsigned comparison of CMP and CMPW (40_integer.md R73, R78). -/
def compareFlags (a b : Nat) : FlagWrite := .order (decide (a < b)) (decide (a = b)) (decide (b < a))

/-- STATUS as one 32-bit word, reserved bits 0 (10_state.md R25). -/
def Status.toWord (st : Status) : Word :=
  0#16 ++ st.errcode ++ 0#2 ++ BitVec.ofBool st.v ++ BitVec.ofBool st.gt ++ BitVec.ofBool st.eq ++
    BitVec.ofBool st.lt ++ BitVec.ofBool st.z ++ BitVec.ofBool st.c ++ BitVec.ofBool st.ovr ++
    BitVec.ofBool st.err ++ BitVec.ofBool st.done ++ BitVec.ofBool st.busy

/-- A write of `v` to STATUS: a 1 in bit 1, 2 or 3 clears DONE, ERR with ERRCODE, or OVR; every other
bit is ignored (10_state.md R31). This is the host's acknowledgement of a completion or an error, the
only "return" the engine has (60_exceptions.md R146). -/
def Status.acknowledge (v : Word) (st : Status) : Status :=
  { st with
    done := st.done && !v.getLsbD 1
    err := st.err && !v.getLsbD 2
    errcode := if v.getLsbD 2 then 0#4 else st.errcode
    ovr := st.ovr && !v.getLsbD 3 }

end Sys2Proof.Machine
end

