-- ==== Sys2Proof/Decode.lean ====
section
/-! DEFINITION. The encoding of CORE-CMD version 1 (30_encoding.md): the operand table, the decoder,
total on all 2^32 words and rejecting by name, and the encoder, written from the same tables. -/

namespace Sys2Proof

/-- Why a command is rejected, with the order of 45_control.md R132; the codes are those of
60_exceptions.md R139. -/
inductive Reject where
  /-- OPC is not in the opcode map (30_encoding.md R64). -/
  | illegalOpcode
  /-- A bit the format fixes at 0 is 1 (30_encoding.md R60, R64). -/
  | rsvdField
  /-- An operand group would pass W63 (10_state.md R22). -/
  | regRange
  /-- A component of an Fp-typed source is not below P (30_encoding.md R62). -/
  | nonCanonical
deriving DecidableEq, Repr

/-- The 4-bit error code of a rejection (60_exceptions.md R139). -/
def Reject.code : Reject → BitVec 4
  | .illegalOpcode => 1#4
  | .rsvdField => 2#4
  | .regRange => 3#4
  | .nonCanonical => 4#4

/-- The number of registers in a group of this type (10_state.md R21). -/
def OperandTy.size : OperandTy → Nat
  | .u256 => 1
  | .u512 => 2
  | .fp => 1
  | .fp2 => 2
  | .g1 => 3
  | .g2 => 6

/-- Whether a source of this type is checked component by component against P (30_encoding.md R62). -/
def OperandTy.fpTyped : OperandTy → Bool
  | .u256 => false
  | .u512 => false
  | .fp => true
  | .fp2 => true
  | .g1 => true
  | .g2 => true

/-- The operands of format N: none (30_encoding.md R60). -/
def Slots.n : Slots := ⟨none, none, none⟩

/-- Operands of format RRR. -/
def Slots.rrr (d a b : OperandTy) (rd rs1 rs2 : Reg) : Slots := ⟨some ⟨rd, d⟩, some ⟨rs1, a⟩, some ⟨rs2, b⟩⟩

/-- Operands of format RR. -/
def Slots.rr (d a : OperandTy) (rd rs1 : Reg) : Slots := ⟨some ⟨rd, d⟩, some ⟨rs1, a⟩, none⟩

/-- Operands of format SS. -/
def Slots.ss (a b : OperandTy) (rs1 rs2 : Reg) : Slots := ⟨none, some ⟨rs1, a⟩, some ⟨rs2, b⟩⟩

/-- Operands of format S. -/
def Slots.s (a : OperandTy) (rs1 : Reg) : Slots := ⟨none, some ⟨rs1, a⟩, none⟩

/-- Operands of format D. -/
def Slots.d (d : OperandTy) (rd : Reg) : Slots := ⟨some ⟨rd, d⟩, none, none⟩

/-- The operand types of every command (30_encoding.md R63, columns rd, rs1, rs2). -/
def Instr.slots : Instr → Slots
  | .nop => .n
  | .add rd rs1 rs2 => .rrr .u256 .u256 .u256 rd rs1 rs2
  | .sub rd rs1 rs2 => .rrr .u256 .u256 .u256 rd rs1 rs2
  | .cmp rs1 rs2 => .ss .u256 .u256 rs1 rs2
  | .mul rd rs1 rs2 => .rrr .u512 .u256 .u256 rd rs1 rs2
  | .addw rd rs1 rs2 => .rrr .u512 .u512 .u512 rd rs1 rs2
  | .subw rd rs1 rs2 => .rrr .u512 .u512 .u512 rd rs1 rs2
  | .cmpw rs1 rs2 => .ss .u512 .u512 rs1 rs2
  | .fadd rd rs1 rs2 => .rrr .fp .fp .fp rd rs1 rs2
  | .fsub rd rs1 rs2 => .rrr .fp .fp .fp rd rs1 rs2
  | .fneg rd rs1 => .rr .fp .fp rd rs1
  | .fdbl rd rs1 => .rr .fp .fp rd rs1
  | .ftpl rd rs1 => .rr .fp .fp rd rs1
  | .fhlv rd rs1 => .rr .fp .fp rd rs1
  | .fsqr rd rs1 => .rr .fp .fp rd rs1
  | .fmul rd rs1 rs2 => .rrr .fp .fp .fp rd rs1 rs2
  | .fred rd rs1 => .rr .fp .u512 rd rs1
  | .fcan rd rs1 => .rr .fp .u256 rd rs1
  | .fisz rs1 => .s .fp rs1
  | .f2add rd rs1 rs2 => .rrr .fp2 .fp2 .fp2 rd rs1 rs2
  | .f2sub rd rs1 rs2 => .rrr .fp2 .fp2 .fp2 rd rs1 rs2
  | .f2neg rd rs1 => .rr .fp2 .fp2 rd rs1
  | .f2dbl rd rs1 => .rr .fp2 .fp2 rd rs1
  | .f2sqr rd rs1 => .rr .fp2 .fp2 rd rs1
  | .f2mul rd rs1 rs2 => .rrr .fp2 .fp2 .fp2 rd rs1 rs2
  | .pzero rd => .d .g1 rd
  | .pgen rd => .d .g1 rd
  | .pisz rs1 => .s .g1 rs1
  | .pval rs1 => .s .g1 rs1
  | .pneg rd rs1 => .rr .g1 .g1 rd rs1
  | .pdbl rd rs1 => .rr .g1 .g1 rd rs1
  | .pdbl5 rd rs1 => .rr .g1 .g1 rd rs1
  | .padd rd rs1 rs2 => .rrr .g1 .g1 .g1 rd rs1 rs2
  | .psub rd rs1 rs2 => .rrr .g1 .g1 .g1 rd rs1 rs2
  | .qzero rd => .d .g2 rd
  | .qgen rd => .d .g2 rd
  | .qisz rs1 => .s .g2 rs1
  | .qval rs1 => .s .g2 rs1
  | .qneg rd rs1 => .rr .g2 .g2 rd rs1
  | .qdbl rd rs1 => .rr .g2 .g2 rd rs1
  | .qdbl5 rd rs1 => .rr .g2 .g2 rd rs1
  | .qadd rd rs1 rs2 => .rrr .g2 .g2 .g2 rd rs1 rs2
  | .qsub rd rs1 rs2 => .rrr .g2 .g2 .g2 rd rs1 rs2

/-- An operand group lies inside the register file: r + g − 1 ≤ 63 (10_state.md R22). -/
def Slot.fits (o : Slot) : Bool := o.reg.val + o.ty.size ≤ 64

/-- The REG_RANGE check of one register field; a field the format does not use has nothing to check
(45_control.md R132). -/
def slotFits : Option Slot → Bool
  | some o => o.fits
  | none => true

/-- The opcode byte of every command (30_encoding.md R63, column OPC). -/
def Instr.opc : Instr → BitVec 8
  | .nop => 0x00#8
  | .add _ _ _ => 0x01#8
  | .sub _ _ _ => 0x02#8
  | .cmp _ _ => 0x03#8
  | .mul _ _ _ => 0x04#8
  | .addw _ _ _ => 0x05#8
  | .subw _ _ _ => 0x06#8
  | .cmpw _ _ => 0x07#8
  | .fadd _ _ _ => 0x10#8
  | .fsub _ _ _ => 0x11#8
  | .fneg _ _ => 0x12#8
  | .fdbl _ _ => 0x13#8
  | .ftpl _ _ => 0x14#8
  | .fhlv _ _ => 0x15#8
  | .fsqr _ _ => 0x16#8
  | .fmul _ _ _ => 0x17#8
  | .fred _ _ => 0x18#8
  | .fcan _ _ => 0x19#8
  | .fisz _ => 0x1A#8
  | .f2add _ _ _ => 0x20#8
  | .f2sub _ _ _ => 0x21#8
  | .f2neg _ _ => 0x22#8
  | .f2dbl _ _ => 0x23#8
  | .f2sqr _ _ => 0x24#8
  | .f2mul _ _ _ => 0x25#8
  | .pzero _ => 0x30#8
  | .pgen _ => 0x31#8
  | .pisz _ => 0x32#8
  | .pval _ => 0x33#8
  | .pneg _ _ => 0x34#8
  | .pdbl _ _ => 0x35#8
  | .pdbl5 _ _ => 0x36#8
  | .padd _ _ _ => 0x37#8
  | .psub _ _ _ => 0x38#8
  | .qzero _ => 0x40#8
  | .qgen _ => 0x41#8
  | .qisz _ => 0x42#8
  | .qval _ => 0x43#8
  | .qneg _ _ => 0x44#8
  | .qdbl _ _ => 0x45#8
  | .qdbl5 _ _ => 0x46#8
  | .qadd _ _ _ => 0x47#8
  | .qsub _ _ _ => 0x48#8

/-- The format of every command (30_encoding.md R63, column format). -/
def Instr.format : Instr → Format
  | .nop => .n
  | .add _ _ _ => .rrr
  | .sub _ _ _ => .rrr
  | .cmp _ _ => .ss
  | .mul _ _ _ => .rrr
  | .addw _ _ _ => .rrr
  | .subw _ _ _ => .rrr
  | .cmpw _ _ => .ss
  | .fadd _ _ _ => .rrr
  | .fsub _ _ _ => .rrr
  | .fneg _ _ => .rr
  | .fdbl _ _ => .rr
  | .ftpl _ _ => .rr
  | .fhlv _ _ => .rr
  | .fsqr _ _ => .rr
  | .fmul _ _ _ => .rrr
  | .fred _ _ => .rr
  | .fcan _ _ => .rr
  | .fisz _ => .s
  | .f2add _ _ _ => .rrr
  | .f2sub _ _ _ => .rrr
  | .f2neg _ _ => .rr
  | .f2dbl _ _ => .rr
  | .f2sqr _ _ => .rr
  | .f2mul _ _ _ => .rrr
  | .pzero _ => .d
  | .pgen _ => .d
  | .pisz _ => .s
  | .pval _ => .s
  | .pneg _ _ => .rr
  | .pdbl _ _ => .rr
  | .pdbl5 _ _ => .rr
  | .padd _ _ _ => .rrr
  | .psub _ _ _ => .rrr
  | .qzero _ => .d
  | .qgen _ => .d
  | .qisz _ => .s
  | .qval _ => .s
  | .qneg _ _ => .rr
  | .qdbl _ _ => .rr
  | .qdbl5 _ _ => .rr
  | .qadd _ _ _ => .rrr
  | .qsub _ _ _ => .rrr

/-- The mask of the bits a format fixes (30_encoding.md R60). -/
def Format.mask : Format → Word
  | .n => 0xFFFFFFFF#32
  | .rrr => 0xFFC0C0C0#32
  | .rr => 0xFFC0C0FF#32
  | .ss => 0xFFFFC0C0#32
  | .s => 0xFFFFC0FF#32
  | .d => 0xFFC0FFFF#32

/-- The field OPC, bits 31:24 (30_encoding.md R59). -/
def opcField (w : Word) : BitVec 8 := w.extractLsb' 24 8

/-- The field RD, bits 21:16 (30_encoding.md R59). -/
def rdField (w : Word) : Reg := (w.extractLsb' 16 6).toFin

/-- The field RS1, bits 13:8 (30_encoding.md R59). -/
def rs1Field (w : Word) : Reg := (w.extractLsb' 8 6).toFin

/-- The field RS2, bits 5:0 (30_encoding.md R59). -/
def rs2Field (w : Word) : Reg := (w.extractLsb' 0 6).toFin

/-- The second check of 45_control.md R132: every bit of 23:0 that the format fixes is 0. -/
def Format.fixedBitsClear (f : Format) (w : Word) : Bool := w &&& f.mask &&& 0x00FFFFFF#32 == 0#32

/-- A command of known opcode: its word is accepted when the format's fixed bits are 0, else it is
rejected with RSVD_FIELD (30_encoding.md R64). -/
def decodeAs (f : Format) (w : Word) (i : Instr) : Except Reject Instr :=
  if f.fixedBitsClear w then .ok i else .error .rsvdField

/-- The decoder: total on all 2^32 words, rejecting an undefined opcode and a set reserved bit by
name, in that order (30_encoding.md R63, R64; 45_control.md R132). -/
def decode (w : Word) : Except Reject Instr :=
  let rd := rdField w
  let rs1 := rs1Field w
  let rs2 := rs2Field w
  match (opcField w).toNat with
  | 0x00 => decodeAs .n w .nop
  | 0x01 => decodeAs .rrr w (.add rd rs1 rs2)
  | 0x02 => decodeAs .rrr w (.sub rd rs1 rs2)
  | 0x03 => decodeAs .ss w (.cmp rs1 rs2)
  | 0x04 => decodeAs .rrr w (.mul rd rs1 rs2)
  | 0x05 => decodeAs .rrr w (.addw rd rs1 rs2)
  | 0x06 => decodeAs .rrr w (.subw rd rs1 rs2)
  | 0x07 => decodeAs .ss w (.cmpw rs1 rs2)
  | 0x10 => decodeAs .rrr w (.fadd rd rs1 rs2)
  | 0x11 => decodeAs .rrr w (.fsub rd rs1 rs2)
  | 0x12 => decodeAs .rr w (.fneg rd rs1)
  | 0x13 => decodeAs .rr w (.fdbl rd rs1)
  | 0x14 => decodeAs .rr w (.ftpl rd rs1)
  | 0x15 => decodeAs .rr w (.fhlv rd rs1)
  | 0x16 => decodeAs .rr w (.fsqr rd rs1)
  | 0x17 => decodeAs .rrr w (.fmul rd rs1 rs2)
  | 0x18 => decodeAs .rr w (.fred rd rs1)
  | 0x19 => decodeAs .rr w (.fcan rd rs1)
  | 0x1A => decodeAs .s w (.fisz rs1)
  | 0x20 => decodeAs .rrr w (.f2add rd rs1 rs2)
  | 0x21 => decodeAs .rrr w (.f2sub rd rs1 rs2)
  | 0x22 => decodeAs .rr w (.f2neg rd rs1)
  | 0x23 => decodeAs .rr w (.f2dbl rd rs1)
  | 0x24 => decodeAs .rr w (.f2sqr rd rs1)
  | 0x25 => decodeAs .rrr w (.f2mul rd rs1 rs2)
  | 0x30 => decodeAs .d w (.pzero rd)
  | 0x31 => decodeAs .d w (.pgen rd)
  | 0x32 => decodeAs .s w (.pisz rs1)
  | 0x33 => decodeAs .s w (.pval rs1)
  | 0x34 => decodeAs .rr w (.pneg rd rs1)
  | 0x35 => decodeAs .rr w (.pdbl rd rs1)
  | 0x36 => decodeAs .rr w (.pdbl5 rd rs1)
  | 0x37 => decodeAs .rrr w (.padd rd rs1 rs2)
  | 0x38 => decodeAs .rrr w (.psub rd rs1 rs2)
  | 0x40 => decodeAs .d w (.qzero rd)
  | 0x41 => decodeAs .d w (.qgen rd)
  | 0x42 => decodeAs .s w (.qisz rs1)
  | 0x43 => decodeAs .s w (.qval rs1)
  | 0x44 => decodeAs .rr w (.qneg rd rs1)
  | 0x45 => decodeAs .rr w (.qdbl rd rs1)
  | 0x46 => decodeAs .rr w (.qdbl5 rd rs1)
  | 0x47 => decodeAs .rrr w (.qadd rd rs1 rs2)
  | 0x48 => decodeAs .rrr w (.qsub rd rs1 rs2)
  | _ => .error .illegalOpcode

/-- A command word from its fields (30_encoding.md R59): in hexadecimal `0xOO DD SS TT`. -/
def packFields (opc : BitVec 8) (rd rs1 rs2 : BitVec 6) : Word :=
  opc ++ (0#2 ++ (rd ++ (0#2 ++ (rs1 ++ (0#2 ++ rs2)))))

/-- The value of a register field: the operand's first register, or 0 where the format does not use
the field (30_encoding.md R60). -/
def slotField : Option Slot → BitVec 6
  | some s => BitVec.ofFin s.reg
  | none => 0#6

/-- The encoder: the word of a command, from the same tables as the decoder (30_encoding.md R59, R60,
R63). -/
def encode (i : Instr) : Word :=
  packFields i.opc (slotField i.slots.rd) (slotField i.slots.rs1) (slotField i.slots.rs2)

/-- The instruction the decoder reads from an instruction whose bits are `w`, numbered as
spec/opcode_table.json numbers them. Every command is one 32-bit word (30_encoding.md R58), so the
table's numbering is the word's own, and bits above `nbits` are 0. -/
def decodeTableWord (nbits w : Nat) : Option Instr :=
  match decode (BitVec.ofNat 32 (w % 2 ^ nbits)) with
  | .ok i => some i
  | .error _ => none

/-- The spelling of every command (30_encoding.md R63, column mnemonic). -/
def Instr.mnemonic : Instr → String
  | .nop => "NOP"
  | .add _ _ _ => "ADD"
  | .sub _ _ _ => "SUB"
  | .cmp _ _ => "CMP"
  | .mul _ _ _ => "MUL"
  | .addw _ _ _ => "ADDW"
  | .subw _ _ _ => "SUBW"
  | .cmpw _ _ => "CMPW"
  | .fadd _ _ _ => "FADD"
  | .fsub _ _ _ => "FSUB"
  | .fneg _ _ => "FNEG"
  | .fdbl _ _ => "FDBL"
  | .ftpl _ _ => "FTPL"
  | .fhlv _ _ => "FHLV"
  | .fsqr _ _ => "FSQR"
  | .fmul _ _ _ => "FMUL"
  | .fred _ _ => "FRED"
  | .fcan _ _ => "FCAN"
  | .fisz _ => "FISZ"
  | .f2add _ _ _ => "F2ADD"
  | .f2sub _ _ _ => "F2SUB"
  | .f2neg _ _ => "F2NEG"
  | .f2dbl _ _ => "F2DBL"
  | .f2sqr _ _ => "F2SQR"
  | .f2mul _ _ _ => "F2MUL"
  | .pzero _ => "PZERO"
  | .pgen _ => "PGEN"
  | .pisz _ => "PISZ"
  | .pval _ => "PVAL"
  | .pneg _ _ => "PNEG"
  | .pdbl _ _ => "PDBL"
  | .pdbl5 _ _ => "PDBL5"
  | .padd _ _ _ => "PADD"
  | .psub _ _ _ => "PSUB"
  | .qzero _ => "QZERO"
  | .qgen _ => "QGEN"
  | .qisz _ => "QISZ"
  | .qval _ => "QVAL"
  | .qneg _ _ => "QNEG"
  | .qdbl _ _ => "QDBL"
  | .qdbl5 _ _ => "QDBL5"
  | .qadd _ _ _ => "QADD"
  | .qsub _ _ _ => "QSUB"

end Sys2Proof
end

