-- ==== Sys2Proof/Machine/Operands.lean ====
section
/-! DEFINITION. Operand groups (10_state.md R21 to R23): reading and writing consecutive operand
registers, and every operand type's view of their values (30_encoding.md R62). -/

namespace Sys2Proof.Machine

/-- W[n]; groups are checked to lie inside W0 to W63 before any is read (10_state.md R22). -/
def regAt (w : Vector U256 64) (n : Nat) : U256 := w[n]?.getD 0#256

/-- The values of the `g` registers from W[n], in register order (10_state.md R21). -/
def readGroup (w : Vector U256 64) : Nat → Nat → List U256
  | _, 0 => []
  | n, g + 1 => regAt w n :: readGroup w (n + 1) g

/-- Writes the values to consecutive registers from W[n]; there is no wrap-around to W0
(10_state.md R22). -/
def writeGroup (w : Vector U256 64) : Nat → List U256 → Vector U256 64
  | _, [] => w
  | n, v :: vs => writeGroup (w.setIfInBounds n v) (n + 1) vs

/-- Marks `g` registers from W[n] as wholly written (20_memory.md R48). -/
def markGroup (m : Vector (Vector Bool 8) 64) : Nat → Nat → Vector (Vector Bool 8) 64
  | _, 0 => m
  | n, g + 1 => markGroup (m.setIfInBounds n (Vector.replicate 8 true)) (n + 1) g

/-- The values of a source operand group; none for an operand the command does not have. -/
def readSlot (w : Vector U256 64) : Option Slot → List U256
  | some o => readGroup w o.reg.val o.ty.size
  | none => []

/-- The NONCANONICAL check of one source group: every component of an Fp-typed group is below P
(30_encoding.md R62, 45_control.md R132). -/
def slotCanonical (p : Nat) (w : Vector U256 64) : Option Slot → Bool
  | some o => !o.ty.fpTyped || (readGroup w o.reg.val o.ty.size).all fun v => v.toNat < p
  | none => true

/-- The latched source values a command computes from (45_control.md R133). -/
structure Latched where
  rs1 : List U256
  rs2 : List U256
deriving DecidableEq, Repr

/-- Component `k` of a latched group, as a number. -/
def component (l : List U256) (k : Nat) : Nat := (l.getD k 0#256).toNat

/-- A `u256` or `fp` operand: W[r] (10_state.md R21). -/
def asU256 (l : List U256) : Nat := component l 0

/-- A `u512` operand: W[r] is bits 255:0, W[r+1] bits 511:256 (10_state.md R21). -/
def asU512 (l : List U256) : Nat := component l 0 + 2 ^ 256 * component l 1

/-- An `fp2` operand: W[r] the real part, W[r+1] the u part (10_state.md R21). -/
def asFp2 (l : List U256) : Fp2 := ⟨component l 0, component l 1⟩

/-- A `g1` operand: W[r] = X, W[r+1] = Y, W[r+2] = Z (10_state.md R21). -/
def asG1 (l : List U256) : Point Nat := ⟨component l 0, component l 1, component l 2⟩

/-- A `g2` operand: x0, x1, y0, y1, z0, z1 (10_state.md R21). -/
def asG2 (l : List U256) : Point Fp2 :=
  ⟨⟨component l 0, component l 1⟩, ⟨component l 2, component l 3⟩, ⟨component l 4, component l 5⟩⟩

/-- A 256-bit result, taken modulo 2^256 (00_scope.md R11, R12). -/
def ofU256 (n : Nat) : List U256 := [BitVec.ofNat 256 n]

/-- A 512-bit result: bits 255:0 to W[rd], bits 511:256 to W[rd+1] (10_state.md R21). -/
def ofU512 (n : Nat) : List U256 := [BitVec.ofNat 256 n, BitVec.ofNat 256 (n / 2 ^ 256)]

/-- An Fp2 result: the real part to W[rd], the u part to W[rd+1] (10_state.md R21). -/
def ofFp2 (x : Fp2) : List U256 := [BitVec.ofNat 256 x.re, BitVec.ofNat 256 x.im]

/-- A G1 result: X, Y, Z to W[rd], W[rd+1], W[rd+2] (10_state.md R21). -/
def ofG1 (p : Point Nat) : List U256 :=
  [BitVec.ofNat 256 p.x, BitVec.ofNat 256 p.y, BitVec.ofNat 256 p.z]

/-- A G2 result: x0, x1, y0, y1, z0, z1 to W[rd] to W[rd+5] (10_state.md R21). -/
def ofG2 (p : Point Fp2) : List U256 := ofFp2 p.x ++ ofFp2 p.y ++ ofFp2 p.z

end Sys2Proof.Machine
end

