-- ==== Sys2Proof/Machine/Ops.lean ====
section
/-! DEFINITION. The life of a command (45_control.md): the checks, rejection, overrun, issue and
commit, each once and shared by every meaning; the two resets; the interrupt output. -/

namespace Sys2Proof.Machine

/-- What a command computes: the values of its destination group, in register order, and the flags it
names. -/
structure Result where
  dest : List U256 := []
  flags : FlagWrite := .none
deriving DecidableEq, Repr

/-- The checks on a command of known opcode and clear reserved bits: REG_RANGE over RD, RS1, RS2, then
NONCANONICAL over the Fp-typed sources; the first that fails gives the code (45_control.md R132).
DESIGN CHOICE (log 15): REG_RANGE also for PZERO, PGEN, QZERO and QGEN, as R132 and the code table of
60_exceptions.md R139 have it, against the sentence under that table. -/
def check (i : Instr) (s : State) : Option Reject :=
  let o := i.slots
  if !(slotFits o.rd && slotFits o.rs1 && slotFits o.rs2) then some .regRange
  else if !(slotCanonical s.const.P s.w o.rs1 && slotCanonical s.const.P s.w o.rs2) then
    some .nonCanonical
  else none

/-- A rejected command: ERR, ERRCODE and DONE are set and nothing else changes (60_exceptions.md R139).
This is the engine's only exception; it takes no trap (R145). -/
def reject (e : Reject) (s : State) : State :=
  { s with status := { s.status with err := true, errcode := e.code, done := true } }

/-- A CMD write while BUSY: the word is dropped and OVR is set (45_control.md R131, 60_exceptions.md
R141). -/
def overrun (s : State) : State := { s with status := { s.status with ovr := true } }

/-- The latency of a command, by its opcode alone (70_reset_and_hazards.md R162). -/
def latency (c : Config) (i : Instr) : Nat := c.lat[i.opc.toNat]?.getD 1

/-- Issue: the source groups are read in full and kept with the command; BUSY becomes 1 and DONE, ERR
and ERRCODE become 0; OVR is unchanged (45_control.md R131, R133). -/
def issue (i : Instr) (s : State) : State :=
  { s with
    status := { s.status with err := false, errcode := 0#4, done := false, busy := true }
    inflight := some
      { cmd := i
        src1 := readSlot s.w i.slots.rs1
        src2 := readSlot s.w i.slots.rs2
        remaining := latency s.const i } }

/-- The destination registers after a command has written `vs` (45_control.md R134). -/
def writeSlot (w : Vector U256 64) (vs : List U256) : Option Slot → Vector U256 64
  | some o => writeGroup w o.reg.val vs
  | none => w

/-- The written marks after a command has written its destination group (20_memory.md R48). -/
def markSlot (m : Vector (Vector Bool 8) 64) : Option Slot → Vector (Vector Bool 8) 64
  | some o => markGroup m o.reg.val o.ty.size
  | none => m

/-- Commit: every destination register and every named flag is written, BUSY becomes 0, DONE becomes 1
and the in-flight command is dropped, in one step (45_control.md R134, 20_memory.md R51). -/
def commit (i : Instr) (r : Result) (s : State) : State :=
  { s with
    w := writeSlot s.w r.dest i.slots.rd
    written := markSlot s.written i.slots.rd
    status := { r.flags.apply s.status with busy := false, done := true }
    inflight := none }

/-- A command in the state the engine is in, with `compute` its rule on the constant store and the latched
source values.
Idle: the checks, then rejection or issue. In flight with the latency run out: its commit. In flight
otherwise: the command is presented while BUSY and dropped (45_control.md R131 to R134; log 13). -/
def command (i : Instr) (s : State) (compute : Config → Latched → Result) :
    Host.Outcome State Fault Refusal :=
  if s.status.busy then
    match s.inflight with
    | some f =>
      if f.remaining = 0 ∧ f.cmd = i then .next (commit i (compute s.const ⟨f.src1, f.src2⟩) s)
      else .next (overrun s)
    | none => .next (overrun s)
  else
    match check i s with
    | some e => .next (reject e s)
    | none => .next (issue i s)

/-- Soft reset: the in-flight command is dropped without commit, STATUS and IRQ_EN become 0, and the
operand registers and their written marks keep their values (70_reset_and_hazards.md R154). -/
def softReset (s : State) : State := { s with status := {}, irqEn := false, inflight := none }

/-- Power-on reset inside a run: as a soft reset, and the operand registers become unspecified, each a
free value, every word marked not written; the constant store is not affected
(70_reset_and_hazards.md R153; log 4). -/
def powerOnReset (s : State) : State :=
  { s with
    w := Vector.ofFn fun r => Config.powerOnValue s.draws r.val
    written := State.noneWritten
    irqEn := false
    status := {}
    inflight := none
    draws := s.draws + 1 }

/-- The `irq` output, a level and not stored: DONE AND IRQ_EN (10_state.md R37, 60_exceptions.md
R143). -/
def irq (s : State) : Bool := s.status.done && s.irqEn

end Sys2Proof.Machine
end

