-- ==== Sys2Proof/Machine/Bus.lean ====
section
/-! DEFINITION. The bus-slave interface (20_memory.md): the address map, the two operand windows, the
control registers, refusal, stalling, and the presentation of a command word (45_control.md R131). -/

namespace Sys2Proof.Machine

/-- `BusRead(addr, 4)` (00_scope.md R13). -/
def busRead (addr : BitVec 14) : Transfer := { we := false, addr := addr, be := 0b1111#4, wdata := 0#32 }

/-- `BusWrite(addr, 4, v)` (00_scope.md R13). -/
def busWrite (addr : BitVec 14) (v : Word) : Transfer :=
  { we := true, addr := addr, be := 0b1111#4, wdata := v }

/-- `cmd <word>`: the write of a word to CMD, offset 0x010 (10_state.md R33, 30_encoding.md R68). -/
def cmdWrite (w : Word) : Transfer := busWrite 0x0010#14 w

/-- What a bus offset names (20_memory.md R42). `wle r k` and `wbe r k` are word k of register r in
the limb-order and in the big-endian window. -/
inductive Target where
  | id
  | version
  | ctrl
  | status
  | cmd
  | wle (r : Reg) (k : Fin 8)
  | wbe (r : Reg) (k : Fin 8)
  | reserved
deriving DecidableEq, Repr

/-- The register a window offset names: bits 10:5 of the offset, 32 bytes each (20_memory.md R46,
R47). -/
def windowReg (addr : BitVec 14) : Reg := (addr.extractLsb' 5 6).toFin

/-- The 32-bit word of the register a window offset names: bits 4:2 of the offset. -/
def windowWord (addr : BitVec 14) : Fin 8 := (addr.extractLsb' 2 3).toFin

/-- The address map (20_memory.md R42), for an aligned offset. -/
def target (addr : BitVec 14) : Target :=
  let a := addr.toNat
  if a < 0x0004 then .id
  else if a < 0x0008 then .version
  else if a < 0x000C then .ctrl
  else if a < 0x0010 then .status
  else if a < 0x0014 then .cmd
  else if a < 0x1000 then .reserved
  else if a < 0x1800 then .wle (windowReg addr) (windowWord addr)
  else if a < 0x2000 then .reserved
  else if a < 0x2800 then .wbe (windowReg addr) (windowWord addr)
  else .reserved

/-- The transfer is not 32 bits wide, not aligned, or to a reserved offset (20_memory.md R43, R44). -/
def Transfer.refused (t : Transfer) : Bool :=
  t.addr.extractLsb' 0 2 != 0#2 || t.be != 0b1111#4 || target t.addr == .reserved

/-- The transfer is to an operand window (20_memory.md R50). -/
def Transfer.toWindow (t : Transfer) : Bool :=
  match target t.addr with
  | .wle _ _ => true
  | .wbe _ _ => true
  | .id => false
  | .version => false
  | .ctrl => false
  | .status => false
  | .cmd => false
  | .reserved => false

/-- Byte j of a register, counted from the least significant end (20_memory.md R46). -/
def byteOf (v : U256) (j : Nat) : Byte := v.extractLsb' (8 * j) 8

/-- The register with its byte j replaced. -/
def setByte (v : U256) (j : Nat) (b : Byte) : U256 :=
  (v &&& ~~~(0xFF#256 <<< (8 * j))) ||| (b.setWidth 256 <<< (8 * j))

/-- A bus word from its four byte lanes, lane 0 the least significant (20_memory.md R45). -/
def ofLanes (b0 b1 b2 b3 : Byte) : Word := b3 ++ (b2 ++ (b1 ++ b0))

/-- Byte lane n of a bus word (20_memory.md R45). -/
def lane (v : Word) (n : Nat) : Byte := v.extractLsb' (8 * n) 8

/-- `BusRead(0x1000 + 32·r + 4·k)`: W[r][32k+31 : 32k] (20_memory.md R46). -/
def readWle (v : U256) (k : Nat) : Word :=
  ofLanes (byteOf v (4 * k)) (byteOf v (4 * k + 1)) (byteOf v (4 * k + 2)) (byteOf v (4 * k + 3))

/-- `BusWrite(0x1000 + 32·r + 4·k, v)`: W[r][32k+31 : 32k] <- v (20_memory.md R46). -/
def writeWle (v : U256) (k : Nat) (d : Word) : U256 :=
  setByte (setByte (setByte (setByte v (4 * k) (lane d 0)) (4 * k + 1) (lane d 1))
    (4 * k + 2) (lane d 2)) (4 * k + 3) (lane d 3)

/-- `BusRead(0x2000 + 32·r + 4·k)`: lane n is stream byte 4k+n, that is byte 31 − 4k − n of the
register (20_memory.md R47). -/
def readWbe (v : U256) (k : Nat) : Word :=
  ofLanes (byteOf v (31 - 4 * k)) (byteOf v (30 - 4 * k)) (byteOf v (29 - 4 * k))
    (byteOf v (28 - 4 * k))

/-- `BusWrite(0x2000 + 32·r + 4·k, v)`: byte 31 − 4k − n of the register <- lane n (20_memory.md
R47). -/
def writeWbe (v : U256) (k : Nat) (d : Word) : U256 :=
  setByte (setByte (setByte (setByte v (31 - 4 * k) (lane d 0)) (30 - 4 * k) (lane d 1))
    (29 - 4 * k) (lane d 2)) (28 - 4 * k) (lane d 3)

/-- The 32-bit word of the register that WBE word k covers, counted from the least significant end
(20_memory.md R47, R48). -/
def wbeMark (k : Fin 8) : Fin 8 := k.rev

/-- CTRL as it reads: IRQ_EN in bit 1, every other bit 0 (10_state.md R32). -/
def ctrlWord (s : State) : Word := 0#30 ++ BitVec.ofBool s.irqEn ++ 0#1

/-- What a read of a target returns (20_memory.md R42). CMD reads 0 (10_state.md R33). -/
def readTarget (s : State) : Target → Word
  | .id => 0x474D5253#32
  | .version => 0x00000001#32
  | .ctrl => ctrlWord s
  | .status => s.status.toWord
  | .cmd => 0#32
  | .wle r k => readWle s.w[r] k.val
  | .wbe r k => readWbe s.w[r] k.val
  | .reserved => 0#32

/-- Stores one register and marks one of its words written (20_memory.md R48). -/
def storeWord (s : State) (r : Reg) (v : U256) (mark : Fin 8) : State :=
  { s with w := s.w.set r v, written := s.written.set r (s.written[r].set mark true) }

/-- A write to CTRL: with SRST = 1 a soft reset whatever bit 1 is, else IRQ_EN <- bit 1 (10_state.md
R32). -/
def writeCtrl (s : State) (v : Word) : State :=
  if v.getLsbD 0 then softReset s else { s with irqEn := v.getLsbD 1 }

/-- A write to STATUS (10_state.md R31). -/
def writeStatus (s : State) (v : Word) : State := { s with status := s.status.acknowledge v }

/-- Presentation of a command word (45_control.md R131): dropped with OVR while BUSY, unchecked
(60_exceptions.md R144); else decoded, and rejected or run. `run` is the dispatch over commands. -/
def present (run : Instr → State → Host.Outcome State Fault Refusal) (w : Word) (s : State) :
    Host.Outcome State Fault Refusal :=
  if s.status.busy then .next (overrun s)
  else
    match decode w with
    | .error e => .next (reject e s)
    | .ok i => run i s

/-- A write to a target (20_memory.md R42). Writes to ID and VERSION are ignored (R44). -/
def writeTarget (run : Instr → State → Host.Outcome State Fault Refusal) (s : State) (v : Word) :
    Target → Host.Outcome State Fault Refusal
  | .id => .next s
  | .version => .next s
  | .ctrl => .next (writeCtrl s v)
  | .status => .next (writeStatus s v)
  | .cmd => present run v s
  | .wle r k => .next (storeWord s r (writeWle s.w[r] k.val v) k)
  | .wbe r k => .next (storeWord s r (writeWbe s.w[r] k.val v) (wbeMark k))
  | .reserved => .next s

/-- The port when no transfer completes: `ready` = 0 (20_memory.md R40). -/
def PortOut.quiet : PortOut := {}

/-- The port when a write completes. -/
def PortOut.wrote : PortOut := { ready := true }

/-- The port when a read completes. -/
def PortOut.read (v : Word) : PortOut := { ready := true, rdata := some v }

/-- The port when a transfer is refused: `err` = 1, and `rdata` = 0 for a read (20_memory.md R40). -/
def PortOut.refusal (we : Bool) : PortOut :=
  { ready := true, err := true, rdata := if we then none else some 0#32 }

/-- One bus transfer that is not held, carried out whole (20_memory.md R40, R51). A refused transfer
completes with `err` = 1 and has no other effect (R40, R142; log 7). -/
def transfer (run : Instr → State → Host.Outcome State Fault Refusal) (t : Transfer) (s : State) :
    Host.Outcome State Fault Refusal :=
  if t.refused then .next { s with port := .refusal t.we }
  else if t.we then writeTarget run { s with port := .wrote } t.wdata (target t.addr)
  else .next { s with port := .read (readTarget s (target t.addr)) }

/-- The transfer is held, `ready` = 0: while `rst_n` = 0 (70_reset_and_hazards.md R153), and, to an
operand window, while BUSY (20_memory.md R50). A refused transfer does not stall (log 12). -/
def held (s : State) (t : Transfer) : Bool :=
  !s.rstN || (s.status.busy && t.toWindow && !t.refused)

end Sys2Proof.Machine
end

