-- ==== Sys2Proof/Machine/Agents.lean ====
section
/-! DEFINITION. Whose step it is, and each agent's step (45_control.md R130): the host's, the engine's
and the reset pin's. -/

namespace Sys2Proof.Machine

/-- The port shows a step in which no transfer completes. -/
def quiet (s : State) : State := { s with port := .quiet }

/-- The engine's step, one clock cycle (45_control.md R134, R162): the command in flight has one cycle
less to run, and when none is left it commits. `run` is the dispatch over commands, which on a command
whose latency has run out is its commit. -/
def engineTurn (run : Instr → State → Host.Outcome State Fault Refusal) (s : State) :
    Host.Outcome State Fault Refusal :=
  match s.inflight with
  | none => .next (quiet s)
  | some f =>
    let s' := { quiet s with inflight := some { f with remaining := f.remaining - 1 } }
    if f.remaining - 1 = 0 then run f.cmd s' else .next s'

/-- The host's step: the transfer given, carried out whole, the others left to be made, or a wait state
when there is none to make (20_memory.md R40, R50, R53). -/
def hostTurn (run : Instr → State → Host.Outcome State Fault Refusal) (next : Option (Transfer × List Transfer))
    (s : State) : Host.Outcome State Fault Refusal :=
  match next with
  | none => .next (quiet s)
  | some (t, rest) => transfer run t { s with host := rest }

/-- The first of these transfers that is not held, and the others in their order. -/
def firstFree (s : State) : List Transfer → Option (Transfer × List Transfer)
  | [] => none
  | t :: rest => if held s t then (firstFree s rest).map fun e => (e.1, t :: e.2) else some (t, rest)

/-- The reset pin's step: low puts the engine in its power-on state and keeps it there, high releases
it (70_reset_and_hazards.md R153). -/
def resetTurn (level : Bool) (s : State) : State :=
  if level then quiet { s with rstN := true } else quiet { powerOnReset s with rstN := false }

/-- Whose turn it is: the next entry of `sched`; with none left, the host's while it has a transfer
that is not held, else the engine's (log 5). -/
def turnOf (s : State) : Turn :=
  match s.sched with
  | u :: _ => u
  | [] =>
    match s.host with
    | [] => .engine
    | t :: _ => if held s t then .engine else .host

/-- The transfer the next step carries out, and those left to be made; none at a wait state or in another
agent's turn. In the host's turn it is the first in arrival order, none while that is held (20_memory.md
R40, R53). In a pass turn it is the first that is not held: "every other host transfer may be taken at any
time" (45_control.md R130), so that a soft reset can end a stall (20_memory.md R50,
70_reset_and_hazards.md R154). DESIGN CHOICE (log 14): the list of turns says which of the two it is. -/
def nextTransfer (s : State) : Option (Transfer × List Transfer) :=
  match turnOf s with
  | .host =>
    match s.host with
    | [] => none
    | t :: rest => if held s t then none else some (t, rest)
  | .pass => firstFree s s.host
  | .engine => none
  | .rst _ => none

/-- The turn taken off the list. -/
def afterTurn (s : State) : State := { s with sched := s.sched.tail }

/-- One step of the machine: the step of the agent whose turn it is (45_control.md R130). -/
def agentStep (run : Instr → State → Host.Outcome State Fault Refusal) (s : State) :
    Host.Outcome State Fault Refusal :=
  match turnOf s with
  | .host => hostTurn run (nextTransfer s) (afterTurn s)
  | .pass => hostTurn run (nextTransfer s) (afterTurn s)
  | .engine => engineTurn run (afterTurn s)
  | .rst level => .next (resetTurn level (afterTurn s))

end Sys2Proof.Machine
end

