-- ==== Sys2Proof/Machine/Control.lean ====
section
/-! DEFINITION. NOP (45_control.md R136). -/

namespace Sys2Proof.Machine

/-- NOP: issued and committed like any command, writing no register and no flag (45_control.md
R136). -/
def execNop (s : State) : Host.Outcome State Fault Refusal := command .nop s fun _ _ => {}

end Sys2Proof.Machine
end

