-- ==== Sys2Proof/Machine/Field.lean ====
section
/-! DEFINITION. Arithmetic in Fp and in Fp2 on canonical representatives (00_scope.md R14,
41_fp.md R80, 42_fp2.md R95), and the record of operators the point functions are written over. -/

namespace Sys2Proof.Machine

/-- `a +p b` (00_scope.md R14). -/
def fpAdd (p a b : Nat) : Nat := (a + b) % p

/-- `a -p b`, in [0, p) even when a < b (00_scope.md R14). -/
def fpSub (p a b : Nat) : Nat := (a + (p - b % p)) % p

/-- `-p a` (00_scope.md R14). -/
def fpNeg (p a : Nat) : Nat := (p - a % p) % p

/-- `a *p b`: the exact product reduced modulo p (00_scope.md R14, 41_fp.md R80). -/
def fpMul (p a b : Nat) : Nat := a * b % p

/-- `half(a)`: a shift right when a is even, and of the 257-bit even value a + p when a is odd
(00_scope.md R14, 41_fp.md R88). -/
def fpHalf (p a : Nat) : Nat := if a % 2 = 0 then a / 2 else (a + p) / 2

/-- `x +2 y` (42_fp2.md R95). -/
def fp2Add (p : Nat) (x y : Fp2) : Fp2 := ⟨fpAdd p x.re y.re, fpAdd p x.im y.im⟩

/-- `x -2 y` (42_fp2.md R95). -/
def fp2Sub (p : Nat) (x y : Fp2) : Fp2 := ⟨fpSub p x.re y.re, fpSub p x.im y.im⟩

/-- `-2 x` (42_fp2.md R95). -/
def fp2Neg (p : Nat) (x : Fp2) : Fp2 := ⟨fpNeg p x.re, fpNeg p x.im⟩

/-- `x *2 y`, with u² = `beta` (42_fp2.md R95). -/
def fp2Mul (p beta : Nat) (x y : Fp2) : Fp2 :=
  ⟨fpAdd p (fpMul p x.re y.re) (fpMul p beta (fpMul p x.im y.im)),
   fpAdd p (fpMul p x.re y.im) (fpMul p x.im y.re)⟩

/-- The operators of a field that the point functions use (43_g1.md R105): a parameter of those
functions, never part of State. -/
structure FieldOps (F : Type) where
  add : F → F → F
  sub : F → F → F
  neg : F → F
  mul : F → F → F
  zero : F
  one : F
  /-- The element k·1 of the field, for a small integer k (43_g1.md R105). -/
  ofNat : Nat → F

/-- The operators of Fp (00_scope.md R14). -/
def fpOps (c : Config) : FieldOps Nat where
  add := fpAdd c.P
  sub := fpSub c.P
  neg := fpNeg c.P
  mul := fpMul c.P
  zero := 0
  one := 1
  ofNat k := k % c.P

/-- The operators of Fp2 (42_fp2.md R95): 0_2 = (0, 0), 1_2 = (1, 0). -/
def fp2Ops (c : Config) : FieldOps Fp2 where
  add := fp2Add c.P
  sub := fp2Sub c.P
  neg := fp2Neg c.P
  mul := fp2Mul c.P c.beta.toNat
  zero := ⟨0, 0⟩
  one := ⟨1, 0⟩
  ofNat k := ⟨k % c.P, 0⟩

/-- `A1` = P − 3, that is −3 (00_scope.md R8, 43_g1.md R104). -/
def a1 (c : Config) : Nat := c.P - 3

end Sys2Proof.Machine
end

