-- ==== Sys2Proof/Machine/Fp.lean ====
section
/-! DEFINITION. The Fp unit (41_fp.md). -/

namespace Sys2Proof.Machine

/-- FADD (41_fp.md R83). -/
def execFadd (rd rs1 rs2 : Reg) (s : State) : Host.Outcome State Fault Refusal :=
  command (.fadd rd rs1 rs2) s fun c o =>
    { dest := ofU256 (fpAdd c.P (asU256 o.rs1) (asU256 o.rs2)) }

/-- FSUB (41_fp.md R84). -/
def execFsub (rd rs1 rs2 : Reg) (s : State) : Host.Outcome State Fault Refusal :=
  command (.fsub rd rs1 rs2) s fun c o =>
    { dest := ofU256 (fpSub c.P (asU256 o.rs1) (asU256 o.rs2)) }

/-- FNEG (41_fp.md R85). -/
def execFneg (rd rs1 : Reg) (s : State) : Host.Outcome State Fault Refusal :=
  command (.fneg rd rs1) s fun c o => { dest := ofU256 (fpNeg c.P (asU256 o.rs1)) }

/-- FDBL: (2·a) mod P (41_fp.md R86). -/
def execFdbl (rd rs1 : Reg) (s : State) : Host.Outcome State Fault Refusal :=
  command (.fdbl rd rs1) s fun c o => { dest := ofU256 (2 * asU256 o.rs1 % c.P) }

/-- FTPL: (3·a) mod P (41_fp.md R87). -/
def execFtpl (rd rs1 : Reg) (s : State) : Host.Outcome State Fault Refusal :=
  command (.ftpl rd rs1) s fun c o => { dest := ofU256 (3 * asU256 o.rs1 % c.P) }

/-- FHLV: division by 2 modulo P (41_fp.md R88). -/
def execFhlv (rd rs1 : Reg) (s : State) : Host.Outcome State Fault Refusal :=
  command (.fhlv rd rs1) s fun c o => { dest := ofU256 (fpHalf c.P (asU256 o.rs1)) }

/-- FSQR: the exact 512-bit square reduced (41_fp.md R89). -/
def execFsqr (rd rs1 : Reg) (s : State) : Host.Outcome State Fault Refusal :=
  command (.fsqr rd rs1) s fun c o =>
    { dest := ofU256 (fpMul c.P (asU256 o.rs1) (asU256 o.rs1)) }

/-- FMUL: the exact 512-bit product reduced (41_fp.md R90). -/
def execFmul (rd rs1 rs2 : Reg) (s : State) : Host.Outcome State Fault Refusal :=
  command (.fmul rd rs1 rs2) s fun c o =>
    { dest := ofU256 (fpMul c.P (asU256 o.rs1) (asU256 o.rs2)) }

/-- FRED: any 512-bit value reduced modulo P, unchecked (41_fp.md R91). -/
def execFred (rd rs1 : Reg) (s : State) : Host.Outcome State Fault Refusal :=
  command (.fred rd rs1) s fun c o => { dest := ofU256 (asU512 o.rs1 % c.P) }

/-- FCAN: any 256-bit value reduced modulo P, unchecked (41_fp.md R92). -/
def execFcan (rd rs1 : Reg) (s : State) : Host.Outcome State Fault Refusal :=
  command (.fcan rd rs1) s fun c o => { dest := ofU256 (asU256 o.rs1 % c.P) }

/-- FISZ: Z is 1 exactly when the operand is 0 (41_fp.md R93). -/
def execFisz (rs1 : Reg) (s : State) : Host.Outcome State Fault Refusal :=
  command (.fisz rs1) s fun _ o => { flags := .zero (decide (asU256 o.rs1 = 0)) }

end Sys2Proof.Machine
end

