-- ==== Sys2Proof/Machine/Fp2.lean ====
section
/-! DEFINITION. The Fp2 unit (42_fp2.md). -/

namespace Sys2Proof.Machine

/-- F2ADD (42_fp2.md R97). -/
def execF2add (rd rs1 rs2 : Reg) (s : State) : Host.Outcome State Fault Refusal :=
  command (.f2add rd rs1 rs2) s fun c o =>
    { dest := ofFp2 (fp2Add c.P (asFp2 o.rs1) (asFp2 o.rs2)) }

/-- F2SUB (42_fp2.md R98). -/
def execF2sub (rd rs1 rs2 : Reg) (s : State) : Host.Outcome State Fault Refusal :=
  command (.f2sub rd rs1 rs2) s fun c o =>
    { dest := ofFp2 (fp2Sub c.P (asFp2 o.rs1) (asFp2 o.rs2)) }

/-- F2NEG (42_fp2.md R99). -/
def execF2neg (rd rs1 : Reg) (s : State) : Host.Outcome State Fault Refusal :=
  command (.f2neg rd rs1) s fun c o => { dest := ofFp2 (fp2Neg c.P (asFp2 o.rs1)) }

/-- F2DBL: a +p a and b +p b (42_fp2.md R100). -/
def execF2dbl (rd rs1 : Reg) (s : State) : Host.Outcome State Fault Refusal :=
  command (.f2dbl rd rs1) s fun c o =>
    { dest := ofFp2 (fp2Add c.P (asFp2 o.rs1) (asFp2 o.rs1)) }

/-- F2SQR: the value of F2MUL with both sources equal (42_fp2.md R101). -/
def execF2sqr (rd rs1 : Reg) (s : State) : Host.Outcome State Fault Refusal :=
  command (.f2sqr rd rs1) s fun c o =>
    { dest := ofFp2 (fp2Mul c.P c.beta.toNat (asFp2 o.rs1) (asFp2 o.rs1)) }

/-- F2MUL: (ac + BETA·bd) + (ad + bc)·u (42_fp2.md R102). -/
def execF2mul (rd rs1 rs2 : Reg) (s : State) : Host.Outcome State Fault Refusal :=
  command (.f2mul rd rs1 rs2) s fun c o =>
    { dest := ofFp2 (fp2Mul c.P c.beta.toNat (asFp2 o.rs1) (asFp2 o.rs2)) }

end Sys2Proof.Machine
end

