-- ==== Sys2Proof/Machine/Curve.lean ====
section
/-! DEFINITION. The point functions in Jacobian coordinates, once over any field (43_g1.md §1), used by
G1 over Fp and by G2 over Fp2 (44_g2.md). -/

namespace Sys2Proof.Machine

/-- The point is infinity: Z = 0, whatever X and Y are (43_g1.md R103, 44_g2.md R120). -/
def isInfinity {F : Type} [DecidableEq F] (k : FieldOps F) (q : Point F) : Bool :=
  decide (q.z = k.zero)

/-- The canonical infinity (1, 1, 0) (43_g1.md R103). -/
def infinity {F : Type} (k : FieldOps F) : Point F := ⟨k.one, k.one, k.zero⟩

/-- `neg_F`: y negated, x and z unchanged, infinity too (43_g1.md R108). -/
def negPoint {F : Type} (k : FieldOps F) (q : Point F) : Point F := ⟨q.x, k.neg q.y, q.z⟩

/-- The square of a field element. -/
def sqr {F : Type} (k : FieldOps F) (x : F) : F := k.mul x x

/-- n·x for a small integer n (43_g1.md R105). -/
def times {F : Type} (k : FieldOps F) (n : Nat) (x : F) : F := k.mul (k.ofNat n) x

/-- The general-a doubling formula for Z ≠ 0 (43_g1.md R105). -/
def dblFormula {F : Type} (k : FieldOps F) (a : F) (q : Point F) : Point F :=
  let xx := sqr k q.x
  let yy := sqr k q.y
  let zz := sqr k q.z
  let m := k.add (times k 3 xx) (k.mul a (sqr k zz))
  let s := times k 4 (k.mul q.x yy)
  let x3 := k.sub (sqr k m) (times k 2 s)
  let y3 := k.sub (k.mul m (k.sub s x3)) (times k 8 (sqr k yy))
  let z3 := times k 2 (k.mul q.y q.z)
  ⟨x3, y3, z3⟩

/-- `dbl_F,a`: infinity is returned exactly, else the doubling formula (43_g1.md R105). -/
def dblPoint {F : Type} [DecidableEq F] (k : FieldOps F) (a : F) (q : Point F) : Point F :=
  if isInfinity k q then q else dblFormula k a q

/-- The general addition formula from U1, S1, H and R, for H ≠ 0 (43_g1.md R107). -/
def addFormula {F : Type} (k : FieldOps F) (z1 z2 u1 s1 h r : F) : Point F :=
  let hh := sqr k h
  let hhh := k.mul h hh
  let v := k.mul u1 hh
  let x3 := k.sub (k.sub (sqr k r) hhh) (times k 2 v)
  let y3 := k.sub (k.mul r (k.sub v x3)) (k.mul s1 hhh)
  let z3 := k.mul (k.mul z1 z2) h
  ⟨x3, y3, z3⟩

/-- `add_F,a`, with the infinity tests (Z2 first), the equal-points and the negated-points branches
(43_g1.md R107). -/
def addPoint {F : Type} [DecidableEq F] (k : FieldOps F) (a : F) (q1 q2 : Point F) : Point F :=
  if isInfinity k q2 then q1
  else if isInfinity k q1 then q2
  else
    let z1z1 := sqr k q1.z
    let z2z2 := sqr k q2.z
    let u1 := k.mul q1.x z2z2
    let u2 := k.mul q2.x z1z1
    let s1 := k.mul (k.mul q1.y q2.z) z2z2
    let s2 := k.mul (k.mul q2.y q1.z) z1z1
    let h := k.sub u2 u1
    let r := k.sub s2 s1
    if h = k.zero then
      if r = k.zero then dblPoint k a q1 else infinity k
    else addFormula k q1.z q2.z u1 s1 h r

/-- Five doublings in sequence (43_g1.md R116, 44_g2.md R127). -/
def dblPoint5 {F : Type} [DecidableEq F] (k : FieldOps F) (a : F) (q : Point F) : Point F :=
  dblPoint k a (dblPoint k a (dblPoint k a (dblPoint k a (dblPoint k a q))))

/-- The Jacobian curve equation Y² = X³ + a·X·Z⁴ + b·Z⁶ (43_g1.md R104, 44_g2.md R119). -/
def onCurve {F : Type} [DecidableEq F] (k : FieldOps F) (a b : F) (q : Point F) : Bool :=
  let z2 := sqr k q.z
  let z4 := sqr k z2
  let z6 := k.mul z4 z2
  decide (sqr k q.y =
    k.add (k.add (k.mul (sqr k q.x) q.x) (k.mul (k.mul a q.x) z4)) (k.mul b z6))

/-- The validity test: on the curve and not infinity; no subgroup check (43_g1.md R113,
44_g2.md R124). -/
def isValid {F : Type} [DecidableEq F] (k : FieldOps F) (a b : F) (q : Point F) : Bool :=
  !isInfinity k q && onCurve k a b q

end Sys2Proof.Machine
end

