-- ==== Sys2Proof/Machine/G1.lean ====
section
/-! DEFINITION. The G1 point unit (43_g1.md): the point functions of 43_g1.md §1 over Fp with a = A1. -/

namespace Sys2Proof.Machine

/-- The G1 generator with Z = 1 (43_g1.md R111, D31). -/
def genG1 (c : Config) : Point Nat :=
  ⟨c.gen1.1.toNat, c.gen1.2.toNat, 1⟩

/-- PZERO: the canonical point at infinity (43_g1.md R110). -/
def execPzero (rd : Reg) (s : State) : Host.Outcome State Fault Refusal :=
  command (.pzero rd) s fun c _ => { dest := ofG1 (infinity (fpOps c)) }

/-- PGEN: the generator (43_g1.md R111). -/
def execPgen (rd : Reg) (s : State) : Host.Outcome State Fault Refusal :=
  command (.pgen rd) s fun c _ => { dest := ofG1 (genG1 c) }

/-- PISZ: the Z flag is 1 exactly when the point's Z is 0 (43_g1.md R112). -/
def execPisz (rs1 : Reg) (s : State) : Host.Outcome State Fault Refusal :=
  command (.pisz rs1) s fun c o =>
    { flags := .zero (isInfinity (fpOps c) (asG1 o.rs1)) }

/-- PVAL: V is 1 exactly when the point is not infinity and on the curve (43_g1.md R113). -/
def execPval (rs1 : Reg) (s : State) : Host.Outcome State Fault Refusal :=
  command (.pval rs1) s fun c o =>
    { flags := .valid (isValid (fpOps c) (a1 c) c.b1.toNat (asG1 o.rs1)) }

/-- PNEG: y negated (43_g1.md R114). -/
def execPneg (rd rs1 : Reg) (s : State) : Host.Outcome State Fault Refusal :=
  command (.pneg rd rs1) s fun c o =>
    { dest := ofG1 (negPoint (fpOps c) (asG1 o.rs1)) }

/-- PDBL: one doubling (43_g1.md R115). -/
def execPdbl (rd rs1 : Reg) (s : State) : Host.Outcome State Fault Refusal :=
  command (.pdbl rd rs1) s fun c o =>
    { dest := ofG1 (dblPoint (fpOps c) (a1 c) (asG1 o.rs1)) }

/-- PDBL5: five doublings in sequence (43_g1.md R116). -/
def execPdbl5 (rd rs1 : Reg) (s : State) : Host.Outcome State Fault Refusal :=
  command (.pdbl5 rd rs1) s fun c o =>
    { dest := ofG1 (dblPoint5 (fpOps c) (a1 c) (asG1 o.rs1)) }

/-- PADD: the sum of two points (43_g1.md R117). -/
def execPadd (rd rs1 rs2 : Reg) (s : State) : Host.Outcome State Fault Refusal :=
  command (.padd rd rs1 rs2) s fun c o =>
    { dest := ofG1 (addPoint (fpOps c) (a1 c) (asG1 o.rs1) (asG1 o.rs2)) }

/-- PSUB: the first point plus the negated second (43_g1.md R118). -/
def execPsub (rd rs1 rs2 : Reg) (s : State) : Host.Outcome State Fault Refusal :=
  command (.psub rd rs1 rs2) s fun c o =>
    { dest := ofG1 (addPoint (fpOps c) (a1 c) (asG1 o.rs1)
        (negPoint (fpOps c) (asG1 o.rs2))) }

end Sys2Proof.Machine
end

