-- ==== Sys2Proof/Machine/G2.lean ====
section
/-! DEFINITION. The G2 point unit (44_g2.md): the point functions of 43_g1.md §1 over Fp2 with a = A2. -/

namespace Sys2Proof.Machine

/-- The G2 generator with Z = 1 (44_g2.md R122, D31). -/
def genG2 (c : Config) : Point Fp2 :=
  ⟨Config.pair c.gen2.1, Config.pair c.gen2.2, ⟨1, 0⟩⟩

/-- QZERO: the canonical point at infinity (44_g2.md R121). -/
def execQzero (rd : Reg) (s : State) : Host.Outcome State Fault Refusal :=
  command (.qzero rd) s fun c _ => { dest := ofG2 (infinity (fp2Ops c)) }

/-- QGEN: the generator (44_g2.md R122). -/
def execQgen (rd : Reg) (s : State) : Host.Outcome State Fault Refusal :=
  command (.qgen rd) s fun c _ => { dest := ofG2 (genG2 c) }

/-- QISZ: the Z flag is 1 exactly when the point's Z is 0 (44_g2.md R123). -/
def execQisz (rs1 : Reg) (s : State) : Host.Outcome State Fault Refusal :=
  command (.qisz rs1) s fun c o =>
    { flags := .zero (isInfinity (fp2Ops c) (asG2 o.rs1)) }

/-- QVAL: V is 1 exactly when the point is not infinity and on the curve (44_g2.md R124). -/
def execQval (rs1 : Reg) (s : State) : Host.Outcome State Fault Refusal :=
  command (.qval rs1) s fun c o =>
    { flags := .valid (isValid (fp2Ops c) (Config.pair c.a2) (Config.pair c.b2) (asG2 o.rs1)) }

/-- QNEG: y negated (44_g2.md R125). -/
def execQneg (rd rs1 : Reg) (s : State) : Host.Outcome State Fault Refusal :=
  command (.qneg rd rs1) s fun c o =>
    { dest := ofG2 (negPoint (fp2Ops c) (asG2 o.rs1)) }

/-- QDBL: one doubling (44_g2.md R126). -/
def execQdbl (rd rs1 : Reg) (s : State) : Host.Outcome State Fault Refusal :=
  command (.qdbl rd rs1) s fun c o =>
    { dest := ofG2 (dblPoint (fp2Ops c) (Config.pair c.a2) (asG2 o.rs1)) }

/-- QDBL5: five doublings in sequence (44_g2.md R127). -/
def execQdbl5 (rd rs1 : Reg) (s : State) : Host.Outcome State Fault Refusal :=
  command (.qdbl5 rd rs1) s fun c o =>
    { dest := ofG2 (dblPoint5 (fp2Ops c) (Config.pair c.a2) (asG2 o.rs1)) }

/-- QADD: the sum of two points (44_g2.md R128). -/
def execQadd (rd rs1 rs2 : Reg) (s : State) : Host.Outcome State Fault Refusal :=
  command (.qadd rd rs1 rs2) s fun c o =>
    { dest := ofG2 (addPoint (fp2Ops c) (Config.pair c.a2) (asG2 o.rs1) (asG2 o.rs2)) }

/-- QSUB: the first point plus the negated second (44_g2.md R129). -/
def execQsub (rd rs1 rs2 : Reg) (s : State) : Host.Outcome State Fault Refusal :=
  command (.qsub rd rs1 rs2) s fun c o =>
    { dest := ofG2 (addPoint (fp2Ops c) (Config.pair c.a2) (asG2 o.rs1)
        (negPoint (fp2Ops c) (asG2 o.rs2))) }

end Sys2Proof.Machine
end

