-- ==== Sys2Proof/Machine/Integer.lean ====
section
/-! DEFINITION. The integer unit (40_integer.md): ADD, SUB, CMP, MUL at 256 bits and ADDW, SUBW, CMPW
at 512 bits. All values are unsigned (R69). -/

namespace Sys2Proof.Machine

/-- ADD: the sum modulo 2^256, C the carry out of bit 255 (40_integer.md R71). -/
def execAdd (rd rs1 rs2 : Reg) (s : State) : Host.Outcome State Fault Refusal :=
  command (.add rd rs1 rs2) s fun _ o =>
    let sum := asU256 o.rs1 + asU256 o.rs2
    { dest := ofU256 sum, flags := .carry (carryOut 256 sum) }

/-- SUB: the difference modulo 2^256, C the borrow out of bit 255 (40_integer.md R72). -/
def execSub (rd rs1 rs2 : Reg) (s : State) : Host.Outcome State Fault Refusal :=
  command (.sub rd rs1 rs2) s fun _ o =>
    let a := asU256 o.rs1
    let b := asU256 o.rs2
    { dest := ofU256 (2 ^ 256 + a - b), flags := .carry (borrowOut a b) }

/-- CMP: LT, EQ and GT from the unsigned 256-bit comparison (40_integer.md R73). -/
def execCmp (rs1 rs2 : Reg) (s : State) : Host.Outcome State Fault Refusal :=
  command (.cmp rs1 rs2) s fun _ o => { flags := compareFlags (asU256 o.rs1) (asU256 o.rs2) }

/-- MUL: the exact 512-bit product, low half to W[rd], high half to W[rd+1] (40_integer.md R74). -/
def execMul (rd rs1 rs2 : Reg) (s : State) : Host.Outcome State Fault Refusal :=
  command (.mul rd rs1 rs2) s fun _ o => { dest := ofU512 (asU256 o.rs1 * asU256 o.rs2) }

/-- ADDW: the 512-bit sum modulo 2^512, C the carry out of bit 511 (40_integer.md R76). -/
def execAddw (rd rs1 rs2 : Reg) (s : State) : Host.Outcome State Fault Refusal :=
  command (.addw rd rs1 rs2) s fun _ o =>
    let sum := asU512 o.rs1 + asU512 o.rs2
    { dest := ofU512 sum, flags := .carry (carryOut 512 sum) }

/-- SUBW: the 512-bit difference modulo 2^512, C the borrow out of bit 511 (40_integer.md R77). -/
def execSubw (rd rs1 rs2 : Reg) (s : State) : Host.Outcome State Fault Refusal :=
  command (.subw rd rs1 rs2) s fun _ o =>
    let a := asU512 o.rs1
    let b := asU512 o.rs2
    { dest := ofU512 (2 ^ 256 * 2 ^ 256 + a - b), flags := .carry (borrowOut a b) }

/-- CMPW: LT, EQ and GT from the unsigned 512-bit comparison (40_integer.md R78). -/
def execCmpw (rs1 rs2 : Reg) (s : State) : Host.Outcome State Fault Refusal :=
  command (.cmpw rs1 rs2) s fun _ o => { flags := compareFlags (asU512 o.rs1) (asU512 o.rs2) }

end Sys2Proof.Machine
end

