-- ==== Sys2Proof/Machine/Dispatch.lean ====
section
/-! DEFINITION. The one dispatch from commands to their meanings, an arm for each row of
spec/opcode_table.json. -/

namespace Sys2Proof.Machine

def exec (i : Instr) (s : State) : Host.Outcome State Fault Refusal :=
  match i with
  | .nop => Sys2Proof.Machine.execNop s
  | .add rd rs1 rs2 => Sys2Proof.Machine.execAdd rd rs1 rs2 s
  | .sub rd rs1 rs2 => Sys2Proof.Machine.execSub rd rs1 rs2 s
  | .cmp rs1 rs2 => Sys2Proof.Machine.execCmp rs1 rs2 s
  | .mul rd rs1 rs2 => Sys2Proof.Machine.execMul rd rs1 rs2 s
  | .addw rd rs1 rs2 => Sys2Proof.Machine.execAddw rd rs1 rs2 s
  | .subw rd rs1 rs2 => Sys2Proof.Machine.execSubw rd rs1 rs2 s
  | .cmpw rs1 rs2 => Sys2Proof.Machine.execCmpw rs1 rs2 s
  | .fadd rd rs1 rs2 => Sys2Proof.Machine.execFadd rd rs1 rs2 s
  | .fsub rd rs1 rs2 => Sys2Proof.Machine.execFsub rd rs1 rs2 s
  | .fneg rd rs1 => Sys2Proof.Machine.execFneg rd rs1 s
  | .fdbl rd rs1 => Sys2Proof.Machine.execFdbl rd rs1 s
  | .ftpl rd rs1 => Sys2Proof.Machine.execFtpl rd rs1 s
  | .fhlv rd rs1 => Sys2Proof.Machine.execFhlv rd rs1 s
  | .fsqr rd rs1 => Sys2Proof.Machine.execFsqr rd rs1 s
  | .fmul rd rs1 rs2 => Sys2Proof.Machine.execFmul rd rs1 rs2 s
  | .fred rd rs1 => Sys2Proof.Machine.execFred rd rs1 s
  | .fcan rd rs1 => Sys2Proof.Machine.execFcan rd rs1 s
  | .fisz rs1 => Sys2Proof.Machine.execFisz rs1 s
  | .f2add rd rs1 rs2 => Sys2Proof.Machine.execF2add rd rs1 rs2 s
  | .f2sub rd rs1 rs2 => Sys2Proof.Machine.execF2sub rd rs1 rs2 s
  | .f2neg rd rs1 => Sys2Proof.Machine.execF2neg rd rs1 s
  | .f2dbl rd rs1 => Sys2Proof.Machine.execF2dbl rd rs1 s
  | .f2sqr rd rs1 => Sys2Proof.Machine.execF2sqr rd rs1 s
  | .f2mul rd rs1 rs2 => Sys2Proof.Machine.execF2mul rd rs1 rs2 s
  | .pzero rd => Sys2Proof.Machine.execPzero rd s
  | .pgen rd => Sys2Proof.Machine.execPgen rd s
  | .pisz rs1 => Sys2Proof.Machine.execPisz rs1 s
  | .pval rs1 => Sys2Proof.Machine.execPval rs1 s
  | .pneg rd rs1 => Sys2Proof.Machine.execPneg rd rs1 s
  | .pdbl rd rs1 => Sys2Proof.Machine.execPdbl rd rs1 s
  | .pdbl5 rd rs1 => Sys2Proof.Machine.execPdbl5 rd rs1 s
  | .padd rd rs1 rs2 => Sys2Proof.Machine.execPadd rd rs1 rs2 s
  | .psub rd rs1 rs2 => Sys2Proof.Machine.execPsub rd rs1 rs2 s
  | .qzero rd => Sys2Proof.Machine.execQzero rd s
  | .qgen rd => Sys2Proof.Machine.execQgen rd s
  | .qisz rs1 => Sys2Proof.Machine.execQisz rs1 s
  | .qval rs1 => Sys2Proof.Machine.execQval rs1 s
  | .qneg rd rs1 => Sys2Proof.Machine.execQneg rd rs1 s
  | .qdbl rd rs1 => Sys2Proof.Machine.execQdbl rd rs1 s
  | .qdbl5 rd rs1 => Sys2Proof.Machine.execQdbl5 rd rs1 s
  | .qadd rd rs1 rs2 => Sys2Proof.Machine.execQadd rd rs1 rs2 s
  | .qsub rd rs1 rs2 => Sys2Proof.Machine.execQsub rd rs1 rs2 s

end Sys2Proof.Machine
end

