-- ==== Sys2Proof/Machine/Step.lean ====
section
/-! DEFINITION. The step function, and the state whose next step runs a given command word. -/

namespace Sys2Proof.Machine

/-- One step of the machine (45_control.md R130). -/
def step (s : State) : Host.Outcome State Fault Refusal := agentStep exec s

/-- `s` with the command word whose bits are `w` as the host's next transfer and the host's turn next,
the engine idle and out of reset, so that the very next step presents and runs it (log 6). -/
def State.withFetchWord (s : State) (nbits w : Nat) : State :=
  { s with
    host := cmdWrite (BitVec.ofNat 32 (w % 2 ^ nbits)) :: s.host
    sched := .host :: s.sched
    status := { s.status with busy := false }
    inflight := none
    rstN := true }

end Sys2Proof.Machine
end

