-- ==== Sys2Proof/Machine/HostNotation.lean ====
section
/-! DEFINITION. The host's side of the engine: the host operations and pseudo-instructions of
30_encoding.md R67 and R68, the platform's address decode (20_memory.md R42), and the assembler of
R66. The machine's step does not use this file. -/

namespace Sys2Proof.Machine

/-- The offset of word k of register r in the big-endian window (20_memory.md R47). -/
def wbeOffset (r : Reg) (k : Nat) : BitVec 14 := BitVec.ofNat 14 (0x2000 + 32 * r.val + 4 * k)

/-- The offset of word k of register r in the limb-order window (20_memory.md R46). -/
def wleOffset (r : Reg) (k : Nat) : BitVec 14 := BitVec.ofNat 14 (0x1000 + 32 * r.val + 4 * k)

/-- `set wN = v`: 8 writes through the big-endian window, most significant byte first (30_encoding.md
R68). -/
def hostSet (r : Reg) (v : U256) : List Transfer :=
  (List.range 8).map fun k => busWrite (wbeOffset r k) (readWbe v k)

/-- `get wN`: 8 reads of the big-endian window (30_encoding.md R68). -/
def hostGet (r : Reg) : List Transfer := (List.range 8).map fun k => busRead (wbeOffset r k)

/-- `cmd <command>` (30_encoding.md R68). -/
def hostCmd (i : Instr) : Transfer := cmdWrite (encode i)

/-- One STATUS read of `wait` (30_encoding.md R68). -/
def hostPoll : Transfer := busRead 0x000C#14

/-- `wait` goes on exactly while the last STATUS read shows bit 0, BUSY (30_encoding.md R68). -/
def waitGoesOn (s : State) : Bool :=
  match s.port.rdata with
  | some v => v.getLsbD 0
  | none => true

/-- The platform's decode of an absolute address: `sel` with the offset from `BASE` inside the 16 KiB
window, else no transfer to this engine (20_memory.md R41, R42; U13). -/
def busSelect (c : Config) (address : Nat) : Option (BitVec 14) :=
  if c.base ≤ address ∧ address < c.base + 2 ^ 14 then some (BitVec.ofNat 14 (address - c.base))
  else none

/-- The pseudo-instructions (30_encoding.md R67). For PMOV and QMOV, `z` names a point with Z = 0. -/
inductive Pseudo where
  | fmov (rd rs : Reg)
  | f2mov (rd rs : Reg)
  | pmov (rd rs z : Reg)
  | qmov (rd rs z : Reg)
deriving DecidableEq, Repr

/-- The commands of a pseudo-instruction, in order; none where rd + 1 or rs + 1 is no register
(30_encoding.md R67). -/
def Pseudo.expand : Pseudo → Option (List Instr)
  | .fmov rd rs => some [.fcan rd rs]
  | .f2mov rd rs =>
    if h : rd.val + 1 < 64 ∧ rs.val + 1 < 64 then
      some [.fcan rd rs, .fcan ⟨rd.val + 1, h.1⟩ ⟨rs.val + 1, h.2⟩]
    else none
  | .pmov rd rs z => some [.psub rd rs z]
  | .qmov rd rs z => some [.qsub rd rs z]

/-- How a mnemonic takes its operands, in the order rd, rs1, rs2 of its format (30_encoding.md R66). -/
inductive Maker where
  | nullary (i : Instr)
  | one (f : Reg → Instr)
  | two (f : Reg → Reg → Instr)
  | three (f : Reg → Reg → Reg → Instr)

/-- The mnemonics of the integer, Fp and Fp2 units and NOP, in lower case (30_encoding.md R63, R66). -/
def asmField : List (String × Maker) :=
  [("nop", .nullary .nop),
   ("add", .three .add),
   ("sub", .three .sub),
   ("cmp", .two .cmp),
   ("mul", .three .mul),
   ("addw", .three .addw),
   ("subw", .three .subw),
   ("cmpw", .two .cmpw),
   ("fadd", .three .fadd),
   ("fsub", .three .fsub),
   ("fneg", .two .fneg),
   ("fdbl", .two .fdbl),
   ("ftpl", .two .ftpl),
   ("fhlv", .two .fhlv),
   ("fsqr", .two .fsqr),
   ("fmul", .three .fmul),
   ("fred", .two .fred),
   ("fcan", .two .fcan),
   ("fisz", .one .fisz),
   ("f2add", .three .f2add),
   ("f2sub", .three .f2sub),
   ("f2neg", .two .f2neg),
   ("f2dbl", .two .f2dbl),
   ("f2sqr", .two .f2sqr),
   ("f2mul", .three .f2mul)]

/-- The mnemonics of the point units, in lower case (30_encoding.md R63, R66). -/
def asmPoint : List (String × Maker) :=
  [("pzero", .one .pzero),
   ("pgen", .one .pgen),
   ("pisz", .one .pisz),
   ("pval", .one .pval),
   ("pneg", .two .pneg),
   ("pdbl", .two .pdbl),
   ("pdbl5", .two .pdbl5),
   ("padd", .three .padd),
   ("psub", .three .psub),
   ("qzero", .one .qzero),
   ("qgen", .one .qgen),
   ("qisz", .one .qisz),
   ("qval", .one .qval),
   ("qneg", .two .qneg),
   ("qdbl", .two .qdbl),
   ("qdbl5", .two .qdbl5),
   ("qadd", .three .qadd),
   ("qsub", .three .qsub)]

/-- A blank of the assembler's text. DESIGN CHOICE (log 16): a space or a tab, any number of them. -/
def isBlank (c : Char) : Bool := c == ' ' || c == '\t'

/-- The text without blanks at either end. -/
def trimBlanks (l : List Char) : List Char := ((l.dropWhile isBlank).reverse.dropWhile isBlank).reverse

/-- The pieces of the text between commas, each trimmed. -/
def splitCommas : List Char → List (List Char)
  | [] => [[]]
  | c :: cs =>
    match splitCommas cs with
    | [] => [[c]]
    | p :: ps => if c == ',' then [] :: p :: ps else (c :: p) :: ps

/-- A decimal number, from its digits, most significant first; none for no digit or another
character. -/
def parseDigits : Nat → List Char → Option Nat
  | n, [] => some n
  | n, c :: cs =>
    if '0' ≤ c ∧ c ≤ '9' then parseDigits (10 * n + (c.toNat - '0'.toNat)) cs else none

/-- A register name, `w0` to `w63` in lower case (30_encoding.md R66). DESIGN CHOICE (log 16): the number may
carry leading zeros, so `w07` is `w7`. -/
def parseReg : List Char → Option Reg
  | 'w' :: c :: cs => (parseDigits 0 (c :: cs)).bind fun n => if h : n < 64 then some ⟨n, h⟩ else none
  | _ => none

/-- The command from its mnemonic's maker and its operands. -/
def Maker.apply : Maker → List (Option Reg) → Option Instr
  | .nullary i, [] => some i
  | .one f, [some a] => some (f a)
  | .two f, [some a, some b] => some (f a b)
  | .three f, [some a, some b, some c] => some (f a b c)
  | _, _ => none

/-- The command a line of assembler text denotes: `MNEMONIC operands`, operands separated by commas,
case-insensitive, a `;` starting a comment (30_encoding.md R66). -/
def assemble (text : String) : Option Instr :=
  let line := trimBlanks ((text.toList.takeWhile (· != ';')).map Char.toLower)
  let name := line.takeWhile fun c => !isBlank c
  let rest := trimBlanks (line.dropWhile fun c => !isBlank c)
  let operands := if rest.isEmpty then [] else (splitCommas rest).map fun p => parseReg (trimBlanks p)
  match (asmField ++ asmPoint).find? fun e => e.1.toList == name with
  | some e => e.2.apply operands
  | none => none

end Sys2Proof.Machine
end

