-- ==== Sys2Proof/Machine/Methods.lean ====
section
/-! DEFINITION. The evaluation methods the spec gives beside its value rules, so that a model can be
checked against them: the limb-level carry chain (40_integer.md R70), the half-limb multiplier (R75),
Karatsuba in Fp2 (42_fp2.md R96) and the a = −3 doubling sequence (43_g1.md R106). No meaning uses
them: only the values are observable (41_fp.md R80). -/

namespace Sys2Proof.Machine

/-- The first `n` digits of `v` in base 2^k, least significant first: limbs for k = 64, half-limbs for
k = 32 (00_scope.md R12, R16). -/
def digitsOf (k : Nat) : Nat → Nat → List Nat
  | 0, _ => []
  | n + 1, v => v % 2 ^ k :: digitsOf k n (v / 2 ^ k)

/-- The number whose base-2^k digits these are, least significant first. -/
def ofDigits (k : Nat) : List Nat → Nat
  | [] => 0
  | d :: ds => d + 2 ^ k * ofDigits k ds

/-- `add_limbs` from a carry in (40_integer.md R70): the sum's limbs and the carry out. -/
def addLimbs : List Nat → List Nat → Nat → List Nat × Nat
  | a :: as, b :: bs, c =>
    let t := a + b + c
    let r := addLimbs as bs (t / 2 ^ 64)
    (t % 2 ^ 64 :: r.1, r.2)
  | _, _, c => ([], c)

/-- `sub_limbs` from a borrow in (40_integer.md R70): the difference's limbs and the borrow out. -/
def subLimbs : List Nat → List Nat → Nat → List Nat × Nat
  | a :: as, b :: bs, c =>
    let r := subLimbs as bs (if a < b + c then 1 else 0)
    ((2 ^ 64 + a - (b + c)) % 2 ^ 64 :: r.1, r.2)
  | _, _, c => ([], c)

/-- One row of the half-limb multiplier: adds `x · bs` to the buffer with its carry, whose last value
goes to the word after the row (40_integer.md R75). -/
def mulRow (x : Nat) : List Nat → List Nat → Nat → List Nat
  | t :: ts, b :: bs, c =>
    let s := t + x * b + c
    s % 2 ^ 32 :: mulRow x ts bs (s / 2 ^ 32)
  | _ :: ts, [], c => c :: ts
  | [], _, _ => []

/-- The rows of the half-limb multiplier, one for each half-limb of a, each one word higher than the
last (40_integer.md R75). -/
def mulRows (bs : List Nat) : List Nat → List Nat → List Nat
  | [], t => t
  | x :: xs, t =>
    match mulRow x t bs 0 with
    | [] => []
    | d :: ds => d :: mulRows bs xs ds

/-- The half-limb multiplier on 256-bit operands: the sixteen 32-bit words of the product
(40_integer.md R75). -/
def mulHalfLimbs (a b : Nat) : List Nat :=
  mulRows (digitsOf 32 8 b) (digitsOf 32 8 a) (List.replicate 16 0)

/-- The Fp2 product with three Fp multiplications and one by BETA (42_fp2.md R96). -/
def fp2MulKaratsuba (p beta : Nat) (x y : Fp2) : Fp2 :=
  let v0 := fpMul p x.re y.re
  let v1 := fpMul p x.im y.im
  ⟨fpAdd p v0 (fpMul p beta v1),
   fpSub p (fpSub p (fpMul p (fpAdd p x.re x.im) (fpAdd p y.re y.im)) v0) v1⟩

/-- The a = −3 doubling sequence with triple and half (43_g1.md R106). -/
def dblMinus3 (p : Nat) (q : Point Nat) : Point Nat :=
  let zz := fpMul p q.z q.z
  let m0 := fpMul p (fpSub p q.x zz) (fpAdd p q.x zz)
  let m := 3 * m0 % p
  let y2 := fpAdd p q.y q.y
  let z3 := fpMul p y2 q.z
  let y4 := fpMul p y2 y2
  let t3 := fpMul p y4 q.x
  let y8 := fpHalf p (fpMul p y4 y4)
  let x3 := fpSub p (fpMul p m m) (fpAdd p t3 t3)
  let y3 := fpSub p (fpMul p (fpSub p t3 x3) m) y8
  ⟨x3, y3, z3⟩

end Sys2Proof.Machine
end

