-- ==== Sys2Proof/WellFormed.lean ====
section
/-! DEFINITION. Which commands are well formed: every operand group lies inside the register file
(10_state.md R22). An ill-formed command still has a word; the engine rejects it with REG_RANGE. -/

namespace Sys2Proof

/-- The REG_RANGE check of 45_control.md R132, over RD, RS1 and RS2 in that order. -/
def Instr.wellFormed (i : Instr) : Bool :=
  slotFits i.slots.rd && slotFits i.slots.rs1 && slotFits i.slots.rs2

end Sys2Proof
end

