-- ==== Sys2Proof/Safety.lean ====
section
/-! DEFINITION. What counts as a safe run, the invariant every step keeps, the constraints on the
design-time parameters, and the terms the claims are stated in. -/

namespace Sys2Proof

/-- The constraints on the design-time parameters (00_scope.md R8). `State.reset` names one instance;
a claim that needs a constraint takes it as a hypothesis (93_implementation_defined.md U14). -/
structure Config.Valid (c : Config) : Prop where
  prime : Nat.Prime c.P
  odd : c.P ≠ 2
  beta_lt : c.beta.toNat < c.P
  beta_nonresidue : ∀ x < c.P, x * x % c.P ≠ c.beta.toNat
  b1_lt : c.b1.toNat < c.P
  a2_lt : c.a2.1.toNat < c.P ∧ c.a2.2.toNat < c.P
  b2_lt : c.b2.1.toNat < c.P ∧ c.b2.2.toNat < c.P
  gen1_lt : c.gen1.1.toNat < c.P ∧ c.gen1.2.toNat < c.P
  gen2_lt : (c.gen2.1.1.toNat < c.P ∧ c.gen2.1.2.toNat < c.P) ∧
    c.gen2.2.1.toNat < c.P ∧ c.gen2.2.2.toNat < c.P
  gen1_valid : Machine.isValid (Machine.fpOps c) (Machine.a1 c) c.b1.toNat (Machine.genG1 c) = true
  gen2_valid : Machine.isValid (Machine.fp2Ops c) (Config.pair c.a2) (Config.pair c.b2)
    (Machine.genG2 c) = true
  lat_pos : ∀ o : Fin 256, 1 ≤ c.lat[o]
  base_aligned : 2 ^ 14 ∣ c.base

namespace Machine

/-- The engine is idle: BUSY = 0 and no command in flight (10_state.md R36). -/
abbrev Idle (s : State) : Prop := s.status.busy = false ∧ s.inflight = none

/-- The same state with the in-flight command's latency run out, so that its commit is due
(45_control.md R134). -/
def latencyRunOut (s : State) : State :=
  { s with inflight := s.inflight.map fun f => { f with remaining := 0 } }

/-- The command, presented in `s`, is issued (BUSY becomes 1), and when its latency has run out it
commits and leaves `t`: both times `exec` answers a next state (45_control.md R131, R133, R134). -/
def Completes (i : Instr) (s t : State) : Prop :=
  ∃ u, exec i s = .next u ∧ u.status.busy = true ∧ exec i (latencyRunOut u) = .next t

/-- The host program is at fault: its last transfer was refused (60_exceptions.md R142: "a model treats
a refused transfer as a fault of the host program"; log 7). -/
def hostFault (s : State) : Bool := s.port.ready && s.port.err

/-- Every word of W[n] is marked written (20_memory.md R48). -/
def regWritten (m : Vector (Vector Bool 8) 64) (n : Nat) : Bool :=
  decide (m[n]? = some (Vector.replicate 8 true))

/-- Every register of a source group is wholly written (20_memory.md R48). -/
def slotWritten (m : Vector (Vector Bool 8) 64) : Option Slot → Bool
  | some o => (List.range o.ty.size).all fun k => regWritten m (o.reg.val + k)
  | none => true

/-- Every source register of the command is wholly written (20_memory.md R48). -/
def sourcesWritten (i : Instr) (s : State) : Bool :=
  slotWritten s.written i.slots.rs1 && slotWritten s.written i.slots.rs2

/-- A read of this target reads only a written word (20_memory.md R48). -/
def targetWritten (s : State) : Target → Bool
  | .wle r k => s.written[r][k]
  | .wbe r k => s.written[r][wbeMark k]
  | .id => true
  | .version => true
  | .ctrl => true
  | .status => true
  | .cmd => true
  | .reserved => true

/-- Presenting this word reads only wholly written registers: it is dropped, rejected before any source
is read, or all its sources are written (45_control.md R132, 20_memory.md R48). -/
def presentReadsWritten (w : Word) (s : State) : Bool :=
  s.status.busy ||
    match decode w with
    | .error _ => true
    | .ok i => !i.wellFormed || sourcesWritten i s

/-- The transfer reads only written words. -/
def transferReadsWritten (s : State) (t : Transfer) : Bool :=
  t.refused ||
    if t.we then target t.addr != .cmd || presentReadsWritten t.wdata s
    else targetWritten s (target t.addr)

/-- The turns in which a transfer may be carried out (45_control.md R130; log 14). -/
abbrev HostTurn (s : State) : Prop := turnOf s = .host ∨ turnOf s = .pass

/-- The next step reads only written words: the runs about which the spec lets a model claim anything
(10_state.md R19, 20_memory.md R48: elsewhere "a model shall fault"; log 3). -/
def stepReadsWritten (s : State) : Bool :=
  match nextTransfer s with
  | none => true
  | some (t, _) => transferReadsWritten s t

/-- Two states that differ at most in the words of the operand registers that are not marked written:
what no run may depend on (10_state.md R19). -/
structure AgreeOnWritten (s t : State) : Prop where
  rest : { t with w := s.w } = s
  words : ∀ (r : Reg) (k : Fin 8), s.written[r][k] = true → readWle s.w[r] k.val = readWle t.w[r] k.val

/-- What holds of the in-flight command (10_state.md R36, 45_control.md R131 to R134): cycles are left,
no more than its latency; it passed every check; and the kept source values are those still in the
registers. -/
structure InFlightOk (s : State) (f : InFlight) : Prop where
  remaining_pos : 1 ≤ f.remaining
  remaining_le : f.remaining ≤ latency s.const f.cmd
  checked : check f.cmd s = none
  src1 : f.src1 = readSlot s.w f.cmd.slots.rs1
  src2 : f.src2 = readSlot s.w f.cmd.slots.rs2

/-- The invariant that every step keeps. -/
structure Inv (s : State) : Prop where
  /-- Every latency is at least 1 (00_scope.md R8); the parameters never change. -/
  lat_pos : ∀ o : Fin 256, 1 ≤ s.const.lat[o]
  /-- BUSY says that a command is in flight (10_state.md R25). -/
  busy_iff : s.status.busy = s.inflight.isSome
  inflight_ok : ∀ f, s.inflight = some f → InFlightOk s f
  /-- ERRCODE is one of 0 to 4 (93_implementation_defined.md V6). -/
  errcode_le : s.status.errcode.toNat ≤ 4
  /-- ERR is set exactly when ERRCODE is not NONE (60_exceptions.md R139, 10_state.md R31). -/
  err_iff : s.status.err = decide (s.status.errcode ≠ 0#4)
  /-- While BUSY, DONE and ERR are 0 (45_control.md R133). -/
  busy_clear : s.status.busy = true → s.status.done = false ∧ s.status.err = false
  /-- At most one of LT, EQ, GT is set (10_state.md R27). -/
  order : (s.status.lt && s.status.eq) = false ∧ (s.status.lt && s.status.gt) = false ∧
    (s.status.eq && s.status.gt) = false
  /-- While `rst_n` = 0 the engine is in its power-on state (70_reset_and_hazards.md R153). -/
  in_reset : s.rstN = false →
    s.status = {} ∧ s.irqEn = false ∧ s.inflight = none ∧ s.written = State.noneWritten

/-- STATUS after a commit that writes no flag: BUSY, ERR and ERRCODE 0, DONE 1, the rest as it was
(45_control.md R133, R134). -/
def statusAfter (st : Status) : Status :=
  { st with busy := false, done := true, err := false, errcode := 0#4 }

/-- A commit leaves every part of the state but the operand registers, their marks and STATUS as it was
when the command was presented to an idle engine. -/
structure CommitFrame (s t : State) : Prop where
  const : t.const = s.const
  irqEn : t.irqEn = s.irqEn
  inflight : t.inflight = none
  rstN : t.rstN = s.rstN
  port : t.port = s.port
  host : t.host = s.host
  sched : t.sched = s.sched
  draws : t.draws = s.draws

/-- No operand register and no mark is changed. -/
abbrev WritesNothing (s t : State) : Prop := t.w = s.w ∧ t.written = s.written

/-- The registers from W[r] hold `vs` and are wholly written; every other register and its marks are
unchanged (45_control.md R134, 10_state.md R18, 20_memory.md R48). -/
def WritesGroup (s t : State) (r : Reg) (vs : List U256) : Prop :=
  ∀ n : Reg,
    t.w[n] = (if r.val ≤ n.val then vs.getD (n.val - r.val) s.w[n] else s.w[n]) ∧
    t.written[n] = (if r.val ≤ n.val ∧ n.val < r.val + vs.length then Vector.replicate 8 true
      else s.written[n])

/-- Each of the `g` registers from W[r] holds a canonical field element (30_encoding.md R62). -/
abbrev GroupBelowP (s : State) (r : Reg) (g : Nat) : Prop :=
  ∀ k < g, (regAt s.w (r.val + k)).toNat < s.const.P

/-- The 512-bit value of the pair at W[r] (10_state.md R21). -/
def wide (s : State) (r : Reg) : Nat :=
  (regAt s.w r.val).toNat + 2 ^ 256 * (regAt s.w (r.val + 1)).toNat

/-- The prime field of the instance, mathematically: the integers modulo P. -/
abbrev FpRing (c : Config) : Type := ZMod c.P

/-- The quadratic extension of the instance, mathematically: a + b·u with u² = BETA (42_fp2.md R94). -/
abbrev Fp2Ring (c : Config) : Type := QuadraticAlgebra (ZMod c.P) (c.beta.toNat : ZMod c.P) 0

/-- The field element W[n] stands for. -/
def fpAt (s : State) (n : Nat) : FpRing s.const := ((regAt s.w n).toNat : ZMod s.const.P)

/-- The Fp2 element the pair at W[n] stands for. -/
def fp2At (s : State) (n : Nat) : Fp2Ring s.const := ⟨fpAt s n, fpAt s (n + 1)⟩

/-- A Jacobian triple over a commutative ring, mathematically. -/
abbrev Triple (R : Type) : Type := R × R × R

/-- The G1 point at W[r], over the mathematical field (10_state.md R21). -/
def g1At (s : State) (r : Reg) : Triple (FpRing s.const) :=
  (fpAt s r.val, fpAt s (r.val + 1), fpAt s (r.val + 2))

/-- The G2 point at W[r], over the mathematical extension (10_state.md R21). -/
def g2At (s : State) (r : Reg) : Triple (Fp2Ring s.const) :=
  (fp2At s r.val, fp2At s (r.val + 2), fp2At s (r.val + 4))

/-- Three register values as a G1 point over the mathematical field. -/
def g1Of (c : Config) (x y z : U256) : Triple (FpRing c) :=
  ((x.toNat : ZMod c.P), (y.toNat : ZMod c.P), (z.toNat : ZMod c.P))

/-- Two register values as an element of the mathematical extension. -/
def fp2Of (c : Config) (a b : U256) : Fp2Ring c := ⟨(a.toNat : ZMod c.P), (b.toNat : ZMod c.P)⟩

/-- Six register values as a G2 point over the mathematical extension. -/
def g2Of (c : Config) (x0 x1 y0 y1 z0 z1 : U256) : Triple (Fp2Ring c) :=
  (fp2Of c x0 x1, fp2Of c y0 y1, fp2Of c z0 z1)

/-- The curve coefficient `A2` as an element of the extension. -/
def a2Ring (c : Config) : Fp2Ring c := ⟨(c.a2.1.toNat : ZMod c.P), (c.a2.2.toNat : ZMod c.P)⟩

/-- The curve coefficient `B2` as an element of the extension. -/
def b2Ring (c : Config) : Fp2Ring c := ⟨(c.b2.1.toNat : ZMod c.P), (c.b2.2.toNat : ZMod c.P)⟩

/-- The Jacobian curve equation (43_g1.md R104, 44_g2.md R119). -/
def OnCurve {R : Type} [CommRing R] (a b : R) (q : Triple R) : Prop :=
  q.2.1 ^ 2 = q.1 ^ 3 + a * q.1 * q.2.2 ^ 4 + b * q.2.2 ^ 6

/-- `q3` is the double of `q`: `q` itself when Z = 0, else the formula of 43_g1.md R105. -/
def IsDouble {R : Type} [CommRing R] (a : R) (q q3 : Triple R) : Prop :=
  (q.2.2 = 0 → q3 = q) ∧
  (q.2.2 ≠ 0 →
    let m := 3 * q.1 ^ 2 + a * q.2.2 ^ 4
    let s := 4 * q.1 * q.2.1 ^ 2
    let x3 := m ^ 2 - 2 * s
    q3 = (x3, m * (s - x3) - 8 * q.2.1 ^ 4, 2 * q.2.1 * q.2.2))

/-- `q3` is the sum of `q1` and `q2`, by the branches and the formula of 43_g1.md R107. -/
def IsSum {R : Type} [CommRing R] (a : R) (q1 q2 q3 : Triple R) : Prop :=
  (q2.2.2 = 0 → q3 = q1) ∧
  (q2.2.2 ≠ 0 → q1.2.2 = 0 → q3 = q2) ∧
  (q2.2.2 ≠ 0 → q1.2.2 ≠ 0 →
    let u1 := q1.1 * q2.2.2 ^ 2
    let s1 := q1.2.1 * q2.2.2 ^ 3
    let h := q2.1 * q1.2.2 ^ 2 - u1
    let r := q2.2.1 * q1.2.2 ^ 3 - s1
    (h = 0 → r = 0 → IsDouble a q1 q3) ∧
    (h = 0 → r ≠ 0 → q3 = (1, 1, 0)) ∧
    (h ≠ 0 →
      let x3 := r ^ 2 - h ^ 3 - 2 * (u1 * h ^ 2)
      q3 = (x3, r * (u1 * h ^ 2 - x3) - s1 * h ^ 3, q1.2.2 * q2.2.2 * h)))

/-- The negated point: y negated, x and z unchanged (43_g1.md R108). -/
def negTriple {R : Type} [CommRing R] (q : Triple R) : Triple R := (q.1, -q.2.1, q.2.2)

/-- The group at W[rd] becomes a canonical G1 point `q3` with `rel q3`, everything else as a commit
without flags leaves it. -/
def G1Result (i : Instr) (s : State) (rd : Reg) (rel : Triple (FpRing s.const) → Prop) : Prop :=
  ∃ t x y z, Completes i s t ∧ CommitFrame s t ∧ t.status = statusAfter s.status ∧
    WritesGroup s t rd [x, y, z] ∧
    (x.toNat < s.const.P ∧ y.toNat < s.const.P ∧ z.toNat < s.const.P) ∧ rel (g1Of s.const x y z)

/-- The group at W[rd] becomes a canonical G2 point `q3` with `rel q3`, everything else as a commit
without flags leaves it. -/
def G2Result (i : Instr) (s : State) (rd : Reg) (rel : Triple (Fp2Ring s.const) → Prop) : Prop :=
  ∃ t x0 x1 y0 y1 z0 z1, Completes i s t ∧ CommitFrame s t ∧ t.status = statusAfter s.status ∧
    WritesGroup s t rd [x0, x1, y0, y1, z0, z1] ∧
    (∀ v ∈ [x0, x1, y0, y1, z0, z1], v.toNat < s.const.P) ∧
    rel (g2Of s.const x0 x1 y0 y1 z0 z1)

/-- The group at W[rd] becomes `vs`, STATUS changes only as a commit without flags changes it, and so
does the rest. -/
def RegResult (i : Instr) (s : State) (rd : Reg) (vs : List U256) : Prop :=
  ∃ t, Completes i s t ∧ CommitFrame s t ∧ t.status = statusAfter s.status ∧ WritesGroup s t rd vs

/-- The command writes the flags of `st`, no register, and nothing else. -/
def FlagResult (i : Instr) (s : State) (st : Status) : Prop :=
  ∃ t, Completes i s t ∧ CommitFrame s t ∧ t.status = st ∧ WritesNothing s t

/-- The opcodes that write flag C (10_state.md R26). -/
def writesC (i : Instr) : Bool := [0x01#8, 0x02#8, 0x05#8, 0x06#8].contains i.opc

/-- The opcodes that write LT, EQ and GT (10_state.md R27). -/
def writesOrder (i : Instr) : Bool := [0x03#8, 0x07#8].contains i.opc

/-- The opcodes that write Z (10_state.md R28). -/
def writesZ (i : Instr) : Bool := [0x1A#8, 0x32#8, 0x42#8].contains i.opc

/-- The opcodes that write V (10_state.md R29). -/
def writesV (i : Instr) : Bool := [0x33#8, 0x43#8].contains i.opc

/-- `s` with these transfers as the host's next ones and a host turn for each. -/
def withTransfers (s : State) (ts : List Transfer) : State :=
  { s with host := ts ++ s.host, sched := List.replicate ts.length .host ++ s.sched }

/-- `s` with `n` engine turns next. -/
def withCycles (s : State) (n : Nat) : State :=
  { s with sched := List.replicate n .engine ++ s.sched }

end Machine
end Sys2Proof
end

