-- ==== Sys2Proof/Certificates/Slice0/Obligations.lean ====
section
/-! DEFINITION. The statements about the engine, from the numbered rules of spec/. -/

open Sys2Proof
open Sys2Proof.Machine

/-- Sanity (30_encoding.md R59, R63, R66): words written out from the encoding tables decode to the
commands they stand for, one of each format and unit. -/
def Obligations.WrittenOutWordsDecode : Prop :=
  decode 0x17030102#32 = .ok (.fmul 3 1 2) ∧
  decode 0x00000000#32 = .ok .nop ∧
  decode 0x01050607#32 = .ok (.add 5 6 7) ∧
  decode 0x03000E0F#32 = .ok (.cmp 14 15) ∧
  decode 0x180E0A00#32 = .ok (.fred 14 10) ∧
  decode 0x24020100#32 = .ok (.f2sqr 2 1) ∧
  decode 0x300A0000#32 = .ok (.pzero 10) ∧
  decode 0x43003F00#32 = .ok (.qval 63) ∧
  decode 0x08FFFFFF#32 = .error .illegalOpcode ∧
  decode 0x373E0083#32 = .error .rsvdField

/-- Decoding the encoding of any command, with any register in any field, gives the command back:
no bit of an encoding is dropped (30_encoding.md R59, R60, R63). -/
def Obligations.DecodeOfEncode : Prop := ∀ i : Instr, decode (encode i) = .ok i

/-- A word the decoder accepts is the encoding of what it decodes to: every command has one word. -/
def Obligations.EncodeOfDecode : Prop := ∀ (w : Word) (i : Instr), decode w = .ok i → encode i = w

/-- 30_encoding.md R64, R65: an undefined opcode is illegal whatever the other bits are; a word of
known opcode with a fixed bit set is rejected as RSVD_FIELD; every other word decodes to a command of
its opcode. -/
def Obligations.DecodingIsTotalAndRejectsByName : Prop :=
  ∀ w : Word,
    let n := w.toNat / 2 ^ 24
    ((0x08 ≤ n ∧ n ≤ 0x0F) ∨ (0x1B ≤ n ∧ n ≤ 0x1F) ∨ (0x26 ≤ n ∧ n ≤ 0x2F) ∨
        (0x39 ≤ n ∧ n ≤ 0x3F) ∨ 0x49 ≤ n → decode w = .error .illegalOpcode) ∧
    (∀ i : Instr, n = i.opc.toNat →
      (w &&& i.format.mask &&& 0x00FFFFFF#32 ≠ 0#32 → decode w = .error .rsvdField) ∧
      (w &&& i.format.mask &&& 0x00FFFFFF#32 = 0#32 → ∃ j, decode w = .ok j ∧ j.opc = i.opc))

/-- 60_exceptions.md R141, 45_control.md R131: a CMD write while BUSY sets OVR and changes nothing else;
the word is not checked. OVR stays 1 until a STATUS write with bit 3 set or a reset. -/
def Obligations.BusyCommandWriteOnlySetsOvr : Prop :=
  (∀ (s : State) (w : Word), s.status.busy = true →
    transfer exec (cmdWrite w) s =
      .next { s with status := { s.status with ovr := true }, port := { ready := true } }) ∧
  (∀ s t : State, step s = .next t → s.status.ovr = true → t.status.ovr = true ∨
    (∃ u rest, nextTransfer s = some (u, rest) ∧ u.we = true ∧ u.addr = 0x000C#14 ∧
      u.wdata.getLsbD 3 = true) ∨
    (t.status = {} ∧ t.irqEn = false ∧ t.inflight = none))

/-- 30_encoding.md R64, 60_exceptions.md R139: a CMD write to an engine that is not busy, of a word whose
OPC is in no row of the opcode map, is rejected with code 1; of a word whose OPC is in the map with a 1 in
a bit its format fixes, with code 2; every other word decodes to a command of its OPC. A rejection sets
ERR, ERRCODE and DONE and changes nothing else. -/
def Obligations.UndecodableWordIsRejected : Prop :=
  ∀ (s : State) (w : Word), s.status.busy = false →
    let n := w.toNat / 2 ^ 24
    let rejects := fun code : BitVec 4 => transfer exec (cmdWrite w) s =
      .next { s with
        status := { s.status with err := true, errcode := code, done := true }
        port := { ready := true } }
    ((∀ i : Instr, i.opc.toNat ≠ n) → rejects 1#4) ∧
    (∀ i : Instr, i.opc.toNat = n →
      (w &&& i.format.mask &&& 0x00FFFFFF#32 ≠ 0#32 → rejects 2#4) ∧
      (w &&& i.format.mask &&& 0x00FFFFFF#32 = 0#32 → ∃ j, decode w = .ok j ∧ j.opc = i.opc))

/-- 45_control.md R132, 60_exceptions.md R139: a command with an operand group that passes W63 is
rejected with code 3; one whose groups fit but whose Fp-typed sources hold a component not below P is
rejected with code 4; ERR and DONE are set and nothing else changes. That code 3 takes in PZERO, PGEN,
QZERO and QGEN is the model's choice (log 15). -/
def Obligations.FailedChecksReject : Prop :=
  ∀ (i : Instr) (s : State), Idle s →
    ((∃ o, (i.slots.rd = some o ∨ i.slots.rs1 = some o ∨ i.slots.rs2 = some o) ∧
        63 < o.reg.val + o.ty.size - 1) →
      exec i s = .next { s with status := { s.status with err := true, errcode := 3#4, done := true } }) ∧
    ((∀ o, (i.slots.rd = some o ∨ i.slots.rs1 = some o ∨ i.slots.rs2 = some o) →
        o.reg.val + o.ty.size - 1 ≤ 63) →
      (∃ o, (i.slots.rs1 = some o ∨ i.slots.rs2 = some o) ∧ o.ty.fpTyped = true ∧
        ¬ GroupBelowP s o.reg o.ty.size) →
      exec i s = .next { s with status := { s.status with err := true, errcode := 4#4, done := true } })

/-- 45_control.md R133, 10_state.md R36: a command that passes every check is issued: BUSY 1, DONE, ERR
and ERRCODE 0, its source groups read in full and kept, its count starting at `LAT(OPC)`, which does
not depend on operand values (70_reset_and_hazards.md R162); nothing else changes. -/
def Obligations.IssueKeepsSourcesAndLatency : Prop :=
  ∀ (i : Instr) (s : State), Idle s → i.wellFormed = true →
    (∀ o, (i.slots.rs1 = some o ∨ i.slots.rs2 = some o) → o.ty.fpTyped = true →
      GroupBelowP s o.reg o.ty.size) →
    ∃ f : InFlight,
      exec i s = .next { s with
        status := { s.status with busy := true, done := false, err := false, errcode := 0#4 }
        inflight := some f } ∧
      f.cmd = i ∧ f.remaining = s.const.lat[i.opc.toNat]'(i.opc.isLt) ∧
      f.src1 = (i.slots.rs1.elim [] fun o => (List.range o.ty.size).map fun k => regAt s.w (o.reg.val + k)) ∧
      f.src2 = (i.slots.rs2.elim [] fun o => (List.range o.ty.size).map fun k => regAt s.w (o.reg.val + k))

/-- No command and no step of the machine ends in a fault or a refusal. Of commands 45_control.md R134 says
so; that no step does is the model's choice where the spec asks a model for a fault: at a read of an
unwritten word (20_memory.md R48; log 3) and at a refused transfer (60_exceptions.md R142; log 7). -/
def Obligations.EveryStepAnswersNext : Prop :=
  (∀ (i : Instr) (s : State), ∃ t, exec i s = .next t) ∧ (∀ s : State, ∃ t, step s = .next t)

/-- 10_state.md R26 to R30, for all 43 commands and every state: only ADD, SUB, ADDW, SUBW change C,
only CMP, CMPW change LT, EQ, GT, only FISZ, PISZ, QISZ change Z, only PVAL, QVAL change V. -/
def Obligations.FlagsHaveOnlyTheirWriters : Prop :=
  ∀ (i : Instr) (s t : State), exec i s = .next t →
    (writesC i = false → t.status.c = s.status.c) ∧
    (writesOrder i = false →
      t.status.lt = s.status.lt ∧ t.status.eq = s.status.eq ∧ t.status.gt = s.status.gt) ∧
    (writesZ i = false → t.status.z = s.status.z) ∧
    (writesV i = false → t.status.v = s.status.v)

/-- 10_state.md R18, for all 43 commands and every state: a command writes no operand register and no
mark outside its destination group, and none of the state but registers, marks, STATUS and the
in-flight command. -/
def Obligations.OnlyTheDestinationIsWritten : Prop :=
  ∀ (i : Instr) (s t : State), exec i s = .next t →
    (∀ n : Reg, (∀ o, i.slots.rd = some o → n.val < o.reg.val ∨ o.reg.val + o.ty.size ≤ n.val) →
      t.w[n] = s.w[n] ∧ t.written[n] = s.written[n]) ∧
    t.const = s.const ∧ t.irqEn = s.irqEn ∧ t.rstN = s.rstN ∧ t.port = s.port ∧ t.host = s.host ∧
    t.sched = s.sched ∧ t.draws = s.draws ∧ t.status.ovr = (s.status.ovr || (s.status.busy && t.status.busy))

/-- 41_fp.md R79: every register an Fp, Fp2, G1 or G2 command writes is below P. -/
def Obligations.FieldResultsAreCanonical : Prop :=
  ∀ (i : Instr) (s t : State) (o : Slot), Idle s → 3 ≤ s.const.P →
    (s.const.gen1.1.toNat < s.const.P ∧ s.const.gen1.2.toNat < s.const.P) →
    (s.const.gen2.1.1.toNat < s.const.P ∧ s.const.gen2.1.2.toNat < s.const.P ∧
      s.const.gen2.2.1.toNat < s.const.P ∧ s.const.gen2.2.2.toNat < s.const.P) →
    Completes i s t → i.slots.rd = some o → o.ty.fpTyped = true →
    ∀ k < o.ty.size, (regAt t.w (o.reg.val + k)).toNat < s.const.P

/-- 45_control.md R136, 30_encoding.md R65: the word 0 is NOP, and a word with OPC 0 and any other bit set
is rejected as RSVD_FIELD; NOP is issued and commits, writing no register and no flag. -/
def Obligations.NopCompletes : Prop :=
  decode 0#32 = .ok .nop ∧
  (∀ w : Word, w.toNat < 2 ^ 24 → w ≠ 0#32 → decode w = .error .rsvdField) ∧
  ∀ s : State, Idle s → FlagResult .nop s (statusAfter s.status)

/-- 40_integer.md R71, R72: ADD writes the sum modulo 2^256 and C the carry out; SUB the difference
modulo 2^256 and C the borrow out; nothing else changes. -/
def Obligations.AddAndSubResults : Prop :=
  ∀ (s : State) (rd rs1 rs2 : Reg), Idle s →
    let a := s.w[rs1].toNat
    let b := s.w[rs2].toNat
    (∃ t, Completes (.add rd rs1 rs2) s t ∧ CommitFrame s t ∧
      WritesGroup s t rd [BitVec.ofNat 256 ((a + b) % 2 ^ 256)] ∧
      t.status = { statusAfter s.status with c := decide (2 ^ 256 ≤ a + b) }) ∧
    (∃ t, Completes (.sub rd rs1 rs2) s t ∧ CommitFrame s t ∧
      WritesGroup s t rd [BitVec.ofNat 256 (if a < b then a + 2 ^ 256 - b else a - b)] ∧
      t.status = { statusAfter s.status with c := decide (a < b) })

/-- 40_integer.md R73, R78: CMP and CMPW write LT, EQ and GT by the unsigned order, exactly one 1, and
nothing else. -/
def Obligations.CompareResults : Prop :=
  ∀ (s : State) (rs1 rs2 : Reg), Idle s →
    (let a := s.w[rs1].toNat
     let b := s.w[rs2].toNat
     FlagResult (.cmp rs1 rs2) s
       { statusAfter s.status with lt := decide (a < b), eq := decide (a = b), gt := decide (b < a) }) ∧
    (rs1.val + 2 ≤ 64 → rs2.val + 2 ≤ 64 →
     let a := wide s rs1
     let b := wide s rs2
     FlagResult (.cmpw rs1 rs2) s
       { statusAfter s.status with lt := decide (a < b), eq := decide (a = b), gt := decide (b < a) })

/-- 40_integer.md R74: MUL writes the exact 512-bit product, low half to W[rd] and high half to
W[rd+1], and no flag. -/
def Obligations.MulResult : Prop :=
  ∀ (s : State) (rd rs1 rs2 : Reg), Idle s → rd.val + 2 ≤ 64 →
    ∃ lo hi : U256, lo.toNat + 2 ^ 256 * hi.toNat = s.w[rs1].toNat * s.w[rs2].toNat ∧
      RegResult (.mul rd rs1 rs2) s rd [lo, hi]

/-- 40_integer.md R76, R77: ADDW and SUBW at 512 bits, the carry or borrow between the registers kept
inside, C the carry or borrow out of bit 511. -/
def Obligations.WideAddAndSubResults : Prop :=
  ∀ (s : State) (rd rs1 rs2 : Reg), Idle s →
    rd.val + 2 ≤ 64 → rs1.val + 2 ≤ 64 → rs2.val + 2 ≤ 64 →
    let a := wide s rs1
    let b := wide s rs2
    let m := 2 ^ 256 * 2 ^ 256
    (∃ (t : State) (lo hi : U256), lo.toNat + 2 ^ 256 * hi.toNat = (a + b) % m ∧
      Completes (.addw rd rs1 rs2) s t ∧ CommitFrame s t ∧ WritesGroup s t rd [lo, hi] ∧
      t.status = { statusAfter s.status with c := decide (m ≤ a + b) }) ∧
    (∃ (t : State) (lo hi : U256), lo.toNat + 2 ^ 256 * hi.toNat = (if a < b then a + m - b else a - b) ∧
      Completes (.subw rd rs1 rs2) s t ∧ CommitFrame s t ∧ WritesGroup s t rd [lo, hi] ∧
      t.status = { statusAfter s.status with c := decide (a < b) })

/-- 41_fp.md R83 to R87: FADD, FSUB, FNEG, FDBL and FTPL on canonical operands, no flag written. -/
def Obligations.FieldLinearResults : Prop :=
  ∀ (s : State) (rd rs1 rs2 : Reg), Idle s → s.w[rs1].toNat < s.const.P →
    let a := s.w[rs1].toNat
    let b := s.w[rs2].toNat
    (b < s.const.P →
      RegResult (.fadd rd rs1 rs2) s rd [BitVec.ofNat 256 ((a + b) % s.const.P)] ∧
      RegResult (.fsub rd rs1 rs2) s rd
        [BitVec.ofNat 256 (if b ≤ a then a - b else a + s.const.P - b)]) ∧
    RegResult (.fneg rd rs1) s rd [BitVec.ofNat 256 (if a = 0 then 0 else s.const.P - a)] ∧
    RegResult (.fdbl rd rs1) s rd [BitVec.ofNat 256 (2 * a % s.const.P)] ∧
    RegResult (.ftpl rd rs1) s rd [BitVec.ofNat 256 (3 * a % s.const.P)]

/-- 41_fp.md R88: FHLV shifts an even operand, and an odd operand plus P, right by one; for odd P the
result h is below P and 2h ≡ a (mod P). -/
def Obligations.HalveResult : Prop :=
  ∀ (s : State) (rd rs1 : Reg), Idle s → s.w[rs1].toNat < s.const.P → s.const.P % 2 = 1 →
    ∃ h : U256,
      h.toNat = (if s.w[rs1].toNat % 2 = 0 then s.w[rs1].toNat / 2
        else (s.w[rs1].toNat + s.const.P) / 2) ∧
      h.toNat < s.const.P ∧ 2 * h.toNat % s.const.P = s.w[rs1].toNat ∧
      RegResult (.fhlv rd rs1) s rd [h]

/-- 41_fp.md R89, R90: FSQR and FMUL reduce the exact 512-bit product modulo P, no flag written. -/
def Obligations.FieldProductResults : Prop :=
  ∀ (s : State) (rd rs1 rs2 : Reg), Idle s → s.w[rs1].toNat < s.const.P →
    let a := s.w[rs1].toNat
    let b := s.w[rs2].toNat
    RegResult (.fsqr rd rs1) s rd [BitVec.ofNat 256 (a * a % s.const.P)] ∧
    (b < s.const.P → RegResult (.fmul rd rs1 rs2) s rd [BitVec.ofNat 256 (a * b % s.const.P)])

/-- 41_fp.md R91, R92: FRED reduces any 512-bit value and FCAN any 256-bit value modulo P, with no
check on the source; FCAN copies a value below P. -/
def Obligations.ReductionResults : Prop :=
  ∀ (s : State) (rd rs1 : Reg), Idle s →
    (rs1.val + 2 ≤ 64 → RegResult (.fred rd rs1) s rd [BitVec.ofNat 256 (wide s rs1 % s.const.P)]) ∧
    RegResult (.fcan rd rs1) s rd [BitVec.ofNat 256 (s.w[rs1].toNat % s.const.P)] ∧
    (s.w[rs1].toNat < s.const.P → RegResult (.fcan rd rs1) s rd [s.w[rs1]])

/-- 41_fp.md R93: FISZ writes Z with the zero test of a canonical operand, and nothing else. -/
def Obligations.FieldZeroTest : Prop :=
  ∀ (s : State) (rs1 : Reg), Idle s → s.w[rs1].toNat < s.const.P →
    FlagResult (.fisz rs1) s { statusAfter s.status with z := decide (s.w[rs1] = 0#256) }

/-- 42_fp2.md R97 to R100: F2ADD, F2SUB, F2NEG and F2DBL component by component, no flag written. -/
def Obligations.Fp2LinearResults : Prop :=
  ∀ (s : State) (rd rs1 rs2 : Reg), Idle s → rd.val + 2 ≤ 64 → rs1.val + 2 ≤ 64 →
    GroupBelowP s rs1 2 →
    let p := s.const.P
    let a := (regAt s.w rs1.val).toNat
    let b := (regAt s.w (rs1.val + 1)).toNat
    let c := (regAt s.w rs2.val).toNat
    let d := (regAt s.w (rs2.val + 1)).toNat
    (rs2.val + 2 ≤ 64 → GroupBelowP s rs2 2 →
      RegResult (.f2add rd rs1 rs2) s rd
        [BitVec.ofNat 256 ((a + c) % p), BitVec.ofNat 256 ((b + d) % p)] ∧
      RegResult (.f2sub rd rs1 rs2) s rd
        [BitVec.ofNat 256 ((a + p - c) % p), BitVec.ofNat 256 ((b + p - d) % p)]) ∧
    RegResult (.f2neg rd rs1) s rd [BitVec.ofNat 256 ((p - a) % p), BitVec.ofNat 256 ((p - b) % p)] ∧
    RegResult (.f2dbl rd rs1) s rd
      [BitVec.ofNat 256 ((a + a) % p), BitVec.ofNat 256 ((b + b) % p)]

/-- 42_fp2.md R101, R102: F2MUL writes (ac + BETA·bd, ad + bc) modulo P, F2SQR the same with both
sources equal; in the extension the result is the product. -/
def Obligations.Fp2ProductResults : Prop :=
  ∀ (s : State) (rd rs1 rs2 : Reg), Idle s → rd.val + 2 ≤ 64 → rs1.val + 2 ≤ 64 →
    GroupBelowP s rs1 2 →
    let p := s.const.P
    let a := (regAt s.w rs1.val).toNat
    let b := (regAt s.w (rs1.val + 1)).toNat
    let c := (regAt s.w rs2.val).toNat
    let d := (regAt s.w (rs2.val + 1)).toNat
    (∃ x y : U256, x.toNat = (a * a + s.const.beta.toNat * (b * b)) % p ∧ y.toNat = (a * b + a * b) % p ∧
      fp2Of s.const x y = fp2At s rs1.val * fp2At s rs1.val ∧
      RegResult (.f2sqr rd rs1) s rd [x, y]) ∧
    (rs2.val + 2 ≤ 64 → GroupBelowP s rs2 2 →
      ∃ x y : U256, x.toNat = (a * c + s.const.beta.toNat * (b * d)) % p ∧ y.toNat = (a * d + b * c) % p ∧
        fp2Of s.const x y = fp2At s rs1.val * fp2At s rs2.val ∧
        RegResult (.f2mul rd rs1 rs2) s rd [x, y])

/-- 43_g1.md R110, R111 and 44_g2.md R121, R122: PZERO and QZERO load the canonical infinity, PGEN and
QGEN the generator with Z = 1. -/
def Obligations.PointConstantsAreLoaded : Prop :=
  ∀ (s : State) (rd : Reg), Idle s →
    (rd.val + 3 ≤ 64 →
      RegResult (.pzero rd) s rd [1#256, 1#256, 0#256] ∧
      RegResult (.pgen rd) s rd [s.const.gen1.1, s.const.gen1.2, 1#256]) ∧
    (rd.val + 6 ≤ 64 →
      RegResult (.qzero rd) s rd [1#256, 0#256, 1#256, 0#256, 0#256, 0#256] ∧
      RegResult (.qgen rd) s rd [s.const.gen2.1.1, s.const.gen2.1.2, s.const.gen2.2.1, s.const.gen2.2.2,
        1#256, 0#256])

/-- 30_encoding.md R67: the pseudo-instructions expand to the commands of its table and copy their source:
FMOV and F2MOV a canonical value, F2MOV where the groups do not overlap the wrong way, PMOV and QMOV a
point exactly, `z` naming a point with Z = 0. -/
def Obligations.MovesCopyTheirSource : Prop :=
  ∀ (s : State) (rd rs z : Reg), Idle s →
    (s.w[rs].toNat < s.const.P →
      (Pseudo.fmov rd rs).expand = some [.fcan rd rs] ∧ RegResult (.fcan rd rs) s rd [s.w[rs]]) ∧
    (rd.val + 2 ≤ 64 → rs.val + 2 ≤ 64 → GroupBelowP s rs 2 → rd.val ≤ rs.val ∨ rs.val + 2 ≤ rd.val →
      ∃ (rd' rs' : Reg) (t u : State), rd'.val = rd.val + 1 ∧ rs'.val = rs.val + 1 ∧
        (Pseudo.f2mov rd rs).expand = some [.fcan rd rs, .fcan rd' rs'] ∧
        Completes (.fcan rd rs) s t ∧ Completes (.fcan rd' rs') t u ∧ CommitFrame s u ∧ u.status = statusAfter s.status ∧
        WritesGroup s u rd [regAt s.w rs.val, regAt s.w (rs.val + 1)]) ∧
    (rd.val + 3 ≤ 64 → rs.val + 3 ≤ 64 → z.val + 3 ≤ 64 → GroupBelowP s rs 3 → GroupBelowP s z 3 →
      regAt s.w (z.val + 2) = 0#256 →
      (Pseudo.pmov rd rs z).expand = some [.psub rd rs z] ∧
      RegResult (.psub rd rs z) s rd
        [regAt s.w rs.val, regAt s.w (rs.val + 1), regAt s.w (rs.val + 2)]) ∧
    (rd.val + 6 ≤ 64 → rs.val + 6 ≤ 64 → z.val + 6 ≤ 64 → GroupBelowP s rs 6 → GroupBelowP s z 6 →
      regAt s.w (z.val + 4) = 0#256 → regAt s.w (z.val + 5) = 0#256 →
      (Pseudo.qmov rd rs z).expand = some [.qsub rd rs z] ∧
      RegResult (.qsub rd rs z) s rd
        [regAt s.w rs.val, regAt s.w (rs.val + 1), regAt s.w (rs.val + 2), regAt s.w (rs.val + 3),
         regAt s.w (rs.val + 4), regAt s.w (rs.val + 5)])

/-- 43_g1.md R112, 44_g2.md R123: PISZ and QISZ write Z with the test Z = 0 of the point, over Fp2
both components, whatever X and Y are. -/
def Obligations.InfinityTests : Prop :=
  ∀ (s : State) (rs1 : Reg), Idle s →
    (rs1.val + 3 ≤ 64 → GroupBelowP s rs1 3 →
      FlagResult (.pisz rs1) s
        { statusAfter s.status with z := decide (regAt s.w (rs1.val + 2) = 0#256) }) ∧
    (rs1.val + 6 ≤ 64 → GroupBelowP s rs1 6 →
      FlagResult (.qisz rs1) s
        { statusAfter s.status with
          z := decide (regAt s.w (rs1.val + 4) = 0#256 ∧ regAt s.w (rs1.val + 5) = 0#256) })

/-- 43_g1.md R113, 44_g2.md R124: PVAL and QVAL write V: not infinity, and the Jacobian curve equation
holds in the field, with a = −3 for G1 and a = A2 for G2. -/
def Obligations.ValidityTests : Prop :=
  ∀ (s : State) (rs1 : Reg), Idle s → 3 ≤ s.const.P →
    (rs1.val + 3 ≤ 64 → GroupBelowP s rs1 3 →
      ∃ v : Bool, FlagResult (.pval rs1) s { statusAfter s.status with v := v } ∧
        (v = true ↔ (g1At s rs1).2.2 ≠ 0 ∧
          OnCurve (-3) (s.const.b1.toNat : FpRing s.const) (g1At s rs1))) ∧
    (rs1.val + 6 ≤ 64 → GroupBelowP s rs1 6 →
      ∃ v : Bool, FlagResult (.qval rs1) s { statusAfter s.status with v := v } ∧
        (v = true ↔ (g2At s rs1).2.2 ≠ 0 ∧
          OnCurve (a2Ring s.const) (b2Ring s.const) (g2At s rs1)))

/-- 43_g1.md R114, 44_g2.md R125: PNEG and QNEG negate Y, both components over Fp2, and copy X and Z
exactly, infinity too. -/
def Obligations.PointNegationResults : Prop :=
  ∀ (s : State) (rd rs1 : Reg), Idle s →
    (rd.val + 3 ≤ 64 → rs1.val + 3 ≤ 64 → GroupBelowP s rs1 3 →
      RegResult (.pneg rd rs1) s rd
        [regAt s.w rs1.val, BitVec.ofNat 256 ((s.const.P - (regAt s.w (rs1.val + 1)).toNat) % s.const.P),
         regAt s.w (rs1.val + 2)]) ∧
    (rd.val + 6 ≤ 64 → rs1.val + 6 ≤ 64 → GroupBelowP s rs1 6 →
      RegResult (.qneg rd rs1) s rd
        [regAt s.w rs1.val, regAt s.w (rs1.val + 1),
         BitVec.ofNat 256 ((s.const.P - (regAt s.w (rs1.val + 2)).toNat) % s.const.P),
         BitVec.ofNat 256 ((s.const.P - (regAt s.w (rs1.val + 3)).toNat) % s.const.P),
         regAt s.w (rs1.val + 4), regAt s.w (rs1.val + 5)])

/-- 43_g1.md R105, R115: PDBL writes the double of the point with a = −3, as field elements: the exact
triple of the formula, or the triple itself when Z = 0. -/
def Obligations.G1DoubleResult : Prop :=
  ∀ (s : State) (rd rs1 : Reg), Idle s → 3 ≤ s.const.P → rd.val + 3 ≤ 64 → rs1.val + 3 ≤ 64 →
    GroupBelowP s rs1 3 → G1Result (.pdbl rd rs1) s rd (IsDouble (-3) (g1At s rs1))

/-- 43_g1.md R105, 44_g2.md R126: QDBL writes the double of the point with a = A2, over Fp2. -/
def Obligations.G2DoubleResult : Prop :=
  ∀ (s : State) (rd rs1 : Reg), Idle s → rd.val + 6 ≤ 64 → rs1.val + 6 ≤ 64 →
    GroupBelowP s rs1 6 → G2Result (.qdbl rd rs1) s rd (IsDouble (a2Ring s.const) (g2At s rs1))

/-- 43_g1.md R116, 44_g2.md R127: PDBL5 and QDBL5 leave exactly the state that five doublings in
sequence leave. -/
def Obligations.FiveDoublingsInSequence : Prop :=
  ∀ (s : State) (rd rs1 : Reg), Idle s →
    (rd.val + 3 ≤ 64 → rs1.val + 3 ≤ 64 → GroupBelowP s rs1 3 →
      ∃ t1 t2 t3 t4 t5, Completes (.pdbl rd rs1) s t1 ∧ Completes (.pdbl rd rd) t1 t2 ∧
        Completes (.pdbl rd rd) t2 t3 ∧ Completes (.pdbl rd rd) t3 t4 ∧
        Completes (.pdbl rd rd) t4 t5 ∧ Completes (.pdbl5 rd rs1) s t5) ∧
    (rd.val + 6 ≤ 64 → rs1.val + 6 ≤ 64 → GroupBelowP s rs1 6 →
      ∃ t1 t2 t3 t4 t5, Completes (.qdbl rd rs1) s t1 ∧ Completes (.qdbl rd rd) t1 t2 ∧
        Completes (.qdbl rd rd) t2 t3 ∧ Completes (.qdbl rd rd) t3 t4 ∧
        Completes (.qdbl rd rd) t4 t5 ∧ Completes (.qdbl5 rd rs1) s t5)

/-- 43_g1.md R107, R108, R117, R118: PADD writes the sum of the two points by the branches of the
addition function, as field elements with a = −3; PSUB the sum with the second point negated. -/
def Obligations.G1SumResults : Prop :=
  ∀ (s : State) (rd rs1 rs2 : Reg), Idle s → 3 ≤ s.const.P →
    rd.val + 3 ≤ 64 → rs1.val + 3 ≤ 64 → rs2.val + 3 ≤ 64 → GroupBelowP s rs1 3 → GroupBelowP s rs2 3 →
    G1Result (.padd rd rs1 rs2) s rd (IsSum (-3) (g1At s rs1) (g1At s rs2)) ∧
    G1Result (.psub rd rs1 rs2) s rd (IsSum (-3) (g1At s rs1) (negTriple (g1At s rs2)))

/-- 43_g1.md R107, R108, 44_g2.md R128, R129: QADD and QSUB, over Fp2 with a = A2. -/
def Obligations.G2SumResults : Prop :=
  ∀ (s : State) (rd rs1 rs2 : Reg), Idle s →
    rd.val + 6 ≤ 64 → rs1.val + 6 ≤ 64 → rs2.val + 6 ≤ 64 → GroupBelowP s rs1 6 → GroupBelowP s rs2 6 →
    G2Result (.qadd rd rs1 rs2) s rd (IsSum (a2Ring s.const) (g2At s rs1) (g2At s rs2)) ∧
    G2Result (.qsub rd rs1 rs2) s rd (IsSum (a2Ring s.const) (g2At s rs1) (negTriple (g2At s rs2)))

/-- 43_g1.md R109 (a), for G1 and G2: adding a point with Z ≠ 0 to itself leaves exactly the state that
doubling it leaves. -/
def Obligations.AddingAPointToItselfDoublesIt : Prop :=
  ∀ (s : State) (rd rs1 : Reg), Idle s →
    (rd.val + 3 ≤ 64 → rs1.val + 3 ≤ 64 → GroupBelowP s rs1 3 → regAt s.w (rs1.val + 2) ≠ 0#256 →
      ∃ t, Completes (.padd rd rs1 rs1) s t ∧ Completes (.pdbl rd rs1) s t) ∧
    (rd.val + 6 ≤ 64 → rs1.val + 6 ≤ 64 → GroupBelowP s rs1 6 →
      ¬ (regAt s.w (rs1.val + 4) = 0#256 ∧ regAt s.w (rs1.val + 5) = 0#256) →
      ∃ t, Completes (.qadd rd rs1 rs1) s t ∧ Completes (.qdbl rd rs1) s t)

/-- 43_g1.md R109 (b), R118, 44_g2.md R129, for an odd prime P: subtracting a G1 point from itself leaves
infinity, the canonical (1, 1, 0) when Y ≠ 0 and Z ≠ 0; and for BETA a non-residue the same of a G2 point,
the canonical infinity being 1, 0, 1, 0, 0, 0. -/
def Obligations.APointMinusItselfIsInfinity : Prop :=
  ∀ (s : State) (rd rs1 : Reg), Idle s → Nat.Prime s.const.P → s.const.P ≠ 2 →
    (rd.val + 3 ≤ 64 → rs1.val + 3 ≤ 64 → GroupBelowP s rs1 3 →
      (∃ x y : U256, RegResult (.psub rd rs1 rs1) s rd [x, y, 0#256]) ∧
      (regAt s.w (rs1.val + 1) ≠ 0#256 → regAt s.w (rs1.val + 2) ≠ 0#256 →
        RegResult (.psub rd rs1 rs1) s rd [1#256, 1#256, 0#256])) ∧
    (s.const.beta.toNat < s.const.P → (∀ x < s.const.P, x * x % s.const.P ≠ s.const.beta.toNat) →
      rd.val + 6 ≤ 64 → rs1.val + 6 ≤ 64 → GroupBelowP s rs1 6 →
      (∃ x0 x1 y0 y1 : U256, RegResult (.qsub rd rs1 rs1) s rd [x0, x1, y0, y1, 0#256, 0#256]) ∧
      (¬ (regAt s.w (rs1.val + 2) = 0#256 ∧ regAt s.w (rs1.val + 3) = 0#256) →
        ¬ (regAt s.w (rs1.val + 4) = 0#256 ∧ regAt s.w (rs1.val + 5) = 0#256) →
        RegResult (.qsub rd rs1 rs1) s rd [1#256, 0#256, 1#256, 0#256, 0#256, 0#256]))

/-- PNEG, PDBL, PDBL5, PADD and PSUB on points that satisfy the G1 curve equation, infinity
included, leave a point that satisfies it; and the same for G2 (43_g1.md R104, R105, R107; 44_g2.md
R119). -/
def Obligations.PointCommandsStayOnTheCurve : Prop :=
  ∀ (s t : State) (rd rs1 rs2 : Reg), Idle s →
    (3 ≤ s.const.P →
      OnCurve (-3) (s.const.b1.toNat : FpRing s.const) (g1At s rs1) →
      OnCurve (-3) (s.const.b1.toNat : FpRing s.const) (g1At s rs2) →
      (Completes (.pneg rd rs1) s t ∨ Completes (.pdbl rd rs1) s t ∨ Completes (.pdbl5 rd rs1) s t ∨
        Completes (.padd rd rs1 rs2) s t ∨ Completes (.psub rd rs1 rs2) s t) →
      OnCurve (-3) (t.const.b1.toNat : FpRing t.const) (g1At t rd)) ∧
    (OnCurve (a2Ring s.const) (b2Ring s.const) (g2At s rs1) →
      OnCurve (a2Ring s.const) (b2Ring s.const) (g2At s rs2) →
      (Completes (.qneg rd rs1) s t ∨ Completes (.qdbl rd rs1) s t ∨ Completes (.qdbl5 rd rs1) s t ∨
        Completes (.qadd rd rs1 rs2) s t ∨ Completes (.qsub rd rs1 rs2) s t) →
      OnCurve (a2Ring t.const) (b2Ring t.const) (g2At t rd))

/-- 40_integer.md R70: the limb-by-limb carry and borrow chains compute the sum and the difference
modulo 2^(64n) and the carry or borrow out, for n limbs (4 and 8 among them). -/
def Obligations.LimbChainsComputeSumAndDifference : Prop :=
  ∀ n a b : Nat, a < 2 ^ (64 * n) → b < 2 ^ (64 * n) →
    (let r := addLimbs (digitsOf 64 n a) (digitsOf 64 n b) 0
     ofDigits 64 r.1 = (a + b) % 2 ^ (64 * n) ∧ r.2 = (a + b) / 2 ^ (64 * n)) ∧
    (let r := subLimbs (digitsOf 64 n a) (digitsOf 64 n b) 0
     ofDigits 64 r.1 = (2 ^ (64 * n) + a - b) % 2 ^ (64 * n) ∧ r.2 = if a < b then 1 else 0)

/-- 40_integer.md R74, R75: the half-limb multiplier computes the exact product. -/
def Obligations.HalfLimbMultiplierIsExact : Prop :=
  ∀ a b : Nat, a < 2 ^ 256 → b < 2 ^ 256 → ofDigits 32 (mulHalfLimbs a b) = a * b

/-- 42_fp2.md R96: the Karatsuba evaluation gives the value of the Fp2 product. -/
def Obligations.KaratsubaGivesTheProduct : Prop :=
  ∀ (p beta : Nat) (x y : Fp2), x.re < p → x.im < p → y.re < p → y.im < p →
    fp2MulKaratsuba p beta x y = fp2Mul p beta x y

/-- 43_g1.md R106: for odd P the a = −3 sequence with triple and half gives exactly the triple of the
doubling formula, for every input. -/
def Obligations.Minus3SequenceGivesTheDouble : Prop :=
  ∀ (c : Config) (q : Point Nat), 3 ≤ c.P → c.P % 2 = 1 → q.x < c.P → q.y < c.P → q.z < c.P →
    dblMinus3 c.P q = dblFormula (fpOps c) (a1 c) q

/-- 41_fp.md R81: FMUL leaves in W[rd] what MUL followed by FRED of its product leaves there. -/
def Obligations.MulThenReduceIsFieldMul : Prop :=
  ∀ (s : State) (rd r rs1 rs2 : Reg), Idle s → r.val + 2 ≤ 64 →
    s.w[rs1].toNat < s.const.P → s.w[rs2].toNat < s.const.P →
    ∃ t1 t2 t3, Completes (.mul r rs1 rs2) s t1 ∧ Completes (.fred rd r) t1 t2 ∧
      Completes (.fmul rd rs1 rs2) s t3 ∧ t2.w[rd] = t3.w[rd]

/-- 20_memory.md R40, R43, R44: a transfer that is misaligned, not 32 bits wide or to a reserved offset
completes with `err` = 1, `rdata` = 0 for a read, and no effect; every other transfer completes without
`err`. -/
def Obligations.RefusedTransfersHaveNoEffect : Prop :=
  ∀ (t : Transfer) (s : State),
    let a := t.addr.toNat
    let bad := a % 4 ≠ 0 ∨ t.be ≠ 0b1111#4 ∨ (0x0014 ≤ a ∧ a ≤ 0x0FFF) ∨ (0x1800 ≤ a ∧ a ≤ 0x1FFF) ∨
      (0x2800 ≤ a ∧ a ≤ 0x3FFF)
    (bad → transfer exec t s =
      .next { s with port := { ready := true, err := true, rdata := if t.we then none else some 0#32 } }) ∧
    (¬ bad → ∀ u, transfer exec t s = .next u → u.port.ready = true ∧ u.port.err = false)

/-- 10_state.md R25, R32, R33, R34: what reads of ID, VERSION, CTRL, STATUS and CMD return; nothing
else changes. -/
def Obligations.ControlRegisterReads : Prop :=
  ∀ s : State,
    let reads := fun (a : BitVec 14) (v : Word) =>
      transfer exec (busRead a) s = .next { s with port := { ready := true, rdata := some v } }
    reads 0x0000#14 0x474D5253#32 ∧ reads 0x0004#14 0x00000001#32 ∧ reads 0x0010#14 0#32 ∧
    reads 0x0008#14 (if s.irqEn then 2#32 else 0#32) ∧
    ∃ v : Word, reads 0x000C#14 v ∧
      v.getLsbD 0 = s.status.busy ∧ v.getLsbD 1 = s.status.done ∧ v.getLsbD 2 = s.status.err ∧
      v.getLsbD 3 = s.status.ovr ∧ v.getLsbD 4 = s.status.c ∧ v.getLsbD 5 = s.status.z ∧
      v.getLsbD 6 = s.status.lt ∧ v.getLsbD 7 = s.status.eq ∧ v.getLsbD 8 = s.status.gt ∧
      v.getLsbD 9 = s.status.v ∧ v.extractLsb' 10 2 = 0#2 ∧ v.extractLsb' 12 4 = s.status.errcode ∧
      v.extractLsb' 16 16 = 0#16

/-- 10_state.md R31, R32, 20_memory.md R44: a STATUS write clears DONE, ERR with ERRCODE, and OVR where
bits 1, 2, 3 are 1 and nothing else; a CTRL write without SRST sets IRQ_EN to bit 1; writes to ID and
VERSION are ignored. None is held while BUSY (20_memory.md R50). -/
def Obligations.ControlRegisterWrites : Prop :=
  ∀ (s : State) (v : Word),
    let wrote := ({ ready := true } : PortOut)
    transfer exec (busWrite 0x000C#14 v) s = .next { s with
      status := { s.status with
        done := if v.getLsbD 1 then false else s.status.done
        err := if v.getLsbD 2 then false else s.status.err
        errcode := if v.getLsbD 2 then 0#4 else s.status.errcode
        ovr := if v.getLsbD 3 then false else s.status.ovr }
      port := wrote } ∧
    (v.getLsbD 0 = false →
      transfer exec (busWrite 0x0008#14 v) s = .next { s with irqEn := v.getLsbD 1, port := wrote }) ∧
    transfer exec (busWrite 0x0000#14 v) s = .next { s with port := wrote } ∧
    transfer exec (busWrite 0x0004#14 v) s = .next { s with port := wrote } ∧
    (s.rstN = true → ∀ a ∈ [0x0000#14, 0x0004#14, 0x0008#14, 0x000C#14, 0x0010#14],
      held s (busWrite a v) = false ∧ held s (busRead a) = false)

/-- 20_memory.md R46, R47: a WLE read of word k returns bits 32k+31 : 32k of the register; lane n of a
WBE read of word k carries byte 31 − 4k − n counted from the least significant end. -/
def Obligations.WindowReads : Prop :=
  ∀ (s : State) (r : Reg), ∀ k < 8,
    transfer exec (busRead (wleOffset r k)) s =
      .next { s with port := { ready := true, rdata := some (s.w[r].extractLsb' (32 * k) 32) } } ∧
    ∃ v : Word, transfer exec (busRead (wbeOffset r k)) s =
        .next { s with port := { ready := true, rdata := some v } } ∧
      ∀ n < 4, v.extractLsb' (8 * n) 8 = s.w[r].extractLsb' (8 * (31 - 4 * k - n)) 8

/-- 20_memory.md R46, R47, R48: a window write changes exactly the 4 bytes it addresses, marks exactly
their word as written, and changes nothing else. -/
def Obligations.WindowWritesChangeFourBytes : Prop :=
  ∀ (s : State) (r : Reg) (k : Fin 8) (v : Word),
    (∃ t, transfer exec (busWrite (wleOffset r k.val) v) s = .next t ∧
      { t with w := s.w, written := s.written } = { s with port := { ready := true } } ∧
      (∀ (n : Reg), ∀ j < 32, t.w[n].extractLsb' (8 * j) 8 =
        if n = r ∧ 4 * k.val ≤ j ∧ j < 4 * k.val + 4 then v.extractLsb' (8 * (j - 4 * k.val)) 8
        else s.w[n].extractLsb' (8 * j) 8) ∧
      ∀ (n : Reg) (m : Fin 8), t.written[n][m] = (decide (n = r ∧ m = k) || s.written[n][m])) ∧
    (∃ t, transfer exec (busWrite (wbeOffset r k.val) v) s = .next t ∧
      { t with w := s.w, written := s.written } = { s with port := { ready := true } } ∧
      (∀ (n : Reg), ∀ j < 32, t.w[n].extractLsb' (8 * j) 8 =
        if n = r ∧ 28 - 4 * k.val ≤ j ∧ j < 32 - 4 * k.val then
          v.extractLsb' (8 * (31 - 4 * k.val - j)) 8
        else s.w[n].extractLsb' (8 * j) 8) ∧
      ∀ (n : Reg) (m : Fin 8),
        t.written[n][m] = (decide (n = r ∧ m.val = 7 - k.val) || s.written[n][m]))

/-- 20_memory.md R49: on an engine that is not busy, 8 WBE writes of the big-endian bytes of v, or 8 WLE
writes of its words, leave v in the register, wholly written, and every other register as it was. -/
def Obligations.WindowRoundTrip : Prop :=
  ∀ (s : State) (r : Reg) (v : U256), s.status.busy = false → s.rstN = true →
    ∀ ts ∈ [hostSet r v,
        (List.range 8).map fun k => busWrite (wleOffset r k) (v.extractLsb' (32 * k) 32)],
      ∃ t, Host.Core.run core 8 (withTransfers s ts) = .next t ∧
        t.w[r] = v ∧ t.written[r] = Vector.replicate 8 true ∧
        ∀ n : Reg, n ≠ r → t.w[n] = s.w[n] ∧ t.written[n] = s.written[n]

/-- 20_memory.md R50, R40: while BUSY a host turn on a window transfer is a wait state: `ready` = 0, the
transfer stays the host's next one, and nothing else changes; and in a pass turn, whatever passes it, it
stays the host's next one (45_control.md R130; log 14). -/
def Obligations.WindowTransfersStallWhileBusy : Prop :=
  ∀ (s : State) (r : Reg) (u : Transfer) (rest : List Transfer), ∀ k < 8,
    s.status.busy = true → s.host = u :: rest → u.be = 0b1111#4 →
    (u.addr = wleOffset r k ∨ u.addr = wbeOffset r k) →
    (turnOf s = .host → step s = .next { s with sched := s.sched.tail, port := {} }) ∧
    (turnOf s = .pass → ∀ t, step s = .next t → t.host.head? = some u)

/-- 20_memory.md R52: no read has a side effect: a read changes nothing but what the port drives. -/
def Obligations.ReadsHaveNoSideEffect : Prop :=
  ∀ (t : Transfer) (s : State), t.we = false →
    ∃ p : PortOut, p.ready = true ∧ p.rdata.isSome = true ∧ transfer exec t s = .next { s with port := p }

/-- 70_reset_and_hazards.md R154, 10_state.md R32: a CTRL write with bit 0 = 1 drops the in-flight
command without commit, clears STATUS and IRQ_EN whatever bit 1 is, and keeps the operand registers and
their marks; no transfer is held after it. Made in a pass turn while a window transfer is stalled, it ends
the stall: the stalled transfer stays the host's next one and is carried out in the host's next turn against
the registers as they stand (20_memory.md R50, 45_control.md R130; that a transfer may pass a held one,
against R40 and R53, is the model's choice, log 14). -/
def Obligations.SoftResetKeepsRegisters : Prop :=
  ∀ (s : State) (v : Word), v.getLsbD 0 = true →
    (∃ t, transfer exec (busWrite 0x0008#14 v) s = .next t ∧
      t = { s with status := {}, irqEn := false, inflight := none, port := { ready := true } } ∧
      irq t = false ∧ (s.rstN = true → ∀ u : Transfer, held t u = false)) ∧
    ∀ (u : Transfer) (rest : List Transfer), s.rstN = true → turnOf s = .pass →
      s.host = u :: busWrite 0x0008#14 v :: rest → held s u = true →
      ∃ t, step s = .next t ∧
        t = { s with
          status := {}
          irqEn := false
          inflight := none
          port := { ready := true }
          host := u :: rest
          sched := s.sched.tail } ∧
        (turnOf t = .host → step t = transfer exec u { t with host := rest, sched := t.sched.tail })

/-- 70_reset_and_hazards.md R153: after power-on reset, at `State.reset` and when `rst_n` goes low in
any state, STATUS and IRQ_EN are 0, CTRL reads 0, no command is in flight, `irq` is 0, every word is
marked not written, ID and VERSION read their constants, and the constant store is not affected; the
state stays so when `rst_n` goes high; while `rst_n` = 0 no transfer is accepted, and that it then waits and
stays the host's next one is the model's choice (log 10). -/
def Obligations.PowerOnResetState : Prop :=
  let isReset := fun t : State => t.status = {} ∧ t.irqEn = false ∧ t.inflight = none ∧ irq t = false ∧
    readTarget t .ctrl = 0#32 ∧ readTarget t .id = 0x474D5253#32 ∧ readTarget t .version = 1#32 ∧
    ∀ (r : Reg) (k : Fin 8), t.written[r][k] = false
  isReset State.reset ∧
  (∀ s : State, turnOf s = .rst false →
    ∃ t, step s = .next t ∧ isReset t ∧ t.const = s.const ∧ t.rstN = false) ∧
  (∀ s : State, turnOf s = .rst true →
    step s = .next { s with sched := s.sched.tail, port := {}, rstN := true }) ∧
  (∀ s : State, HostTurn s → s.rstN = false →
    step s = .next { s with sched := s.sched.tail, port := {} })

/-- 60_exceptions.md R143, for every step from a state of the invariant: DONE rises only by a commit or
by a rejection, and falls only by a STATUS write with bit 1 set, by a valid issue, or by a reset. -/
def Obligations.DoneRisesAndFallsAsStated : Prop :=
  ∀ s t : State, Inv s → step s = .next t →
    (s.status.done = false → t.status.done = true →
      (s.inflight.isSome = true ∧ t.inflight = none ∧ t.status.busy = false ∧ turnOf s = .engine) ∨
      (t.status.err = true ∧ t.inflight = none ∧ t.w = s.w ∧ HostTurn s)) ∧
    (s.status.done = true → t.status.done = false →
      (∃ u rest, nextTransfer s = some (u, rest) ∧ u.we = true ∧ u.addr = 0x000C#14 ∧
        u.wdata.getLsbD 1 = true) ∨
      (s.inflight = none ∧ t.inflight.isSome = true ∧ t.status.busy = true) ∨
      (t.status = {} ∧ t.inflight = none ∧ t.irqEn = false))

/-- A step runs the host's next transfer, and so the decoded command. When the host's turn comes with a
transfer that is not held, step is that transfer on the state with the turn and the transfer taken off
(20_memory.md R51, R53); when a pass turn comes, it is the first transfer that is not held, those it passes
staying in their order (45_control.md R130; which turn comes is the list's, log 14). With a CMD write
of a word that decodes, on an engine out of reset and not busy, it is exec of the command, the port showing
a completed write (45_control.md R131; the two phases of exec are the model's choice, log 13); so it is on
the state that `withFetchWord` makes, which is the model's own (log 6). An engine turn on the last cycle of
an in-flight command is exec of that command with its latency run out: R134, in the cycle that the model
deduces (log 8, log 13). -/
def Obligations.StepRunsDecodedCommand : Prop :=
  (∀ (s : State) (u : Transfer) (rest : List Transfer), turnOf s = .host → s.host = u :: rest →
    held s u = false → step s = transfer exec u { s with sched := s.sched.tail, host := rest }) ∧
  (∀ (s : State) (u : Transfer) (pre post : List Transfer), turnOf s = .pass →
    s.host = pre ++ u :: post → (∀ v ∈ pre, held s v = true) → held s u = false →
    step s = transfer exec u { s with sched := s.sched.tail, host := pre ++ post }) ∧
  (∀ (s : State) (w : Word) (i : Instr) (rest : List Transfer), turnOf s = .host →
    s.host = cmdWrite w :: rest → s.rstN = true → s.status.busy = false → decode w = .ok i →
    step s = exec i { s with sched := s.sched.tail, host := rest, port := { ready := true } }) ∧
  (∀ (s : State) (w : Nat) (i : Instr), decodeTableWord 32 w = some i →
    step (s.withFetchWord 32 w) = exec i { s with
      status := { s.status with busy := false }
      inflight := none
      rstN := true
      port := { ready := true } }) ∧
  (∀ (s : State) (f : InFlight), turnOf s = .engine → s.inflight = some f → f.remaining = 1 →
    step s = exec f.cmd { s with
      sched := s.sched.tail
      port := {}
      inflight := some { f with remaining := 0 } })

/-- 45_control.md R133, R134, 70_reset_and_hazards.md R163: from every state of the invariant, a command
in flight stays in flight until its count of cycles has run out and then commits: BUSY 0, DONE 1. Where
within `LAT(op)` the commit comes is left open (45_control.md R130, 70_reset_and_hazards.md R162, U3); that
it comes in the very engine turn in which the count reaches 0 is the model's choice (log 8). -/
def Obligations.CommandCommitsAfterItsLatency : Prop :=
  ∀ (s : State) (f : InFlight), Inv s → s.inflight = some f →
    (∀ k < f.remaining, ∃ u, Host.Core.run core k (withCycles s f.remaining) = .next u ∧
      u.status = s.status ∧ u.w = s.w ∧ u.inflight = some { f with remaining := f.remaining - k }) ∧
    ∃ t, Host.Core.run core f.remaining (withCycles s f.remaining) = .next t ∧
      exec f.cmd (latencyRunOut { s with port := {} }) = .next t ∧
      t.status.busy = false ∧ t.status.done = true ∧ t.inflight = none

/-- 10_state.md R35: no step changes the constant store or any other design-time parameter. -/
def Obligations.ConstantStoreNeverChanges : Prop :=
  ∀ s t : State, step s = .next t → t.const = s.const

/-- The invariant holds at reset (70_reset_and_hazards.md R153). It rests on the latencies of log 1's
instance being at least 1. -/
def Obligations.ResetSatisfiesInvariant : Prop := Inv State.reset

/-- Headline: every step from any state of the invariant leads to a state of the invariant: BUSY means
a command in flight, which passed its checks and whose kept source values are those in the registers,
ERRCODE stays in 0 to 4 and agrees with ERR, at most one of LT, EQ, GT is set, and the engine stays in
its power-on state while `rst_n` = 0. -/
def Obligations.EveryStepKeepsInvariant : Prop := ∀ s t : State, Inv s → step s = .next t → Inv t

/-- Headline: two runs that differ only in register words nothing has written stay so, as long as each
step reads only written words: no such run depends on what an unwritten word holds, so none rests on the
model's reset value of the operand registers (10_state.md R19, 20_memory.md R48; log 2, log 3). -/
def Obligations.UnwrittenWordsDoNotMatter : Prop :=
  ∀ s s' t t' : State, Inv s → AgreeOnWritten s s' → stepReadsWritten s = true →
    step s = .next t → step s' = .next t' → AgreeOnWritten t t'
end

