-- ==== Sys2Proof/Laws/State.lean ====
section
/-! SUPPORT. One lemma for each field and each named update of State, so that no proof unfolds a record
update. -/

namespace Sys2Proof.Machine

section Reject
variable (e : Reject) (s : State)
@[simp] theorem reject_const : (reject e s).const = s.const := rfl
@[simp] theorem reject_w : (reject e s).w = s.w := rfl
@[simp] theorem reject_written : (reject e s).written = s.written := rfl
@[simp] theorem reject_irqEn : (reject e s).irqEn = s.irqEn := rfl
@[simp] theorem reject_status :
    (reject e s).status = { s.status with err := true, errcode := e.code, done := true } := rfl
@[simp] theorem reject_inflight : (reject e s).inflight = s.inflight := rfl
@[simp] theorem reject_rstN : (reject e s).rstN = s.rstN := rfl
@[simp] theorem reject_port : (reject e s).port = s.port := rfl
@[simp] theorem reject_host : (reject e s).host = s.host := rfl
@[simp] theorem reject_sched : (reject e s).sched = s.sched := rfl
@[simp] theorem reject_draws : (reject e s).draws = s.draws := rfl
end Reject

section Overrun
variable (s : State)
@[simp] theorem overrun_const : (overrun s).const = s.const := rfl
@[simp] theorem overrun_w : (overrun s).w = s.w := rfl
@[simp] theorem overrun_written : (overrun s).written = s.written := rfl
@[simp] theorem overrun_irqEn : (overrun s).irqEn = s.irqEn := rfl
@[simp] theorem overrun_status : (overrun s).status = { s.status with ovr := true } := rfl
@[simp] theorem overrun_inflight : (overrun s).inflight = s.inflight := rfl
@[simp] theorem overrun_rstN : (overrun s).rstN = s.rstN := rfl
@[simp] theorem overrun_port : (overrun s).port = s.port := rfl
@[simp] theorem overrun_host : (overrun s).host = s.host := rfl
@[simp] theorem overrun_sched : (overrun s).sched = s.sched := rfl
@[simp] theorem overrun_draws : (overrun s).draws = s.draws := rfl
end Overrun

section Issue
variable (i : Instr) (s : State)
@[simp] theorem issue_const : (issue i s).const = s.const := rfl
@[simp] theorem issue_w : (issue i s).w = s.w := rfl
@[simp] theorem issue_written : (issue i s).written = s.written := rfl
@[simp] theorem issue_irqEn : (issue i s).irqEn = s.irqEn := rfl
@[simp] theorem issue_status : (issue i s).status =
    { s.status with err := false, errcode := 0#4, done := false, busy := true } := rfl
@[simp] theorem issue_inflight : (issue i s).inflight =
    some ⟨i, readSlot s.w i.slots.rs1, readSlot s.w i.slots.rs2, latency s.const i⟩ := rfl
@[simp] theorem issue_rstN : (issue i s).rstN = s.rstN := rfl
@[simp] theorem issue_port : (issue i s).port = s.port := rfl
@[simp] theorem issue_host : (issue i s).host = s.host := rfl
@[simp] theorem issue_sched : (issue i s).sched = s.sched := rfl
@[simp] theorem issue_draws : (issue i s).draws = s.draws := rfl
end Issue

section Commit
variable (i : Instr) (r : Result) (s : State)
@[simp] theorem commit_const : (commit i r s).const = s.const := rfl
@[simp] theorem commit_w : (commit i r s).w = writeSlot s.w r.dest i.slots.rd := rfl
@[simp] theorem commit_written : (commit i r s).written = markSlot s.written i.slots.rd := rfl
@[simp] theorem commit_irqEn : (commit i r s).irqEn = s.irqEn := rfl
@[simp] theorem commit_status :
    (commit i r s).status = { r.flags.apply s.status with busy := false, done := true } := rfl
@[simp] theorem commit_inflight : (commit i r s).inflight = none := rfl
@[simp] theorem commit_rstN : (commit i r s).rstN = s.rstN := rfl
@[simp] theorem commit_port : (commit i r s).port = s.port := rfl
@[simp] theorem commit_host : (commit i r s).host = s.host := rfl
@[simp] theorem commit_sched : (commit i r s).sched = s.sched := rfl
@[simp] theorem commit_draws : (commit i r s).draws = s.draws := rfl
end Commit

section LatencyRunOut
variable (s : State)
@[simp] theorem latencyRunOut_const : (latencyRunOut s).const = s.const := rfl
@[simp] theorem latencyRunOut_w : (latencyRunOut s).w = s.w := rfl
@[simp] theorem latencyRunOut_written : (latencyRunOut s).written = s.written := rfl
@[simp] theorem latencyRunOut_irqEn : (latencyRunOut s).irqEn = s.irqEn := rfl
@[simp] theorem latencyRunOut_status : (latencyRunOut s).status = s.status := rfl
@[simp] theorem latencyRunOut_inflight : (latencyRunOut s).inflight =
    s.inflight.map fun f => { f with remaining := 0 } := rfl
@[simp] theorem latencyRunOut_rstN : (latencyRunOut s).rstN = s.rstN := rfl
@[simp] theorem latencyRunOut_port : (latencyRunOut s).port = s.port := rfl
@[simp] theorem latencyRunOut_host : (latencyRunOut s).host = s.host := rfl
@[simp] theorem latencyRunOut_sched : (latencyRunOut s).sched = s.sched := rfl
@[simp] theorem latencyRunOut_draws : (latencyRunOut s).draws = s.draws := rfl
end LatencyRunOut

section SoftReset
variable (s : State)
@[simp] theorem softReset_const : (softReset s).const = s.const := rfl
@[simp] theorem softReset_w : (softReset s).w = s.w := rfl
@[simp] theorem softReset_written : (softReset s).written = s.written := rfl
@[simp] theorem softReset_irqEn : (softReset s).irqEn = false := rfl
@[simp] theorem softReset_status : (softReset s).status = {} := rfl
@[simp] theorem softReset_inflight : (softReset s).inflight = none := rfl
@[simp] theorem softReset_rstN : (softReset s).rstN = s.rstN := rfl
@[simp] theorem softReset_port : (softReset s).port = s.port := rfl
@[simp] theorem softReset_host : (softReset s).host = s.host := rfl
@[simp] theorem softReset_sched : (softReset s).sched = s.sched := rfl
@[simp] theorem softReset_draws : (softReset s).draws = s.draws := rfl
end SoftReset

section PowerOnReset
variable (s : State)
@[simp] theorem powerOnReset_const : (powerOnReset s).const = s.const := by dsimp only [powerOnReset]
@[simp] theorem powerOnReset_written : (powerOnReset s).written = State.noneWritten := by dsimp only [powerOnReset]
@[simp] theorem powerOnReset_irqEn : (powerOnReset s).irqEn = false := by dsimp only [powerOnReset]
@[simp] theorem powerOnReset_status : (powerOnReset s).status = {} := by dsimp only [powerOnReset]
@[simp] theorem powerOnReset_inflight : (powerOnReset s).inflight = none := by dsimp only [powerOnReset]
@[simp] theorem powerOnReset_rstN : (powerOnReset s).rstN = s.rstN := by dsimp only [powerOnReset]
@[simp] theorem powerOnReset_port : (powerOnReset s).port = s.port := by dsimp only [powerOnReset]
@[simp] theorem powerOnReset_host : (powerOnReset s).host = s.host := by dsimp only [powerOnReset]
@[simp] theorem powerOnReset_sched : (powerOnReset s).sched = s.sched := by dsimp only [powerOnReset]
@[simp] theorem powerOnReset_draws : (powerOnReset s).draws = s.draws + 1 := by dsimp only [powerOnReset]
end PowerOnReset

section Quiet
variable (s : State)
@[simp] theorem quiet_const : (quiet s).const = s.const := rfl
@[simp] theorem quiet_w : (quiet s).w = s.w := rfl
@[simp] theorem quiet_written : (quiet s).written = s.written := rfl
@[simp] theorem quiet_irqEn : (quiet s).irqEn = s.irqEn := rfl
@[simp] theorem quiet_status : (quiet s).status = s.status := rfl
@[simp] theorem quiet_inflight : (quiet s).inflight = s.inflight := rfl
@[simp] theorem quiet_rstN : (quiet s).rstN = s.rstN := rfl
@[simp] theorem quiet_port : (quiet s).port = {} := rfl
@[simp] theorem quiet_host : (quiet s).host = s.host := rfl
@[simp] theorem quiet_sched : (quiet s).sched = s.sched := rfl
@[simp] theorem quiet_draws : (quiet s).draws = s.draws := rfl
end Quiet

section AfterTurn
variable (s : State)
@[simp] theorem afterTurn_const : (afterTurn s).const = s.const := rfl
@[simp] theorem afterTurn_w : (afterTurn s).w = s.w := rfl
@[simp] theorem afterTurn_written : (afterTurn s).written = s.written := rfl
@[simp] theorem afterTurn_irqEn : (afterTurn s).irqEn = s.irqEn := rfl
@[simp] theorem afterTurn_status : (afterTurn s).status = s.status := rfl
@[simp] theorem afterTurn_inflight : (afterTurn s).inflight = s.inflight := rfl
@[simp] theorem afterTurn_rstN : (afterTurn s).rstN = s.rstN := rfl
@[simp] theorem afterTurn_port : (afterTurn s).port = s.port := rfl
@[simp] theorem afterTurn_host : (afterTurn s).host = s.host := rfl
@[simp] theorem afterTurn_sched : (afterTurn s).sched = s.sched.tail := rfl
@[simp] theorem afterTurn_draws : (afterTurn s).draws = s.draws := rfl
end AfterTurn

section StoreWord
variable (s : State) (r : Reg) (v : U256) (m : Fin 8)
@[simp] theorem storeWord_const : (storeWord s r v m).const = s.const := rfl
@[simp] theorem storeWord_w : (storeWord s r v m).w = s.w.set r v := rfl
@[simp] theorem storeWord_written :
    (storeWord s r v m).written = s.written.set r (s.written[r].set m true) := rfl
@[simp] theorem storeWord_irqEn : (storeWord s r v m).irqEn = s.irqEn := rfl
@[simp] theorem storeWord_status : (storeWord s r v m).status = s.status := rfl
@[simp] theorem storeWord_inflight : (storeWord s r v m).inflight = s.inflight := rfl
@[simp] theorem storeWord_rstN : (storeWord s r v m).rstN = s.rstN := rfl
@[simp] theorem storeWord_port : (storeWord s r v m).port = s.port := rfl
@[simp] theorem storeWord_host : (storeWord s r v m).host = s.host := rfl
@[simp] theorem storeWord_sched : (storeWord s r v m).sched = s.sched := rfl
@[simp] theorem storeWord_draws : (storeWord s r v m).draws = s.draws := rfl
end StoreWord

section WriteStatus
variable (s : State) (v : Word)
@[simp] theorem writeStatus_const : (writeStatus s v).const = s.const := rfl
@[simp] theorem writeStatus_w : (writeStatus s v).w = s.w := rfl
@[simp] theorem writeStatus_written : (writeStatus s v).written = s.written := rfl
@[simp] theorem writeStatus_irqEn : (writeStatus s v).irqEn = s.irqEn := rfl
@[simp] theorem writeStatus_status : (writeStatus s v).status = s.status.acknowledge v := rfl
@[simp] theorem writeStatus_inflight : (writeStatus s v).inflight = s.inflight := rfl
@[simp] theorem writeStatus_rstN : (writeStatus s v).rstN = s.rstN := rfl
@[simp] theorem writeStatus_port : (writeStatus s v).port = s.port := rfl
@[simp] theorem writeStatus_host : (writeStatus s v).host = s.host := rfl
@[simp] theorem writeStatus_sched : (writeStatus s v).sched = s.sched := rfl
@[simp] theorem writeStatus_draws : (writeStatus s v).draws = s.draws := rfl
end WriteStatus

/-- A CTRL write with SRST = 1 is a soft reset. -/
theorem writeCtrl_srst (s : State) {v : Word} (h : v.getLsbD 0 = true) :
    writeCtrl s v = softReset s := if_pos h

/-- A CTRL write with SRST = 0 sets IRQ_EN. -/
theorem writeCtrl_irqEn (s : State) {v : Word} (h : v.getLsbD 0 = false) :
    writeCtrl s v = { s with irqEn := v.getLsbD 1 } := if_neg (by rw [h]; decide)

section Apply
variable (st : Status) (g : FlagWrite)
@[simp] theorem apply_busy : (g.apply st).busy = st.busy := by cases g <;> rfl
@[simp] theorem apply_done : (g.apply st).done = st.done := by cases g <;> rfl
@[simp] theorem apply_err : (g.apply st).err = st.err := by cases g <;> rfl
@[simp] theorem apply_ovr : (g.apply st).ovr = st.ovr := by cases g <;> rfl
@[simp] theorem apply_errcode : (g.apply st).errcode = st.errcode := by cases g <;> rfl
end Apply

end Sys2Proof.Machine
end

