-- ==== Sys2Proof/Laws/Bus.lean ====
section
/-! SUPPORT. The bus: bytes and words of a register, the offsets of the windows, and everything a
transfer can do. -/

namespace Sys2Proof.Machine

/-- A bit of a byte of a register. -/
theorem byteOf_getLsbD (v : U256) (j n : Nat) :
    (byteOf v j).getLsbD n = (decide (n < 8) && v.getLsbD (8 * j + n)) := by
  simp [byteOf, BitVec.getLsbD_extractLsb']

/-- A bit of a register after one byte is replaced. -/
theorem setByte_getLsbD (v : U256) (j : Nat) (b : Byte) (n : Nat) (hn : n < 256) :
    (setByte v j b).getLsbD n =
      if 8 * j ≤ n ∧ n < 8 * j + 8 then b.getLsbD (n - 8 * j) else v.getLsbD n := by
  have hff : ∀ k, (0xFF#256).getLsbD k = decide (k < 8) := by
    intro k
    have h : (0xFF#256) = BitVec.ofNat 256 (2 ^ 8 - 1) := by decide
    rw [h, BitVec.getLsbD_ofNat, Nat.testBit_two_pow_sub_one]
    by_cases hk : k < 8
    · simp [hk]; omega
    · simp [hk]
  have hset : ∀ k, (b.setWidth 256).getLsbD k = b.getLsbD k := by
    intro k
    rw [BitVec.getLsbD_setWidth]
    by_cases hk : k < 256
    · simp [hk]
    · simp [hk, BitVec.getLsbD_of_ge b k (by omega)]
  simp only [setByte, BitVec.getLsbD_or, BitVec.getLsbD_and, BitVec.getLsbD_not,
    BitVec.getLsbD_shiftLeft, hff, hset, hn, decide_true, Bool.true_and]
  by_cases h1 : n < 8 * j
  · have : ¬ (8 * j ≤ n ∧ n < 8 * j + 8) := by omega
    simp [h1, this]
  · by_cases h2 : n < 8 * j + 8
    · have h3 : n - 8 * j < 8 := by omega
      have h4 : 8 * j ≤ n ∧ n < 8 * j + 8 := by omega
      simp [h1, h3, h4]
    · have h3 : ¬ n - 8 * j < 8 := by omega
      have h4 : ¬ (8 * j ≤ n ∧ n < 8 * j + 8) := by omega
      simp [h1, h3, h4, BitVec.getLsbD_of_ge b (n - 8 * j) (by omega)]

/-- A byte of a register after one byte is replaced. -/
theorem byteOf_setByte (v : U256) (j i : Nat) (b : Byte) (hi : i < 32) :
    byteOf (setByte v j b) i = if i = j then b else byteOf v i := by
  apply BitVec.eq_of_getLsbD_eq
  intro n hn
  rw [byteOf_getLsbD, setByte_getLsbD v j b _ (by omega)]
  by_cases h : i = j
  · subst h
    have : 8 * i ≤ 8 * i + n ∧ 8 * i + n < 8 * i + 8 := by omega
    simp [this, hn]
  · have : ¬ (8 * j ≤ 8 * i + n ∧ 8 * i + n < 8 * j + 8) := by omega
    rw [if_neg this, if_neg h, byteOf_getLsbD]

/-- A register is its 32 bytes. -/
theorem eq_of_bytes {u v : U256} (h : ∀ j < 32, byteOf u j = byteOf v j) : u = v := by
  apply BitVec.eq_of_getLsbD_eq
  intro n hn
  have := congrArg (fun b => b.getLsbD (n % 8)) (h (n / 8) (by omega))
  simp only [byteOf_getLsbD] at this
  have h8 : n % 8 < 8 := Nat.mod_lt _ (by decide)
  have hd : 8 * (n / 8) + n % 8 = n := Nat.div_add_mod n 8
  simpa [h8, hd] using this

/-- A byte lane of a word made of lanes. -/
theorem ofLanes_extract (b0 b1 b2 b3 : Byte) :
    lane (ofLanes b0 b1 b2 b3) 0 = b0 ∧ lane (ofLanes b0 b1 b2 b3) 1 = b1 ∧
    lane (ofLanes b0 b1 b2 b3) 2 = b2 ∧ lane (ofLanes b0 b1 b2 b3) 3 = b3 := by
  have h : ∀ n, (ofLanes b0 b1 b2 b3).getLsbD n = (b3 ++ (b2 ++ (b1 ++ b0))).getLsbD n := fun _ => rfl
  refine ⟨?_, ?_, ?_, ?_⟩ <;> ext k hk <;>
    simp only [lane, BitVec.getElem_extractLsb', h, BitVec.getLsbD_append] <;>
    interval_cases k <;> simp [BitVec.getLsbD_eq_getElem]

/-- Two words with the same lanes are equal. -/
theorem eq_of_lanes {u v : Word} (h : ∀ n < 4, lane u n = lane v n) : u = v := by
  apply BitVec.eq_of_getLsbD_eq
  intro n hn
  have := congrArg (fun b => b.getLsbD (n % 8)) (h (n / 8) (by omega))
  simp only [lane, BitVec.getLsbD_extractLsb'] at this
  have h8 : n % 8 < 8 := Nat.mod_lt _ (by decide)
  have hd : 8 * (n / 8) + n % 8 = n := Nat.div_add_mod n 8
  simpa [h8, hd] using this

/-- A read through the limb-order window is 32 consecutive bits (20_memory.md R46). -/
theorem readWle_eq_extract (v : U256) (k : Nat) : readWle v k = v.extractLsb' (32 * k) 32 := by
  apply eq_of_lanes
  have he : ∀ n < 4, lane (v.extractLsb' (32 * k) 32) n = byteOf v (4 * k + n) := by
    intro n hn
    apply BitVec.eq_of_getLsbD_eq
    intro b hb
    have h1 : 8 * n + b < 32 := by omega
    have h2 : 32 * k + (8 * n + b) = 8 * (4 * k + n) + b := by omega
    simp [lane, byteOf, hb, h1, h2]
  obtain ⟨h0, h1, h2, h3⟩ := ofLanes_extract (byteOf v (4 * k)) (byteOf v (4 * k + 1))
    (byteOf v (4 * k + 2)) (byteOf v (4 * k + 3))
  intro n hn
  rw [he n hn]
  obtain rfl | rfl | rfl | rfl : n = 0 ∨ n = 1 ∨ n = 2 ∨ n = 3 := by omega
  · exact h0
  · exact h1
  · exact h2
  · exact h3

/-- The lanes of a read through the big-endian window (20_memory.md R47). -/
theorem readWbe_lane (v : U256) (k n : Nat) (hn : n < 4) :
    lane (readWbe v k) n = byteOf v (31 - 4 * k - n) := by
  obtain ⟨h0, h1, h2, h3⟩ := ofLanes_extract (byteOf v (31 - 4 * k)) (byteOf v (30 - 4 * k))
    (byteOf v (29 - 4 * k)) (byteOf v (28 - 4 * k))
  obtain rfl | rfl | rfl | rfl : n = 0 ∨ n = 1 ∨ n = 2 ∨ n = 3 := by omega
  · exact h0
  · rw [readWbe, h1]; congr 1; omega
  · rw [readWbe, h2]; congr 1; omega
  · rw [readWbe, h3]; congr 1; omega

/-- Each byte of a register after a write through the limb-order window (20_memory.md R46). -/
theorem byteOf_writeWle (v : U256) (k : Nat) (d : Word) (j : Nat) (hj : j < 32) :
    byteOf (writeWle v k d) j =
      if 4 * k ≤ j ∧ j < 4 * k + 4 then lane d (j - 4 * k) else byteOf v j := by
  unfold writeWle
  rw [byteOf_setByte _ _ _ _ hj, byteOf_setByte _ _ _ _ hj, byteOf_setByte _ _ _ _ hj,
    byteOf_setByte _ _ _ _ hj]
  by_cases h : 4 * k ≤ j ∧ j < 4 * k + 4
  · rw [if_pos h]
    obtain e | e | e | e : j - 4 * k = 0 ∨ j - 4 * k = 1 ∨ j - 4 * k = 2 ∨ j - 4 * k = 3 := by omega
    all_goals rw [e]
    · rw [if_neg (by omega), if_neg (by omega), if_neg (by omega), if_pos (by omega)]
    · rw [if_neg (by omega), if_neg (by omega), if_pos (by omega)]
    · rw [if_neg (by omega), if_pos (by omega)]
    · rw [if_pos (by omega)]
  · rw [if_neg h, if_neg (by omega), if_neg (by omega), if_neg (by omega), if_neg (by omega)]

/-- Each byte of a register after a write through the big-endian window (20_memory.md R47). -/
theorem byteOf_writeWbe (v : U256) (k : Nat) (hk : k < 8) (d : Word) (j : Nat) (hj : j < 32) :
    byteOf (writeWbe v k d) j =
      if 28 - 4 * k ≤ j ∧ j < 32 - 4 * k then lane d (31 - 4 * k - j) else byteOf v j := by
  unfold writeWbe
  rw [byteOf_setByte _ _ _ _ hj, byteOf_setByte _ _ _ _ hj, byteOf_setByte _ _ _ _ hj,
    byteOf_setByte _ _ _ _ hj]
  by_cases h : 28 - 4 * k ≤ j ∧ j < 32 - 4 * k
  · rw [if_pos h]
    obtain e | e | e | e : 31 - 4 * k - j = 0 ∨ 31 - 4 * k - j = 1 ∨ 31 - 4 * k - j = 2 ∨
      31 - 4 * k - j = 3 := by omega
    all_goals rw [e]
    · rw [if_neg (by omega), if_neg (by omega), if_neg (by omega), if_pos (by omega)]
    · rw [if_neg (by omega), if_neg (by omega), if_pos (by omega)]
    · rw [if_neg (by omega), if_pos (by omega)]
    · rw [if_pos (by omega)]
  · rw [if_neg h, if_neg (by omega), if_neg (by omega), if_neg (by omega), if_neg (by omega)]

/-- The offsets of the limb-order window name its words (20_memory.md R46). -/
theorem target_wleOffset (r : Reg) (k : Fin 8) : target (wleOffset r k.val) = .wle r k := by
  revert r k
  decide

/-- The offsets of the big-endian window name its words (20_memory.md R47). -/
theorem target_wbeOffset (r : Reg) (k : Fin 8) : target (wbeOffset r k.val) = .wbe r k := by
  revert r k
  decide

/-- The window offsets are aligned. -/
theorem windowOffsets_aligned (r : Reg) (k : Fin 8) :
    (wleOffset r k.val).extractLsb' 0 2 = 0#2 ∧ (wbeOffset r k.val).extractLsb' 0 2 = 0#2 := by
  revert r k
  decide

/-- Everything a transfer can do. -/
theorem transfer_cases {run : Instr → State → Host.Outcome State Fault Refusal} {t : Transfer}
    {s u : State} (h : transfer run t s = .next u) :
    (t.refused = true ∧ u = { s with port := .refusal t.we }) ∨
    (t.refused = false ∧ t.we = false ∧ u = { s with port := .read (readTarget s (target t.addr)) }) ∨
    (t.refused = false ∧ t.we = true ∧
      ((target t.addr = .id ∨ target t.addr = .version) ∧ u = { s with port := .wrote } ∨
      target t.addr = .ctrl ∧ u = writeCtrl { s with port := .wrote } t.wdata ∨
      target t.addr = .status ∧ u = writeStatus { s with port := .wrote } t.wdata ∨
      target t.addr = .cmd ∧ s.status.busy = true ∧ u = overrun { s with port := .wrote } ∨
      (∃ e, target t.addr = .cmd ∧ s.status.busy = false ∧ decode t.wdata = .error e ∧
        u = reject e { s with port := .wrote }) ∨
      (∃ i, target t.addr = .cmd ∧ s.status.busy = false ∧ decode t.wdata = .ok i ∧
        run i { s with port := .wrote } = .next u) ∨
      (∃ r k, target t.addr = .wle r k ∧
        u = storeWord { s with port := .wrote } r (writeWle s.w[r] k.val t.wdata) k) ∨
      (∃ r k, target t.addr = .wbe r k ∧
        u = storeWord { s with port := .wrote } r (writeWbe s.w[r] k.val t.wdata) (wbeMark k)))) := by
  unfold transfer at h
  split at h
  · next hr => cases h; exact .inl ⟨hr, rfl⟩
  · next hr =>
    have hr : t.refused = false := by simpa using hr
    split at h
    · next hw =>
      refine .inr (.inr ⟨hr, hw, ?_⟩)
      unfold writeTarget at h
      split at h
      · next e => cases h; exact .inl ⟨.inl e, rfl⟩
      · next e => cases h; exact .inl ⟨.inr e, rfl⟩
      · next e => cases h; exact .inr (.inl ⟨e, rfl⟩)
      · next e => cases h; exact .inr (.inr (.inl ⟨e, rfl⟩))
      · next e =>
        unfold present at h
        split at h
        · next hb => cases h; exact .inr (.inr (.inr (.inl ⟨e, hb, rfl⟩)))
        · next hb =>
          have hb : s.status.busy = false := by simpa using hb
          split at h
          · next x hx => cases h; exact .inr (.inr (.inr (.inr (.inl ⟨x, e, hb, hx, rfl⟩))))
          · next i hi => exact .inr (.inr (.inr (.inr (.inr (.inl ⟨i, e, hb, hi, h⟩)))))
      · next r k e => cases h; exact .inr (.inr (.inr (.inr (.inr (.inr (.inl ⟨r, k, e, rfl⟩))))))
      · next r k e => cases h; exact .inr (.inr (.inr (.inr (.inr (.inr (.inr ⟨r, k, e, rfl⟩))))))
      · next e => simp [Transfer.refused, e] at hr
    · next hw =>
      cases h
      exact .inr (.inl ⟨hr, by simpa using hw, rfl⟩)

end Sys2Proof.Machine
end

