-- ==== Sys2Proof/Laws/Field.lean ====
section
/-! SUPPORT. The operators on canonical representatives, seen in the mathematical fields: they are the
ring operations of ZMod P and of its quadratic extension, their results are canonical, and a canonical
representative is determined by its field element. -/

namespace Sys2Proof.Machine

variable {p : Nat}

theorem fpAdd_lt (hp : 0 < p) (a b : Nat) : fpAdd p a b < p := Nat.mod_lt _ hp

theorem fpSub_lt (hp : 0 < p) (a b : Nat) : fpSub p a b < p := Nat.mod_lt _ hp

theorem fpNeg_lt (hp : 0 < p) (a : Nat) : fpNeg p a < p := Nat.mod_lt _ hp

theorem fpMul_lt (hp : 0 < p) (a b : Nat) : fpMul p a b < p := Nat.mod_lt _ hp

/-- Halving a canonical value gives a canonical value when p is odd. -/
theorem fpHalf_lt {a : Nat} (h : a < p) : fpHalf p a < p := by
  unfold fpHalf; split <;> omega

/-- Doubling undoes halving when p is odd. -/
theorem fpHalf_double (hodd : p % 2 = 1) {a : Nat} (h : a < p) : 2 * fpHalf p a % p = a := by
  unfold fpHalf
  split
  · have : 2 * (a / 2) = a := by omega
    rw [this, Nat.mod_eq_of_lt h]
  · have : 2 * ((a + p) / 2) = a + p := by omega
    rw [this, Nat.add_mod_right, Nat.mod_eq_of_lt h]

@[simp] theorem cast_fpAdd (a b : Nat) : ((fpAdd p a b : Nat) : ZMod p) = a + b := by
  simp [fpAdd]

theorem cast_fpSub (hp : 0 < p) (a b : Nat) : ((fpSub p a b : Nat) : ZMod p) = a - b := by
  have h : b % p ≤ p := (Nat.mod_lt b hp).le
  simp [fpSub, Nat.cast_sub h, sub_eq_add_neg]

theorem cast_fpNeg (hp : 0 < p) (a : Nat) : ((fpNeg p a : Nat) : ZMod p) = -a := by
  have h : a % p ≤ p := (Nat.mod_lt a hp).le
  simp [fpNeg, Nat.cast_sub h]

@[simp] theorem cast_fpMul (a b : Nat) : ((fpMul p a b : Nat) : ZMod p) = a * b := by
  simp [fpMul]

/-- Canonical representatives are equal when their field elements are. -/
theorem eq_of_cast_eq {a b : Nat} (ha : a < p) (hb : b < p) (h : (a : ZMod p) = b) : a = b := by
  have := (ZMod.natCast_eq_natCast_iff' a b p).mp h
  rwa [Nat.mod_eq_of_lt ha, Nat.mod_eq_of_lt hb] at this

/-- A record of operators computes in a commutative ring: `view` takes each operator to the ring's, every
result is canonical, and a canonical value is determined by its view. -/
structure Models {F R : Type} [CommRing R] (k : FieldOps F) (canon : F → Prop) (view : F → R) : Prop where
  add : ∀ a b, canon (k.add a b) ∧ view (k.add a b) = view a + view b
  sub : ∀ a b, canon (k.sub a b) ∧ view (k.sub a b) = view a - view b
  neg : ∀ a, canon (k.neg a) ∧ view (k.neg a) = -view a
  mul : ∀ a b, canon (k.mul a b) ∧ view (k.mul a b) = view a * view b
  ofNat : ∀ n : Nat, view (k.ofNat n) = n
  zero : canon k.zero ∧ view k.zero = 0
  one_view : view k.one = 1
  one_canon : ∀ a, canon a → a ≠ k.zero → canon k.one
  inj : ∀ a b, canon a → canon b → view a = view b → a = b

/-- The view of a triple. -/
def viewPoint {F R : Type} (v : F → R) (q : Point F) : Triple R := (v q.x, v q.y, v q.z)

/-- Every component of the triple is canonical. -/
def CanonicalPoint {F : Type} (canon : F → Prop) (q : Point F) : Prop :=
  canon q.x ∧ canon q.y ∧ canon q.z

/-- The operators of Fp compute in ZMod P. -/
theorem fpOps_models (c : Config) (hp : 0 < c.P) :
    Models (fpOps c) (fun a => a < c.P) (fun a => (a : ZMod c.P)) where
  add a b := ⟨fpAdd_lt hp a b, cast_fpAdd a b⟩
  sub a b := ⟨fpSub_lt hp a b, cast_fpSub hp a b⟩
  neg a := ⟨fpNeg_lt hp a, cast_fpNeg hp a⟩
  mul a b := ⟨fpMul_lt hp a b, cast_fpMul a b⟩
  ofNat n := ZMod.natCast_mod n c.P
  zero := ⟨hp, Nat.cast_zero⟩
  one_view := Nat.cast_one
  one_canon a ha h := by
    have : a ≠ 0 := h
    change 1 < c.P
    omega
  inj _ _ := eq_of_cast_eq

/-- The field element a pair of numbers stands for. -/
def fp2View (c : Config) (x : Fp2) : Fp2Ring c := ⟨(x.re : ZMod c.P), (x.im : ZMod c.P)⟩

/-- The operators of Fp2 compute in the quadratic extension. -/
theorem fp2Ops_models (c : Config) (hp : 0 < c.P) :
    Models (fp2Ops c) (fun x => x.re < c.P ∧ x.im < c.P) (fp2View c) where
  add a b := ⟨⟨fpAdd_lt hp _ _, fpAdd_lt hp _ _⟩,
    by ext <;> simp [fp2View, fp2Ops, fp2Add]⟩
  sub a b := ⟨⟨fpSub_lt hp _ _, fpSub_lt hp _ _⟩,
    by ext <;> simp [fp2View, fp2Ops, fp2Sub, cast_fpSub hp]⟩
  neg a := ⟨⟨fpNeg_lt hp _, fpNeg_lt hp _⟩,
    by ext <;> simp [fp2View, fp2Ops, fp2Neg, cast_fpNeg hp]⟩
  mul a b := ⟨⟨fpAdd_lt hp _ _, fpAdd_lt hp _ _⟩,
    by ext <;> simp [fp2View, fp2Ops, fp2Mul, mul_assoc]⟩
  ofNat n := by ext <;> simp [fp2View, fp2Ops]
  zero := ⟨⟨hp, hp⟩, by ext <;> simp [fp2View, fp2Ops]⟩
  one_view := by ext <;> simp [fp2View, fp2Ops, QuadraticAlgebra.re_one, QuadraticAlgebra.im_one]
  one_canon a ha h := by
    obtain ⟨re, im⟩ := a
    have : ¬ (re = 0 ∧ im = 0) := fun e => h (by simp [fp2Ops, e.1, e.2])
    obtain ⟨h1, h2⟩ := ha
    simp only at h1 h2
    constructor <;> simp only [fp2Ops] <;> omega
  inj a b ha hb h := by
    obtain ⟨are, aim⟩ := a
    obtain ⟨bre, bim⟩ := b
    exact congrArg₂ Fp2.mk (eq_of_cast_eq ha.1 hb.1 (congrArg QuadraticAlgebra.re h))
      (eq_of_cast_eq ha.2 hb.2 (congrArg QuadraticAlgebra.im h))

/-- `A1` is −3 in the field (43_g1.md R104). -/
theorem cast_a1 (c : Config) (h : 3 ≤ c.P) : ((a1 c : Nat) : ZMod c.P) = -3 := by
  simp [a1, Nat.cast_sub h]

end Sys2Proof.Machine
end

