-- ==== Sys2Proof/Laws/Curve.lean ====
section
/-! SUPPORT. The point functions, once over any record of operators that computes in a commutative ring:
doubling, addition, negation and the curve test, seen as the formulas of Safety.lean. -/

namespace Sys2Proof.Machine

variable {F R : Type} [CommRing R] {k : FieldOps F} {canon : F → Prop} {view : F → R}

/-- A small multiple in the ring. -/
theorem Models.view_times (m : Models k canon view) (n : Nat) (x : F) :
    view (times k n x) = n * view x := by
  rw [times, (m.mul _ _).2, m.ofNat]

/-- A square in the ring. -/
theorem Models.view_sqr (m : Models k canon view) (x : F) : view (sqr k x) = view x ^ 2 := by
  rw [sqr, (m.mul _ _).2, pow_two]

/-- The negation function, in the ring. -/
theorem Models.view_negPoint (m : Models k canon view) (q : Point F) :
    viewPoint view (negPoint k q) = negTriple (viewPoint view q) := by
  simp [viewPoint, negPoint, negTriple, (m.neg _).2]

variable [DecidableEq F]

/-- The infinity test sees Z = 0 in the ring. -/
theorem Models.isInfinity_iff (m : Models k canon view) {q : Point F} (hz : canon q.z) :
    isInfinity k q = true ↔ view q.z = 0 := by
  simp only [isInfinity, decide_eq_true_eq]
  constructor
  · intro h; rw [h, m.zero.2]
  · intro h; exact m.inj _ _ hz m.zero.1 (by rw [h, m.zero.2])

/-- The doubling function keeps canonical triples canonical. -/
theorem Models.dblPoint_canonical (m : Models k canon view) (a : F) {q : Point F}
    (h : CanonicalPoint canon q) : CanonicalPoint canon (dblPoint k a q) := by
  unfold dblPoint
  split
  · exact h
  · exact ⟨(m.sub _ _).1, (m.sub _ _).1, (m.mul _ _).1⟩

/-- The doubling function is the double of Safety.lean. -/
theorem Models.dblPoint_isDouble (m : Models k canon view) (a : F) {q : Point F} (hz : canon q.z) :
    IsDouble (view a) (viewPoint view q) (viewPoint view (dblPoint k a q)) := by
  have hinf := m.isInfinity_iff (q := q) hz
  refine ⟨fun h => ?_, fun h => ?_⟩
  · unfold dblPoint; rw [if_pos (hinf.mpr h)]
  · unfold dblPoint; rw [if_neg (fun e => h (hinf.mp e))]
    simp only [viewPoint, dblFormula, (m.add _ _).2, (m.sub _ _).2, (m.mul _ _).2, m.view_times,
      m.view_sqr, Prod.mk.injEq]
    refine ⟨?_, ?_, ?_⟩ <;> push_cast <;> ring

/-- The addition function keeps canonical triples canonical. -/
theorem Models.addPoint_canonical (m : Models k canon view) (a : F) {q1 q2 : Point F}
    (h1 : CanonicalPoint canon q1) (h2 : CanonicalPoint canon q2) : CanonicalPoint canon (addPoint k a q1 q2) := by
  unfold addPoint
  split
  · exact h1
  · split
    · exact h2
    · dsimp only
      split
      · split
        · exact m.dblPoint_canonical a h1
        · next hr => exact ⟨m.one_canon _ (m.sub _ _).1 hr, m.one_canon _ (m.sub _ _).1 hr, m.zero.1⟩
      · exact ⟨(m.sub _ _).1, (m.sub _ _).1, (m.mul _ _).1⟩

/-- The addition function is the sum of Safety.lean. -/
theorem Models.addPoint_isSum (m : Models k canon view) (a : F) {q1 q2 : Point F}
    (hz1 : canon q1.z) (hz2 : canon q2.z) :
    IsSum (view a) (viewPoint view q1) (viewPoint view q2) (viewPoint view (addPoint k a q1 q2)) := by
  have hi1 := m.isInfinity_iff (q := q1) hz1
  have hi2 := m.isInfinity_iff (q := q2) hz2
  have sub_eq_zero_iff : ∀ x y, k.sub x y = k.zero ↔ view x - view y = 0 := fun x y =>
    ⟨fun e => by rw [← (m.sub x y).2, e, m.zero.2],
      fun e => m.inj _ _ (m.sub x y).1 m.zero.1 (by rw [(m.sub x y).2, e, m.zero.2])⟩
  refine ⟨fun e2 => ?_, fun n2 e1 => ?_, fun n2 n1 => ?_⟩
  · unfold addPoint; rw [if_pos (hi2.mpr e2)]
  · unfold addPoint; rw [if_neg (fun e => n2 (hi2.mp e)), if_pos (hi1.mpr e1)]
  · unfold addPoint; rw [if_neg (fun e => n2 (hi2.mp e)), if_neg (fun e => n1 (hi1.mp e))]
    dsimp only
    have hh : k.sub (k.mul q2.x (sqr k q1.z)) (k.mul q1.x (sqr k q2.z)) = k.zero ↔
        (viewPoint view q2).1 * (viewPoint view q1).2.2 ^ 2 -
          (viewPoint view q1).1 * (viewPoint view q2).2.2 ^ 2 = 0 := by
      rw [sub_eq_zero_iff]; simp only [(m.mul _ _).2, m.view_sqr, viewPoint]
    have hr : k.sub (k.mul (k.mul q2.y q1.z) (sqr k q1.z)) (k.mul (k.mul q1.y q2.z) (sqr k q2.z)) =
        k.zero ↔ (viewPoint view q2).2.1 * (viewPoint view q1).2.2 ^ 3 -
          (viewPoint view q1).2.1 * (viewPoint view q2).2.2 ^ 3 = 0 := by
      rw [sub_eq_zero_iff]; simp only [(m.mul _ _).2, m.view_sqr, viewPoint]
      constructor <;> intro e <;> linear_combination e
    refine ⟨fun eh er => ?_, fun eh nr => ?_, fun nh => ?_⟩
    · rw [if_pos (hh.mpr eh), if_pos (hr.mpr er)]
      exact m.dblPoint_isDouble a hz1
    · rw [if_pos (hh.mpr eh), if_neg (fun e => nr (hr.mp e))]
      simp only [viewPoint, infinity, m.one_view, m.zero.2]
    · rw [if_neg (fun e => nh (hh.mp e))]
      simp only [viewPoint, addFormula, (m.sub _ _).2, (m.mul _ _).2, m.view_times, m.view_sqr,
        Prod.mk.injEq]
      refine ⟨?_, ?_, ?_⟩ <;> push_cast <;> ring

/-- The curve test is the curve equation in the ring. -/
theorem Models.onCurve_iff (m : Models k canon view) (a b : F) (q : Point F) :
    onCurve k a b q = true ↔ OnCurve (view a) (view b) (viewPoint view q) := by
  have h : ∀ x y, canon x → canon y → (x = y ↔ view x = view y) := fun x y hx hy =>
    ⟨fun e => by rw [e], m.inj x y hx hy⟩
  unfold onCurve OnCurve
  dsimp only [viewPoint]
  rw [decide_eq_true_eq, h (sqr k q.y) _ (m.mul _ _).1 (m.add _ _).1]
  simp only [(m.add _ _).2, (m.mul _ _).2, m.view_sqr]
  constructor <;> intro e
  · rw [e]; ring
  · rw [e]; ring

/-- The validity test: not infinity, and on the curve. -/
theorem Models.isValid_iff (m : Models k canon view) (a b : F) {q : Point F} (hz : canon q.z) :
    isValid k a b q = true ↔ view q.z ≠ 0 ∧ OnCurve (view a) (view b) (viewPoint view q) := by
  rw [isValid, Bool.and_eq_true, Bool.not_eq_true', ← Bool.not_eq_true, m.isInfinity_iff hz,
    m.onCurve_iff]

end Sys2Proof.Machine
end

