-- ==== Sys2Proof/Laws/Encoding.lean ====
section
/-! SUPPORT. The fields of a packed command word, and the fixed bits of each format. -/

namespace Sys2Proof

variable (opc : BitVec 8) (rd rs1 rs2 : BitVec 6)

/-- A bit of a packed word, with the word's width as the sum of its fields' widths. -/
theorem packFields_getLsbD (n : Nat) : (packFields opc rd rs1 rs2).getLsbD n =
    (opc ++ (0#2 ++ (rd ++ (0#2 ++ (rs1 ++ (0#2 ++ rs2)))))).getLsbD n := rfl

/-- OPC of a packed word. -/
@[simp] theorem opcField_packFields : opcField (packFields opc rd rs1 rs2) = opc := by
  unfold opcField
  ext k hk
  simp only [BitVec.getElem_extractLsb', packFields_getLsbD, BitVec.getLsbD_append]
  interval_cases k <;> simp [BitVec.getLsbD_eq_getElem]

/-- RD of a packed word. -/
@[simp] theorem rdField_packFields : rdField (packFields opc rd rs1 rs2) = rd.toFin := by
  unfold rdField
  congr 1
  ext k hk
  simp only [BitVec.getElem_extractLsb', packFields_getLsbD, BitVec.getLsbD_append]
  interval_cases k <;> simp [BitVec.getLsbD_eq_getElem]

/-- RS1 of a packed word. -/
@[simp] theorem rs1Field_packFields : rs1Field (packFields opc rd rs1 rs2) = rs1.toFin := by
  unfold rs1Field
  congr 1
  ext k hk
  simp only [BitVec.getElem_extractLsb', packFields_getLsbD, BitVec.getLsbD_append]
  interval_cases k <;> simp [BitVec.getLsbD_eq_getElem]

/-- RS2 of a packed word. -/
@[simp] theorem rs2Field_packFields : rs2Field (packFields opc rd rs1 rs2) = rs2.toFin := by
  unfold rs2Field
  congr 1
  ext k hk
  simp only [BitVec.getElem_extractLsb', packFields_getLsbD, BitVec.getLsbD_append]
  interval_cases k <;> simp [BitVec.getLsbD_eq_getElem]

/-- A format's fixed bits are clear exactly when each of them is. -/
theorem fixedBitsClear_iff (f : Format) (w : Word) : f.fixedBitsClear w = true ↔
    ∀ k < 24, f.mask.getLsbD k = true → w.getLsbD k = false := by
  have hm : ∀ k, (0x00FFFFFF#32).getLsbD k = decide (k < 24) := by
    intro k
    have h : (0x00FFFFFF#32) = BitVec.ofNat 32 (2 ^ 24 - 1) := by decide
    rw [h, BitVec.getLsbD_ofNat, Nat.testBit_two_pow_sub_one]
    by_cases hk : k < 24
    · simp [hk]; omega
    · simp [hk]
  rw [Format.fixedBitsClear, beq_iff_eq]
  constructor
  · intro h k hk hmask
    have := congrArg (fun x => BitVec.getLsbD x k) h
    simpa [hm, hk, hmask] using this
  · intro h
    apply BitVec.eq_of_getLsbD_eq
    intro k _
    by_cases hk : k < 24
    · cases hmask : f.mask.getLsbD k
      · simp [hmask]
      · simp [h k hk hmask]
    · simp [hm, hk]

/-- The fixed bits of a packed word are clear when the fields its format does not use are 0. -/
theorem fixedBitsClear_packFields :
    Format.rrr.fixedBitsClear (packFields opc rd rs1 rs2) = true ∧
    Format.rr.fixedBitsClear (packFields opc rd rs1 0#6) = true ∧
    Format.ss.fixedBitsClear (packFields opc 0#6 rs1 rs2) = true ∧
    Format.s.fixedBitsClear (packFields opc 0#6 rs1 0#6) = true ∧
    Format.d.fixedBitsClear (packFields opc rd 0#6 0#6) = true ∧
    Format.n.fixedBitsClear (packFields opc 0#6 0#6 0#6) = true := by
  refine ⟨?_, ?_, ?_, ?_, ?_, ?_⟩ <;> rw [fixedBitsClear_iff] <;> intro k hk <;>
    rw [packFields_getLsbD] <;> simp only [BitVec.getLsbD_append] <;>
    interval_cases k <;> simp [Format.mask]

end Sys2Proof
end

