-- ==== Sys2Proof/Laws/Flags.lean ====
section
/-! SUPPORT. The condition flags: the carry out, and STATUS as a word. -/

namespace Sys2Proof.Machine

/-- The carry out of bit n − 1 of a sum of two n-bit values (40_integer.md R71, R76). -/
theorem carryOut_eq (n sum : Nat) (h : sum < 2 * 2 ^ n) : carryOut n sum = decide (2 ^ n ≤ sum) := by
  have hp : 0 < 2 ^ n := Nat.two_pow_pos n
  rw [carryOut, Nat.testBit_eq_decide_div_mod_eq]
  congr 1
  apply propext
  constructor <;> intro h'
  · by_contra hn
    rw [Nat.div_eq_of_lt (by omega)] at h'
    omega
  · have : sum / 2 ^ n = 1 := Nat.div_eq_of_lt_le (by omega) (by omega)
    rw [this]

/-- The carry out of the top bit of a sum of two values of twice n bits. -/
theorem carryOut_double (n sum : Nat) (h : sum < 2 * (2 ^ n * 2 ^ n)) :
    carryOut (n + n) sum = decide (2 ^ n * 2 ^ n ≤ sum) := by
  rw [← Nat.pow_add] at *
  exact carryOut_eq (n + n) sum h

/-- The carry out of bit 511 (40_integer.md R76). -/
theorem carryOut_512 (sum : Nat) (h : sum < 2 * (2 ^ 256 * 2 ^ 256)) :
    carryOut 512 sum = decide (2 ^ 256 * 2 ^ 256 ≤ sum) := carryOut_double 256 sum h

/-- A bit of STATUS as it reads, with the word's width as the sum of its fields' widths. -/
theorem toWord_getLsbD_eq (st : Status) (n : Nat) : st.toWord.getLsbD n =
    (0#16 ++ st.errcode ++ 0#2 ++ BitVec.ofBool st.v ++ BitVec.ofBool st.gt ++ BitVec.ofBool st.eq ++
      BitVec.ofBool st.lt ++ BitVec.ofBool st.z ++ BitVec.ofBool st.c ++ BitVec.ofBool st.ovr ++
      BitVec.ofBool st.err ++ BitVec.ofBool st.done ++ BitVec.ofBool st.busy).getLsbD n := rfl

/-- The bits of STATUS as it reads (10_state.md R25). -/
theorem toWord_getLsbD (st : Status) :
    st.toWord.getLsbD 0 = st.busy ∧ st.toWord.getLsbD 1 = st.done ∧ st.toWord.getLsbD 2 = st.err ∧
    st.toWord.getLsbD 3 = st.ovr ∧ st.toWord.getLsbD 4 = st.c ∧ st.toWord.getLsbD 5 = st.z ∧
    st.toWord.getLsbD 6 = st.lt ∧ st.toWord.getLsbD 7 = st.eq ∧ st.toWord.getLsbD 8 = st.gt ∧
    st.toWord.getLsbD 9 = st.v := by
  simp only [toWord_getLsbD_eq, BitVec.getLsbD_append, BitVec.getLsbD_ofBool]
  simp

/-- The other fields of STATUS as it reads (10_state.md R25). -/
theorem toWord_fields (st : Status) : st.toWord.extractLsb' 10 2 = 0#2 ∧
    st.toWord.extractLsb' 12 4 = st.errcode ∧ st.toWord.extractLsb' 16 16 = 0#16 := by
  refine ⟨?_, ?_, ?_⟩ <;> ext k hk <;>
    simp only [BitVec.getElem_extractLsb', toWord_getLsbD_eq, BitVec.getLsbD_append] <;>
    interval_cases k <;> simp [BitVec.getLsbD_eq_getElem]

end Sys2Proof.Machine
end

