-- ==== Sys2Proof/Laws/Operands.lean ====
section
/-! SUPPORT. Operand groups: what reading, writing and marking a group does to each register, and the
views of a group read. -/

namespace Sys2Proof.Machine

/-- A register of the file. -/
theorem regAt_val (w : Vector U256 64) (r : Reg) : regAt w r.val = w[r] := by
  simp [regAt, Fin.getElem_fin]

/-- A register of the file, by number. -/
theorem regAt_of_lt (w : Vector U256 64) {n : Nat} (h : n < 64) : regAt w n = w[n] := by
  simp [regAt, h]

@[simp] theorem length_readGroup (w : Vector U256 64) (n g : Nat) : (readGroup w n g).length = g := by
  induction g generalizing n with
  | zero => rfl
  | succ g ih => simp [readGroup, ih]

/-- Register k of a group read. -/
theorem readGroup_getD (w : Vector U256 64) (n g k : Nat) (h : k < g) :
    (readGroup w n g).getD k 0#256 = regAt w (n + k) := by
  induction g generalizing n k with
  | zero => omega
  | succ g ih =>
    cases k with
    | zero => simp [readGroup]
    | succ k =>
      simpa [readGroup, Nat.add_assoc, Nat.add_comm 1 k] using ih (n + 1) k (by omega)

/-- Component k of a group read, as a number. -/
theorem component_readGroup (w : Vector U256 64) {n g k : Nat} (h : k < g) :
    component (readGroup w n g) k = (regAt w (n + k)).toNat := by
  rw [component, readGroup_getD w n g k h]

/-- A group read, register by register. -/
theorem readGroup_eq_map (w : Vector U256 64) (n g : Nat) :
    readGroup w n g = (List.range g).map fun k => regAt w (n + k) := by
  induction g generalizing n with
  | zero => rfl
  | succ g ih =>
    rw [readGroup, ih, List.range_succ_eq_map]
    simp [Nat.add_assoc, Nat.add_comm 1]

/-- A group read holds only values below p exactly when each of its registers does. -/
theorem all_readGroup (w : Vector U256 64) (n g p : Nat) :
    ((readGroup w n g).all fun v => decide (v.toNat < p)) = true ↔
      ∀ k < g, (regAt w (n + k)).toNat < p := by
  simp [readGroup_eq_map]

/-- Each register after a group write. -/
theorem writeGroup_getElem (w : Vector U256 64) (r : Nat) (vs : List U256) (n : Nat) (h : n < 64) :
    (writeGroup w r vs)[n] = if r ≤ n then vs.getD (n - r) w[n] else w[n] := by
  induction vs generalizing w r with
  | nil => simp [writeGroup]
  | cons v vs ih =>
    rw [writeGroup, ih]
    obtain hlt | rfl | hgt := Nat.lt_trichotomy n r
    · have h1 : ¬ r + 1 ≤ n := by omega
      have h2 : ¬ r ≤ n := by omega
      have h3 : r ≠ n := by omega
      simp [h1, h2, h3]
    · simp
    · have h1 : r + 1 ≤ n := by omega
      have h2 : r ≤ n := by omega
      have h3 : r ≠ n := by omega
      have h4 : n - r = (n - (r + 1)) + 1 := by omega
      simp [h1, h2, h3, h4]

/-- Each register's marks after a group is marked. -/
theorem markGroup_getElem (m : Vector (Vector Bool 8) 64) (r g n : Nat) (h : n < 64) :
    (markGroup m r g)[n] =
      if r ≤ n ∧ n < r + g then Vector.replicate 8 true else m[n] := by
  induction g generalizing m r with
  | zero =>
    have : ¬ (r ≤ n ∧ n < r + 0) := by omega
    rw [if_neg this, markGroup]
  | succ g ih =>
    rw [markGroup, ih]
    obtain hlt | rfl | hgt := Nat.lt_trichotomy n r
    · rw [if_neg (by omega), if_neg (by omega), Vector.getElem_setIfInBounds]
      simp; omega
    · rw [if_neg (by omega), if_pos (by omega)]
      simp
    · by_cases hn : n < r + (g + 1)
      · rw [if_pos (by omega), if_pos (by omega)]
      · rw [if_neg (by omega), if_neg (by omega), Vector.getElem_setIfInBounds]
        simp; omega

/-- A register outside the destination group keeps its value (10_state.md R18). -/
theorem writeSlot_outside (w : Vector U256 64) (vs : List U256) (o : Option Slot) (n : Reg)
    (hl : vs.length = o.elim 0 fun d => d.ty.size)
    (h : ∀ d, o = some d → n.val < d.reg.val ∨ d.reg.val + d.ty.size ≤ n.val) :
    (writeSlot w vs o)[n] = w[n] := by
  cases o with
  | none => rfl
  | some d =>
    have h := h d rfl
    simp only [Option.elim] at hl
    simp only [writeSlot, Fin.getElem_fin, writeGroup_getElem]
    split
    · rw [List.getD_eq_default]; omega
    · rfl

/-- The marks of a register outside the destination group keep their values (20_memory.md R48). -/
theorem markSlot_outside (m : Vector (Vector Bool 8) 64) (o : Option Slot) (n : Reg)
    (h : ∀ d, o = some d → n.val < d.reg.val ∨ d.reg.val + d.ty.size ≤ n.val) :
    (markSlot m o)[n] = m[n] := by
  cases o with
  | none => rfl
  | some d =>
    have h := h d rfl
    simp only [markSlot, Fin.getElem_fin, markGroup_getElem]
    rw [if_neg]
    omega

/-- A source operand passes its check: its type is unchecked, or every component is below P. -/
theorem slotCanonical_some (p : Nat) (w : Vector U256 64) (o : Slot) :
    slotCanonical p w (some o) = true ↔
      (o.ty.fpTyped = true → ∀ k < o.ty.size, (regAt w (o.reg.val + k)).toNat < p) := by
  rw [slotCanonical]
  cases o.ty.fpTyped with
  | false => simp
  | true => simp only [Bool.not_true, Bool.false_or, all_readGroup, forall_const]

/-- A u256 source. -/
@[simp] theorem asU256_u256 (w : Vector U256 64) (r : Reg) :
    asU256 (readSlot w (some ⟨r, .u256⟩)) = w[r].toNat := by
  simp [asU256, readSlot, OperandTy.size, component_readGroup, regAt]

/-- An fp source. -/
@[simp] theorem asU256_fp (w : Vector U256 64) (r : Reg) :
    asU256 (readSlot w (some ⟨r, .fp⟩)) = w[r].toNat := asU256_u256 w r

/-- A u512 source. -/
@[simp] theorem asU512_u512 (s : State) (r : Reg) :
    asU512 (readSlot s.w (some ⟨r, .u512⟩)) = wide s r := by
  simp [asU512, readSlot, OperandTy.size, component_readGroup, wide]

/-- An fp2 source. -/
@[simp] theorem asFp2_fp2 (w : Vector U256 64) (r : Reg) : asFp2 (readSlot w (some ⟨r, .fp2⟩)) =
    ⟨(regAt w r.val).toNat, (regAt w (r.val + 1)).toNat⟩ := by
  simp [asFp2, readSlot, OperandTy.size, component_readGroup]

/-- A g1 source. -/
@[simp] theorem asG1_g1 (w : Vector U256 64) (r : Reg) : asG1 (readSlot w (some ⟨r, .g1⟩)) =
    ⟨(regAt w r.val).toNat, (regAt w (r.val + 1)).toNat, (regAt w (r.val + 2)).toNat⟩ := by
  simp [asG1, readSlot, OperandTy.size, component_readGroup]

/-- A g2 source. -/
@[simp] theorem asG2_g2 (w : Vector U256 64) (r : Reg) : asG2 (readSlot w (some ⟨r, .g2⟩)) =
    ⟨⟨(regAt w r.val).toNat, (regAt w (r.val + 1)).toNat⟩,
      ⟨(regAt w (r.val + 2)).toNat, (regAt w (r.val + 3)).toNat⟩,
      ⟨(regAt w (r.val + 4)).toNat, (regAt w (r.val + 5)).toNat⟩⟩ := by
  simp [asG2, readSlot, OperandTy.size, component_readGroup]

/-- A register group lies inside the file. -/
theorem fits_iff (r : Reg) (ty : OperandTy) : (Slot.mk r ty).fits = true ↔ r.val + ty.size ≤ 64 := by
  simp [Slot.fits]

/-- A pair's value is below 2^512. -/
theorem wide_lt (s : State) (r : Reg) : wide s r < 2 ^ 256 * 2 ^ 256 := by
  have h1 := (regAt s.w r.val).isLt
  have h2 := (regAt s.w (r.val + 1)).isLt
  unfold wide
  omega

end Sys2Proof.Machine
end

