-- ==== Sys2Proof/Laws/Ops.lean ====
section
/-! SUPPORT. The life of a command, said once: what presenting, issuing and committing can do, and that
every arm of `exec` is one command. -/

namespace Sys2Proof.Machine

variable {i : Instr} {s t : State} {f : Config → Latched → Result}

/-- What the flag class of a result may be, for each command (10_state.md R26 to R29). -/
def flagsAllowed (i : Instr) : FlagWrite → Bool
  | .none => true
  | .carry _ => writesC i
  | .order _ _ _ => writesOrder i
  | .zero _ => writesZ i
  | .valid _ => writesV i

/-- Everything a command can do: overrun while BUSY, its commit, a rejection, or its issue. -/
theorem command_cases (h : command i s f = .next t) :
    (s.status.busy = true ∧ t = overrun s ∧
      ¬ ∃ g, s.inflight = some g ∧ g.remaining = 0 ∧ g.cmd = i) ∨
    (∃ g, s.status.busy = true ∧ s.inflight = some g ∧ g.remaining = 0 ∧ g.cmd = i ∧
      t = commit i (f s.const ⟨g.src1, g.src2⟩) s) ∨
    (∃ e, s.status.busy = false ∧ check i s = some e ∧ t = reject e s) ∨
    (s.status.busy = false ∧ check i s = none ∧ t = issue i s) := by
  unfold command at h
  split at h
  · next hb =>
    split at h
    · next g hg =>
      split at h
      · next hc => cases h; exact .inr (.inl ⟨g, hb, hg, hc.1, hc.2, rfl⟩)
      · next hc =>
        cases h
        refine .inl ⟨hb, rfl, ?_⟩
        rintro ⟨g', h1, h2, h3⟩
        rw [hg] at h1; cases h1; exact hc ⟨h2, h3⟩
    · next hg => cases h; exact .inl ⟨hb, rfl, by simp [hg]⟩
  · next hb =>
    have hb : s.status.busy = false := by simpa using hb
    split at h
    · next e he => cases h; exact .inr (.inr (.inl ⟨e, hb, he, rfl⟩))
    · next he => cases h; exact .inr (.inr (.inr ⟨hb, he, rfl⟩))

/-- The latency of a command is its opcode's entry of the latency table. -/
theorem latency_eq (c : Config) (i : Instr) : latency c i = c.lat[i.opc.toNat]'(i.opc.isLt) := by
  have h : i.opc.toNat < 256 := i.opc.isLt
  simp [latency, h]

/-- A command always answers a next state. -/
theorem command_next (i : Instr) (s : State) (f : Config → Latched → Result) :
    ∃ t, command i s f = .next t := by
  unfold command
  split
  · split
    · split <;> exact ⟨_, rfl⟩
    · exact ⟨_, rfl⟩
  · split <;> exact ⟨_, rfl⟩

/-- A command on an idle engine that passes its checks is issued. -/
theorem command_issue (hb : s.status.busy = false) (hc : check i s = none) :
    command i s f = .next (issue i s) := by
  simp [command, hb, hc]

/-- A command on an idle engine that fails a check is rejected. -/
theorem command_reject {e : Reject} (hb : s.status.busy = false) (hc : check i s = some e) :
    command i s f = .next (reject e s) := by
  simp [command, hb, hc]

/-- The in-flight command whose latency has run out commits. -/
theorem command_commit {g : InFlight} (hb : s.status.busy = true) (hg : s.inflight = some g)
    (hr : g.remaining = 0) (hi : g.cmd = i) :
    command i s f = .next (commit i (f s.const ⟨g.src1, g.src2⟩) s) := by
  simp [command, hb, hg, hr, hi]

/-- When a command of known opcode and clear reserved bits passes its checks (45_control.md R132). -/
theorem check_eq_none : check i s = none ↔ i.wellFormed = true ∧
    slotCanonical s.const.P s.w i.slots.rs1 = true ∧ slotCanonical s.const.P s.w i.slots.rs2 = true := by
  unfold check Instr.wellFormed
  dsimp only
  generalize (slotFits i.slots.rd && slotFits i.slots.rs1 && slotFits i.slots.rs2) = x
  generalize slotCanonical s.const.P s.w i.slots.rs1 = y
  generalize slotCanonical s.const.P s.w i.slots.rs2 = z
  revert x y z
  decide

/-- The checks of a command of format RR. -/
theorem check_rr {d a : OperandTy} {rd rs1 : Reg} (hs : i.slots = Slots.rr d a rd rs1)
    (hd : rd.val + d.size ≤ 64) (h1 : rs1.val + a.size ≤ 64)
    (c1 : a.fpTyped = true → GroupBelowP s rs1 a.size) : check i s = none := by
  rw [check_eq_none, Instr.wellFormed, hs]
  simp only [Slots.rr, slotFits, (fits_iff _ _).mpr hd, (fits_iff _ _).mpr h1, slotCanonical_some]
  exact ⟨rfl, c1, rfl⟩

/-- The checks of a command of format RRR. -/
theorem check_rrr {d a b : OperandTy} {rd rs1 rs2 : Reg} (hs : i.slots = Slots.rrr d a b rd rs1 rs2)
    (hd : rd.val + d.size ≤ 64) (h1 : rs1.val + a.size ≤ 64) (h2 : rs2.val + b.size ≤ 64)
    (c1 : a.fpTyped = true → GroupBelowP s rs1 a.size)
    (c2 : b.fpTyped = true → GroupBelowP s rs2 b.size) : check i s = none := by
  rw [check_eq_none, Instr.wellFormed, hs]
  simp only [Slots.rrr, slotFits, (fits_iff _ _).mpr hd, (fits_iff _ _).mpr h1, (fits_iff _ _).mpr h2,
    slotCanonical_some]
  exact ⟨rfl, c1, c2⟩

/-- The checks of a command of format S. -/
theorem check_s {a : OperandTy} {rs1 : Reg} (hs : i.slots = Slots.s a rs1)
    (h1 : rs1.val + a.size ≤ 64) (c1 : a.fpTyped = true → GroupBelowP s rs1 a.size) :
    check i s = none := by
  rw [check_eq_none, Instr.wellFormed, hs]
  simp only [Slots.s, slotFits, (fits_iff _ _).mpr h1, slotCanonical_some]
  exact ⟨rfl, c1, rfl⟩

/-- The checks of a command of format SS. -/
theorem check_ss {a b : OperandTy} {rs1 rs2 : Reg} (hs : i.slots = Slots.ss a b rs1 rs2)
    (h1 : rs1.val + a.size ≤ 64) (h2 : rs2.val + b.size ≤ 64)
    (c1 : a.fpTyped = true → GroupBelowP s rs1 a.size)
    (c2 : b.fpTyped = true → GroupBelowP s rs2 b.size) : check i s = none := by
  rw [check_eq_none, Instr.wellFormed, hs]
  simp only [Slots.ss, slotFits, (fits_iff _ _).mpr h1, (fits_iff _ _).mpr h2, slotCanonical_some]
  exact ⟨rfl, c1, c2⟩

/-- The checks of a command of format D. -/
theorem check_d {d : OperandTy} {rd : Reg} (hs : i.slots = Slots.d d rd)
    (hd : rd.val + d.size ≤ 64) : check i s = none := by
  rw [check_eq_none, Instr.wellFormed, hs]
  simp only [Slots.d, slotFits, (fits_iff _ _).mpr hd]
  exact ⟨rfl, rfl, rfl⟩

/-- A failed check is REG_RANGE or NONCANONICAL (45_control.md R132). -/
theorem check_eq_some {e : Reject} (h : check i s = some e) :
    (e = .regRange ∧ i.wellFormed = false) ∨ (e = .nonCanonical ∧ i.wellFormed = true) := by
  unfold check at h
  unfold Instr.wellFormed
  dsimp only at h
  generalize (slotFits i.slots.rd && slotFits i.slots.rs1 && slotFits i.slots.rs2) = x at *
  cases x
  · exact .inl ⟨(Option.some.inj h).symm, rfl⟩
  · simp only [Bool.not_true, Bool.false_eq_true, if_false] at h
    split at h
    · exact .inr ⟨(Option.some.inj h).symm, rfl⟩
    · simp at h

/-- The checks read only the registers and the parameters. -/
theorem check_congr (hw : t.w = s.w) (hc : t.const = s.const) : check i t = check i s := by
  simp [check, hw, hc]

/-- Every arm of `exec` is one command: its rule reads only the parameters and the latched sources,
gives as many values as its destination group has registers, and names only its own flags. -/
theorem exec_eq_command (i : Instr) : ∃ f : Config → Latched → Result,
    (∀ s, exec i s = command i s f) ∧
    (∀ c o, (f c o).dest.length = (i.slots.rd.elim 0 fun d => d.ty.size)) ∧
    (∀ c o, flagsAllowed i (f c o).flags = true) := by
  cases i <;>
    exact Exists.intro _ ⟨fun s => by unfold exec; rfl, by intro c o; rfl, by intro c o; rfl⟩

/-- An issued command with its latency run out. -/
theorem issue_inflight_runOut (i : Instr) (s : State) : (latencyRunOut (issue i s)).inflight =
    some ⟨i, readSlot s.w i.slots.rs1, readSlot s.w i.slots.rs2, 0⟩ := rfl

/-- A command presented to an idle engine, its checks passed, completes with its commit. -/
theorem completes_of_command {f : Config → Latched → Result}
    (hf : ∀ s, exec i s = command i s f) (hi : Idle s) (hc : check i s = none) :
    Completes i s (commit i (f s.const ⟨readSlot s.w i.slots.rs1, readSlot s.w i.slots.rs2⟩)
      (latencyRunOut (issue i s))) := by
  refine ⟨issue i s, ?_, rfl, ?_⟩
  · rw [hf, command_issue hi.1 hc]
  · rw [hf]
    exact command_commit rfl (issue_inflight_runOut i s) rfl rfl

/-- The only state in which a command completes, and that it passed its checks. -/
theorem completes_unique {f : Config → Latched → Result}
    (hf : ∀ s, exec i s = command i s f) (hi : Idle s) (h : Completes i s t) :
    check i s = none ∧
    t = commit i (f s.const ⟨readSlot s.w i.slots.rs1, readSlot s.w i.slots.rs2⟩)
      (latencyRunOut (issue i s)) := by
  obtain ⟨u, h1, h2, h3⟩ := h
  rw [hf] at h1 h3
  rcases command_cases h1 with ⟨hb, -⟩ | ⟨g, hb, -⟩ | ⟨e, hb, he, rfl⟩ | ⟨hb, hc, rfl⟩
  · simp [hi.1] at hb
  · simp [hi.1] at hb
  · simp [hi.1] at h2
  · refine ⟨hc, ?_⟩
    rw [command_commit rfl (issue_inflight_runOut i s) rfl rfl] at h3
    exact (Host.Outcome.next.inj h3).symm

/-- STATUS after a command's issue and commit. -/
theorem status_of_commit (s : State) (r : Result) :
    (commit i r (latencyRunOut (issue i s))).status = r.flags.apply (statusAfter s.status) := by
  obtain ⟨vs, g⟩ := r
  cases g <;> rfl

/-- What a commit leaves unchanged. -/
theorem commitFrame_commit (r : Result) :
    CommitFrame s (commit i r (latencyRunOut (issue i s))) :=
  ⟨rfl, rfl, rfl, rfl, rfl, rfl, rfl, rfl⟩

/-- What a commit does to the operand registers and their marks. -/
theorem writesGroup_commit {d : Slot} (hd : i.slots.rd = some d) (r : Result)
    (hl : r.dest.length = d.ty.size) (u : State) (hw : u.w = s.w) (hm : u.written = s.written) :
    WritesGroup s (commit i r u) d.reg r.dest := by
  intro n
  constructor
  · simp only [commit_w, hd, writeSlot, hw, Fin.getElem_fin]
    exact writeGroup_getElem _ _ _ _ n.isLt
  · simp only [commit_written, hd, markSlot, hm, hl, Fin.getElem_fin]
    exact markGroup_getElem _ _ _ _ n.isLt

/-- A command with a destination, on an idle engine, its checks passed: it completes, writes what its
rule gives, and changes nothing else. -/
theorem completes_with {f : Config → Latched → Result}
    (hf : ∀ s, exec i s = command i s f) {d : Slot} (hd : i.slots.rd = some d)
    (hi : Idle s) (hc : check i s = none) {r : Result}
    (hr : f s.const ⟨readSlot s.w i.slots.rs1, readSlot s.w i.slots.rs2⟩ = r)
    (hl : r.dest.length = d.ty.size) :
    ∃ t, Completes i s t ∧ CommitFrame s t ∧ t.status = r.flags.apply (statusAfter s.status) ∧
      WritesGroup s t d.reg r.dest := by
  refine ⟨_, completes_of_command hf hi hc, commitFrame_commit _, ?_, ?_⟩
  · rw [hr]; exact status_of_commit s r
  · rw [hr]; exact writesGroup_commit hd _ hl _ rfl rfl

/-- A command that writes registers and no flag. -/
theorem regResult_of_command {f : Config → Latched → Result}
    (hf : ∀ s, exec i s = command i s f) {d : Slot} (hd : i.slots.rd = some d)
    (hi : Idle s) (hc : check i s = none) {vs : List U256}
    (hr : f s.const ⟨readSlot s.w i.slots.rs1, readSlot s.w i.slots.rs2⟩ = { dest := vs })
    (hl : vs.length = d.ty.size) : RegResult i s d.reg vs :=
  completes_with hf hd hi hc hr hl

/-- A flag command on an idle engine: its flags are what its rule gives. -/
theorem flagResult_of_command {f : Config → Latched → Result}
    (hf : ∀ s, exec i s = command i s f) (hd : i.slots.rd = none)
    (hi : Idle s) (hc : check i s = none) {g : FlagWrite}
    (hr : f s.const ⟨readSlot s.w i.slots.rs1, readSlot s.w i.slots.rs2⟩ = { flags := g }) :
    FlagResult i s (g.apply (statusAfter s.status)) := by
  refine ⟨_, completes_of_command hf hi hc, commitFrame_commit _, ?_, ?_, ?_⟩
  · rw [hr]; exact status_of_commit s _
  · simp [hd, writeSlot]
  · simp [hd, markSlot]

/-- Two group writes of the same values leave the same registers. -/
theorem WritesGroup.value {r : Reg} {vs : List U256} (h : WritesGroup s t r vs) (k : Nat)
    (hk : k < vs.length) (hr : r.val + k < 64) : regAt t.w (r.val + k) = vs[k] := by
  have := (h ⟨r.val + k, hr⟩).1
  simp only [Fin.getElem_fin, Nat.le_add_right, if_true, Nat.add_sub_cancel_left] at this
  rw [regAt_of_lt _ hr, this]
  simp [hk]

end Sys2Proof.Machine
end

