-- ==== Sys2Proof/Laws/PerInstr.lean ====
section
/-! SUPPORT. The family Encoding, one lemma for each command: its word carries its opcode and keeps every
bit its format fixes at 0. -/

namespace Sys2Proof.Laws.Encoding

/-- The word of a command has its opcode in bits 31:24, and every bit of 23:0 that its format fixes is 0
(30_encoding.md R59, R60). -/
def Statement (i : Instr) : Prop :=
  opcField (encode i) = i.opc ∧ i.format.fixedBitsClear (encode i) = true

theorem nop : Statement .nop :=
  ⟨opcField_packFields _ _ _ _, (fixedBitsClear_packFields _ 0 0 0).2.2.2.2.2⟩

theorem add (rd rs1 rs2 : Reg) : Statement (.add rd rs1 rs2) :=
  ⟨opcField_packFields _ _ _ _, (fixedBitsClear_packFields _ (BitVec.ofFin rd) (BitVec.ofFin rs1) (BitVec.ofFin rs2)).1⟩

theorem sub (rd rs1 rs2 : Reg) : Statement (.sub rd rs1 rs2) :=
  ⟨opcField_packFields _ _ _ _, (fixedBitsClear_packFields _ (BitVec.ofFin rd) (BitVec.ofFin rs1) (BitVec.ofFin rs2)).1⟩

theorem cmp (rs1 rs2 : Reg) : Statement (.cmp rs1 rs2) :=
  ⟨opcField_packFields _ _ _ _, (fixedBitsClear_packFields _ 0 (BitVec.ofFin rs1) (BitVec.ofFin rs2)).2.2.1⟩

theorem mul (rd rs1 rs2 : Reg) : Statement (.mul rd rs1 rs2) :=
  ⟨opcField_packFields _ _ _ _, (fixedBitsClear_packFields _ (BitVec.ofFin rd) (BitVec.ofFin rs1) (BitVec.ofFin rs2)).1⟩

theorem addw (rd rs1 rs2 : Reg) : Statement (.addw rd rs1 rs2) :=
  ⟨opcField_packFields _ _ _ _, (fixedBitsClear_packFields _ (BitVec.ofFin rd) (BitVec.ofFin rs1) (BitVec.ofFin rs2)).1⟩

theorem subw (rd rs1 rs2 : Reg) : Statement (.subw rd rs1 rs2) :=
  ⟨opcField_packFields _ _ _ _, (fixedBitsClear_packFields _ (BitVec.ofFin rd) (BitVec.ofFin rs1) (BitVec.ofFin rs2)).1⟩

theorem cmpw (rs1 rs2 : Reg) : Statement (.cmpw rs1 rs2) :=
  ⟨opcField_packFields _ _ _ _, (fixedBitsClear_packFields _ 0 (BitVec.ofFin rs1) (BitVec.ofFin rs2)).2.2.1⟩

theorem fadd (rd rs1 rs2 : Reg) : Statement (.fadd rd rs1 rs2) :=
  ⟨opcField_packFields _ _ _ _, (fixedBitsClear_packFields _ (BitVec.ofFin rd) (BitVec.ofFin rs1) (BitVec.ofFin rs2)).1⟩

theorem fsub (rd rs1 rs2 : Reg) : Statement (.fsub rd rs1 rs2) :=
  ⟨opcField_packFields _ _ _ _, (fixedBitsClear_packFields _ (BitVec.ofFin rd) (BitVec.ofFin rs1) (BitVec.ofFin rs2)).1⟩

theorem fneg (rd rs1 : Reg) : Statement (.fneg rd rs1) :=
  ⟨opcField_packFields _ _ _ _, (fixedBitsClear_packFields _ (BitVec.ofFin rd) (BitVec.ofFin rs1) 0).2.1⟩

theorem fdbl (rd rs1 : Reg) : Statement (.fdbl rd rs1) :=
  ⟨opcField_packFields _ _ _ _, (fixedBitsClear_packFields _ (BitVec.ofFin rd) (BitVec.ofFin rs1) 0).2.1⟩

theorem ftpl (rd rs1 : Reg) : Statement (.ftpl rd rs1) :=
  ⟨opcField_packFields _ _ _ _, (fixedBitsClear_packFields _ (BitVec.ofFin rd) (BitVec.ofFin rs1) 0).2.1⟩

theorem fhlv (rd rs1 : Reg) : Statement (.fhlv rd rs1) :=
  ⟨opcField_packFields _ _ _ _, (fixedBitsClear_packFields _ (BitVec.ofFin rd) (BitVec.ofFin rs1) 0).2.1⟩

theorem fsqr (rd rs1 : Reg) : Statement (.fsqr rd rs1) :=
  ⟨opcField_packFields _ _ _ _, (fixedBitsClear_packFields _ (BitVec.ofFin rd) (BitVec.ofFin rs1) 0).2.1⟩

theorem fmul (rd rs1 rs2 : Reg) : Statement (.fmul rd rs1 rs2) :=
  ⟨opcField_packFields _ _ _ _, (fixedBitsClear_packFields _ (BitVec.ofFin rd) (BitVec.ofFin rs1) (BitVec.ofFin rs2)).1⟩

theorem fred (rd rs1 : Reg) : Statement (.fred rd rs1) :=
  ⟨opcField_packFields _ _ _ _, (fixedBitsClear_packFields _ (BitVec.ofFin rd) (BitVec.ofFin rs1) 0).2.1⟩

theorem fcan (rd rs1 : Reg) : Statement (.fcan rd rs1) :=
  ⟨opcField_packFields _ _ _ _, (fixedBitsClear_packFields _ (BitVec.ofFin rd) (BitVec.ofFin rs1) 0).2.1⟩

theorem fisz (rs1 : Reg) : Statement (.fisz rs1) :=
  ⟨opcField_packFields _ _ _ _, (fixedBitsClear_packFields _ 0 (BitVec.ofFin rs1) 0).2.2.2.1⟩

theorem f2add (rd rs1 rs2 : Reg) : Statement (.f2add rd rs1 rs2) :=
  ⟨opcField_packFields _ _ _ _, (fixedBitsClear_packFields _ (BitVec.ofFin rd) (BitVec.ofFin rs1) (BitVec.ofFin rs2)).1⟩

theorem f2sub (rd rs1 rs2 : Reg) : Statement (.f2sub rd rs1 rs2) :=
  ⟨opcField_packFields _ _ _ _, (fixedBitsClear_packFields _ (BitVec.ofFin rd) (BitVec.ofFin rs1) (BitVec.ofFin rs2)).1⟩

theorem f2neg (rd rs1 : Reg) : Statement (.f2neg rd rs1) :=
  ⟨opcField_packFields _ _ _ _, (fixedBitsClear_packFields _ (BitVec.ofFin rd) (BitVec.ofFin rs1) 0).2.1⟩

theorem f2dbl (rd rs1 : Reg) : Statement (.f2dbl rd rs1) :=
  ⟨opcField_packFields _ _ _ _, (fixedBitsClear_packFields _ (BitVec.ofFin rd) (BitVec.ofFin rs1) 0).2.1⟩

theorem f2sqr (rd rs1 : Reg) : Statement (.f2sqr rd rs1) :=
  ⟨opcField_packFields _ _ _ _, (fixedBitsClear_packFields _ (BitVec.ofFin rd) (BitVec.ofFin rs1) 0).2.1⟩

theorem f2mul (rd rs1 rs2 : Reg) : Statement (.f2mul rd rs1 rs2) :=
  ⟨opcField_packFields _ _ _ _, (fixedBitsClear_packFields _ (BitVec.ofFin rd) (BitVec.ofFin rs1) (BitVec.ofFin rs2)).1⟩

theorem pzero (rd : Reg) : Statement (.pzero rd) :=
  ⟨opcField_packFields _ _ _ _, (fixedBitsClear_packFields _ (BitVec.ofFin rd) 0 0).2.2.2.2.1⟩

theorem pgen (rd : Reg) : Statement (.pgen rd) :=
  ⟨opcField_packFields _ _ _ _, (fixedBitsClear_packFields _ (BitVec.ofFin rd) 0 0).2.2.2.2.1⟩

theorem pisz (rs1 : Reg) : Statement (.pisz rs1) :=
  ⟨opcField_packFields _ _ _ _, (fixedBitsClear_packFields _ 0 (BitVec.ofFin rs1) 0).2.2.2.1⟩

theorem pval (rs1 : Reg) : Statement (.pval rs1) :=
  ⟨opcField_packFields _ _ _ _, (fixedBitsClear_packFields _ 0 (BitVec.ofFin rs1) 0).2.2.2.1⟩

theorem pneg (rd rs1 : Reg) : Statement (.pneg rd rs1) :=
  ⟨opcField_packFields _ _ _ _, (fixedBitsClear_packFields _ (BitVec.ofFin rd) (BitVec.ofFin rs1) 0).2.1⟩

theorem pdbl (rd rs1 : Reg) : Statement (.pdbl rd rs1) :=
  ⟨opcField_packFields _ _ _ _, (fixedBitsClear_packFields _ (BitVec.ofFin rd) (BitVec.ofFin rs1) 0).2.1⟩

theorem pdbl5 (rd rs1 : Reg) : Statement (.pdbl5 rd rs1) :=
  ⟨opcField_packFields _ _ _ _, (fixedBitsClear_packFields _ (BitVec.ofFin rd) (BitVec.ofFin rs1) 0).2.1⟩

theorem padd (rd rs1 rs2 : Reg) : Statement (.padd rd rs1 rs2) :=
  ⟨opcField_packFields _ _ _ _, (fixedBitsClear_packFields _ (BitVec.ofFin rd) (BitVec.ofFin rs1) (BitVec.ofFin rs2)).1⟩

theorem psub (rd rs1 rs2 : Reg) : Statement (.psub rd rs1 rs2) :=
  ⟨opcField_packFields _ _ _ _, (fixedBitsClear_packFields _ (BitVec.ofFin rd) (BitVec.ofFin rs1) (BitVec.ofFin rs2)).1⟩

theorem qzero (rd : Reg) : Statement (.qzero rd) :=
  ⟨opcField_packFields _ _ _ _, (fixedBitsClear_packFields _ (BitVec.ofFin rd) 0 0).2.2.2.2.1⟩

theorem qgen (rd : Reg) : Statement (.qgen rd) :=
  ⟨opcField_packFields _ _ _ _, (fixedBitsClear_packFields _ (BitVec.ofFin rd) 0 0).2.2.2.2.1⟩

theorem qisz (rs1 : Reg) : Statement (.qisz rs1) :=
  ⟨opcField_packFields _ _ _ _, (fixedBitsClear_packFields _ 0 (BitVec.ofFin rs1) 0).2.2.2.1⟩

theorem qval (rs1 : Reg) : Statement (.qval rs1) :=
  ⟨opcField_packFields _ _ _ _, (fixedBitsClear_packFields _ 0 (BitVec.ofFin rs1) 0).2.2.2.1⟩

theorem qneg (rd rs1 : Reg) : Statement (.qneg rd rs1) :=
  ⟨opcField_packFields _ _ _ _, (fixedBitsClear_packFields _ (BitVec.ofFin rd) (BitVec.ofFin rs1) 0).2.1⟩

theorem qdbl (rd rs1 : Reg) : Statement (.qdbl rd rs1) :=
  ⟨opcField_packFields _ _ _ _, (fixedBitsClear_packFields _ (BitVec.ofFin rd) (BitVec.ofFin rs1) 0).2.1⟩

theorem qdbl5 (rd rs1 : Reg) : Statement (.qdbl5 rd rs1) :=
  ⟨opcField_packFields _ _ _ _, (fixedBitsClear_packFields _ (BitVec.ofFin rd) (BitVec.ofFin rs1) 0).2.1⟩

theorem qadd (rd rs1 rs2 : Reg) : Statement (.qadd rd rs1 rs2) :=
  ⟨opcField_packFields _ _ _ _, (fixedBitsClear_packFields _ (BitVec.ofFin rd) (BitVec.ofFin rs1) (BitVec.ofFin rs2)).1⟩

theorem qsub (rd rs1 rs2 : Reg) : Statement (.qsub rd rs1 rs2) :=
  ⟨opcField_packFields _ _ _ _, (fixedBitsClear_packFields _ (BitVec.ofFin rd) (BitVec.ofFin rs1) (BitVec.ofFin rs2)).1⟩

end Sys2Proof.Laws.Encoding
end

