-- ==== Sys2Proof/Laws/Step.lean ====
section
/-! SUPPORT. Everything a step of the machine can do, said once for every agent. -/

namespace Sys2Proof.Machine

/-- A step with a transfer to carry out is the host's. -/
theorem hostTurn_of_nextTransfer {s : State} {e : Transfer × List Transfer}
    (h : nextTransfer s = some e) : HostTurn s := by
  unfold nextTransfer at h
  split at h
  · next ht => exact .inl ht
  · next ht => exact .inr ht
  · cases h
  · cases h

/-- The first transfer that is not held: those before it are held, and all others stay, in their order. -/
theorem firstFree_eq_some {s : State} {l rest : List Transfer} {u : Transfer} :
    firstFree s l = some (u, rest) ↔ held s u = false ∧
      ∃ pre post, l = pre ++ u :: post ∧ rest = pre ++ post ∧ ∀ v ∈ pre, held s v = true := by
  induction l generalizing rest with
  | nil => simp [firstFree]
  | cons t l ih =>
    cases ht : held s t with
    | false =>
      simp only [firstFree, ht, Bool.false_eq_true, if_false, Option.some.injEq, Prod.mk.injEq]
      constructor
      · rintro ⟨rfl, rfl⟩
        exact ⟨ht, [], l, rfl, rfl, by simp⟩
      · rintro ⟨-, pre, post, hl, rfl, hp⟩
        cases pre with
        | nil => cases hl; exact ⟨rfl, rfl⟩
        | cons v pre =>
          cases hl
          exact absurd (hp t (by simp)) (by simp [ht])
    | true =>
      simp only [firstFree, ht, if_true, Option.map_eq_some_iff]
      constructor
      · rintro ⟨⟨u', r⟩, he, hr⟩
        cases hr
        obtain ⟨hu, pre, post, rfl, rfl, hp⟩ := ih.mp he
        exact ⟨hu, t :: pre, post, rfl, rfl, by simpa [ht] using hp⟩
      · rintro ⟨hu, pre, post, hl, rfl, hp⟩
        cases pre with
        | nil => cases hl; exact absurd ht (by simp [hu])
        | cons v pre =>
          cases hl
          exact ⟨(u, pre ++ post), ih.mpr ⟨hu, pre, post, rfl, rfl, fun w hw => hp w (by simp [hw])⟩, rfl⟩

/-- No transfer is free when all are held. -/
theorem firstFree_eq_none {s : State} {l : List Transfer} :
    firstFree s l = none ↔ ∀ v ∈ l, held s v = true := by
  induction l with
  | nil => simp [firstFree]
  | cons t l ih => cases ht : held s t <;> simp [firstFree, ht, ih]

/-- Which transfers are held depends only on `rst_n` and BUSY. -/
theorem held_congr {s t : State} (hr : t.rstN = s.rstN) (hb : t.status.busy = s.status.busy) :
    held t = held s := by
  funext u
  rw [held, held, hr, hb]

/-- Which transfer the next step carries out depends only on the turns, the host's transfers, `rst_n` and
BUSY. -/
theorem nextTransfer_congr {s t : State} (hs : t.sched = s.sched) (hh : t.host = s.host)
    (hr : t.rstN = s.rstN) (hb : t.status.busy = s.status.busy) : nextTransfer t = nextTransfer s := by
  have hd := held_congr hr hb
  have hf : ∀ l, firstFree t l = firstFree s l := by
    intro l
    induction l with
    | nil => rfl
    | cons u l ih => simp only [firstFree, hd, ih]
  have ht : turnOf t = turnOf s := by simp only [turnOf, hs, hh, hd]
  simp only [nextTransfer, ht, hh, hd, hf]

/-- In the host's turn the next transfer is the first, when it is not held. -/
theorem nextTransfer_host {s : State} (ht : turnOf s = .host) {u : Transfer} {rest : List Transfer}
    (he : s.host = u :: rest) (hh : held s u = false) : nextTransfer s = some (u, rest) := by
  simp [nextTransfer, ht, he, hh]

/-- In the host's turn there is none while the first is held. -/
theorem nextTransfer_host_none {s : State} (ht : turnOf s = .host)
    (h : ∀ u, s.host.head? = some u → held s u = true) : nextTransfer s = none := by
  unfold nextTransfer
  rw [ht]
  dsimp only
  split
  · rfl
  · next u rest he => rw [if_pos (h u (by rw [he]; rfl))]

/-- In a pass turn the next transfer is the first that is not held. -/
theorem nextTransfer_pass {s : State} (ht : turnOf s = .pass) {u : Transfer} {pre post : List Transfer}
    (he : s.host = pre ++ u :: post) (hp : ∀ v ∈ pre, held s v = true) (hh : held s u = false) :
    nextTransfer s = some (u, pre ++ post) := by
  rw [nextTransfer, ht]
  exact firstFree_eq_some.mpr ⟨hh, pre, post, he, rfl, hp⟩

/-- The transfer a step carries out is one of the host's, it is not held, those before it are, and all
others stay in their order. -/
theorem nextTransfer_eq_some {s : State} {u : Transfer} {rest : List Transfer}
    (h : nextTransfer s = some (u, rest)) : held s u = false ∧
      ∃ pre post, s.host = pre ++ u :: post ∧ rest = pre ++ post ∧ ∀ v ∈ pre, held s v = true := by
  unfold nextTransfer at h
  split at h
  · split at h
    · cases h
    · next t l he =>
      split at h
      · cases h
      · next hh =>
        cases h
        exact ⟨by simpa using hh, [], rest, he, rfl, by simp⟩
  · exact firstFree_eq_some.mp h
  · cases h
  · cases h

/-- A host's turn with no transfer to carry out is a wait state. -/
theorem step_wait {s : State} (ht : HostTurn s) (h : nextTransfer s = none) :
    step s = .next (quiet (afterTurn s)) := by
  unfold step agentStep
  rcases ht with ht | ht <;> rw [ht] <;> dsimp only <;> rw [h] <;> rfl

/-- A step with a transfer to carry out carries it out. -/
theorem step_transfer {s : State} {u : Transfer} {rest : List Transfer}
    (h : nextTransfer s = some (u, rest)) : step s = transfer exec u { afterTurn s with host := rest } := by
  unfold step agentStep
  rcases hostTurn_of_nextTransfer h with ht | ht <;> rw [ht] <;> dsimp only <;> rw [h] <;> rfl

/-- An engine turn with no command in flight does nothing. -/
theorem step_engine_idle {s : State} (ht : turnOf s = .engine) (hf : s.inflight = none) :
    step s = .next (quiet (afterTurn s)) := by
  unfold step agentStep
  rw [ht]
  dsimp only
  unfold engineTurn
  rw [afterTurn_inflight, hf]

/-- An engine turn that is not the command's last counts one cycle. -/
theorem step_engine_cycle {s : State} (ht : turnOf s = .engine) {f : InFlight}
    (hf : s.inflight = some f) (hr : f.remaining - 1 ≠ 0) : step s =
      .next { quiet (afterTurn s) with inflight := some { f with remaining := f.remaining - 1 } } := by
  unfold step agentStep
  rw [ht]
  dsimp only
  unfold engineTurn
  rw [afterTurn_inflight, hf]
  exact if_neg hr

/-- An engine turn that is the command's last runs it, its latency run out. -/
theorem step_engine_commit {s : State} (ht : turnOf s = .engine) {f : InFlight}
    (hf : s.inflight = some f) (hr : f.remaining - 1 = 0) : step s =
      exec f.cmd { quiet (afterTurn s) with inflight := some { f with remaining := 0 } } := by
  unfold step agentStep
  rw [ht]
  dsimp only
  unfold engineTurn
  rw [afterTurn_inflight, hf]
  dsimp only
  rw [if_pos hr, hr]

/-- A turn of the reset pin. -/
theorem step_rst {s : State} {level : Bool} (ht : turnOf s = .rst level) :
    step s = .next (resetTurn level (afterTurn s)) := by
  unfold step agentStep
  rw [ht]

/-- A run of one more step, of any machine. -/
theorem run_succ_of {M : Host.Core} {s t : M.State} (h : M.step s = .next t) (n : Nat) :
    M.run (n + 1) s = M.run n t := by
  rw [Host.Core.run, h]

/-- A run of one more step. -/
theorem run_succ {s t : State} (h : step s = .next t) (n : Nat) :
    Host.Core.run core (n + 1) s = Host.Core.run core n t :=
  run_succ_of (M := core) h n

/-- Everything a step can do: an idle cycle, one cycle of the command in flight, its commit, a wait state, a
transfer, or a move of the reset pin. -/
theorem step_cases {s t : State} (h : step s = .next t) :
    (turnOf s = .engine ∧ s.inflight = none ∧ t = quiet (afterTurn s)) ∨
    (∃ f, turnOf s = .engine ∧ s.inflight = some f ∧ f.remaining - 1 ≠ 0 ∧
      t = { quiet (afterTurn s) with inflight := some { f with remaining := f.remaining - 1 } }) ∨
    (∃ f, turnOf s = .engine ∧ s.inflight = some f ∧ f.remaining - 1 = 0 ∧
      exec f.cmd { quiet (afterTurn s) with inflight := some { f with remaining := 0 } } = .next t) ∨
    (HostTurn s ∧ nextTransfer s = none ∧ t = quiet (afterTurn s)) ∨
    (∃ u rest, nextTransfer s = some (u, rest) ∧ held s u = false ∧
      transfer exec u { afterTurn s with host := rest } = .next t) ∨
    (∃ level, turnOf s = .rst level ∧ t = resetTurn level (afterTurn s)) := by
  have host : HostTurn s → hostTurn exec (nextTransfer s) (afterTurn s) = .next t →
      (HostTurn s ∧ nextTransfer s = none ∧ t = quiet (afterTurn s)) ∨
      ∃ u rest, nextTransfer s = some (u, rest) ∧ held s u = false ∧
        transfer exec u { afterTurn s with host := rest } = .next t := by
    intro ht hx
    unfold hostTurn at hx
    split at hx
    · next hn => cases hx; exact .inl ⟨ht, hn, rfl⟩
    · next u rest hn => exact .inr ⟨u, rest, hn, (nextTransfer_eq_some hn).1, hx⟩
  unfold step agentStep at h
  split at h
  · next ht => exact .inr (.inr (.inr ((host (.inl ht) h).imp id .inl)))
  · next ht => exact .inr (.inr (.inr ((host (.inr ht) h).imp id .inl)))
  · next ht =>
    unfold engineTurn at h
    split at h
    · next hn => cases h; exact .inl ⟨ht, hn, rfl⟩
    · next f hf =>
      dsimp only at h
      split at h
      · next hr => rw [hr] at h; exact .inr (.inr (.inl ⟨f, ht, hf, hr, h⟩))
      · next hr => cases h; exact .inr (.inl ⟨f, ht, hf, hr, rfl⟩)
  · next level ht =>
    cases h
    exact .inr (.inr (.inr (.inr (.inr ⟨level, ht, rfl⟩))))

end Sys2Proof.Machine
end

