-- ==== Sys2Proof/Tests/Slice0.lean ====
section
/-! SUPPORT. The model's own tests. The expected results of the decode tests are words written out from
the encoding tables of 30_encoding.md; those of the command and bus tests are the vectors V-, E- and B- of
95_test_vectors.md, named in each docstring. The witnesses show, for every obligation with hypotheses, a
concrete state and operands that meet them. -/

namespace Sys2Proof.Tests

open Sys2Proof Sys2Proof.Machine

/-! ## Helpers -/

/-- A state with these values in these operand registers. -/
def setRegs (s : State) (l : List (Nat × Nat)) : State :=
  { s with w := l.foldl (fun w e => w.setIfInBounds e.1 (BitVec.ofNat 256 e.2)) s.w }

/-- The command word `w`, presented right after reset with these register values and committed, leaves these
register values and this STATUS. -/
def ends (w : Nat) (before after : List (Nat × Nat)) (status : Nat) : Bool :=
  match step ((setRegs State.reset before).withFetchWord 32 w) with
  | .next u =>
    match step u with
    | .next t =>
      t.status.toWord.toNat == status && after.all fun e => (regAt t.w e.1).toNat == e.2
    | _ => false
  | _ => false

/-- These transfers, right after reset, each followed by a clock cycle, complete with these read data; the
last flag of each is `err`. -/
def answers (s : State) : List Transfer → List (Option Nat × Bool) → Bool
  | u :: us, r :: rs =>
    match step { s with host := [u], sched := [.host, .engine] } with
    | .next t =>
      t.port.ready && t.port.err == r.2 && (t.port.rdata.map BitVec.toNat) == r.1 &&
        match step t with
        | .next t' => answers t' us rs
        | _ => false
    | _ => false
  | [], [] => true
  | _, _ => false

/-! ## Decoding: words written out from 30_encoding.md R59, R60, R63 -/

theorem test_decode_nop : decode 0b00000000_00_000000_00_000000_00_000000#32 = .ok .nop := by decide

theorem test_decode_integer :
    decode 0b00000001_00_000101_00_000110_00_000111#32 = .ok (.add 5 6 7) ∧
    decode 0b00000010_00_111111_00_000001_00_100000#32 = .ok (.sub 63 1 32) ∧
    decode 0b00000011_00_000000_00_010000_00_000011#32 = .ok (.cmp 16 3) ∧
    decode 0b00000100_00_111110_00_000000_00_111111#32 = .ok (.mul 62 0 63) ∧
    decode 0b00000101_00_000100_00_000010_00_000000#32 = .ok (.addw 4 2 0) ∧
    decode 0b00000110_00_101010_00_010101_00_001100#32 = .ok (.subw 42 21 12) ∧
    decode 0b00000111_00_000000_00_000010_00_111110#32 = .ok (.cmpw 2 62) := by decide

theorem test_decode_fp :
    decode 0b00010000_00_000001_00_000010_00_000011#32 = .ok (.fadd 1 2 3) ∧
    decode 0b00010001_00_100001_00_010010_00_001011#32 = .ok (.fsub 33 18 11) ∧
    decode 0b00010010_00_000001_00_100000_00_000000#32 = .ok (.fneg 1 32) ∧
    decode 0b00010011_00_000010_00_010000_00_000000#32 = .ok (.fdbl 2 16) ∧
    decode 0b00010100_00_000100_00_001000_00_000000#32 = .ok (.ftpl 4 8) ∧
    decode 0b00010101_00_001000_00_000100_00_000000#32 = .ok (.fhlv 8 4) ∧
    decode 0b00010110_00_010000_00_000010_00_000000#32 = .ok (.fsqr 16 2) ∧
    decode 0b00010111_00_000011_00_000001_00_000010#32 = .ok (.fmul 3 1 2) ∧
    decode 0b00011000_00_001110_00_001010_00_000000#32 = .ok (.fred 14 10) ∧
    decode 0b00011001_00_111111_00_000001_00_000000#32 = .ok (.fcan 63 1) ∧
    decode 0b00011010_00_000000_00_101010_00_000000#32 = .ok (.fisz 42) := by decide

theorem test_decode_fp2 :
    decode 0b00100000_00_000100_00_000000_00_000010#32 = .ok (.f2add 4 0 2) ∧
    decode 0b00100001_00_000110_00_000011_00_111110#32 = .ok (.f2sub 6 3 62) ∧
    decode 0b00100010_00_000010_00_100000_00_000000#32 = .ok (.f2neg 2 32) ∧
    decode 0b00100011_00_000100_00_010000_00_000000#32 = .ok (.f2dbl 4 16) ∧
    decode 0b00100100_00_001000_00_000001_00_000000#32 = .ok (.f2sqr 8 1) ∧
    decode 0b00100101_00_000001_00_000000_00_000010#32 = .ok (.f2mul 1 0 2) := by decide

theorem test_decode_g1 :
    decode 0b00110000_00_001010_00_000000_00_000000#32 = .ok (.pzero 10) ∧
    decode 0b00110001_00_100000_00_000000_00_000000#32 = .ok (.pgen 32) ∧
    decode 0b00110010_00_000000_00_000011_00_000000#32 = .ok (.pisz 3) ∧
    decode 0b00110011_00_000000_00_111101_00_000000#32 = .ok (.pval 61) ∧
    decode 0b00110100_00_000011_00_000110_00_000000#32 = .ok (.pneg 3 6) ∧
    decode 0b00110101_00_000110_00_000011_00_000000#32 = .ok (.pdbl 6 3) ∧
    decode 0b00110110_00_001001_00_000000_00_000000#32 = .ok (.pdbl5 9 0) ∧
    decode 0b00110111_00_000110_00_000000_00_000011#32 = .ok (.padd 6 0 3) ∧
    decode 0b00111000_00_000011_00_000000_00_000110#32 = .ok (.psub 3 0 6) := by decide

theorem test_decode_g2 :
    decode 0b01000000_00_010100_00_000000_00_000000#32 = .ok (.qzero 20) ∧
    decode 0b01000001_00_000001_00_000000_00_000000#32 = .ok (.qgen 1) ∧
    decode 0b01000010_00_000000_00_000110_00_000000#32 = .ok (.qisz 6) ∧
    decode 0b01000011_00_000000_00_111010_00_000000#32 = .ok (.qval 58) ∧
    decode 0b01000100_00_000110_00_001100_00_000000#32 = .ok (.qneg 6 12) ∧
    decode 0b01000101_00_001100_00_000110_00_000000#32 = .ok (.qdbl 12 6) ∧
    decode 0b01000110_00_000110_00_000000_00_000000#32 = .ok (.qdbl5 6 0) ∧
    decode 0b01000111_00_001100_00_000000_00_000110#32 = .ok (.qadd 12 0 6) ∧
    decode 0b01001000_00_000000_00_000110_00_001100#32 = .ok (.qsub 0 6 12) := by decide

/-- Every gap of the opcode map (R63, R64), and a fixed bit of each format. -/
theorem test_decode_rejects :
    decode 0x08000000#32 = .error .illegalOpcode ∧ decode 0x0F000000#32 = .error .illegalOpcode ∧
    decode 0x1B000000#32 = .error .illegalOpcode ∧ decode 0x26000000#32 = .error .illegalOpcode ∧
    decode 0x39000000#32 = .error .illegalOpcode ∧ decode 0x49000000#32 = .error .illegalOpcode ∧
    decode 0xFFFFFFFF#32 = .error .illegalOpcode ∧
    decode 0x00000001#32 = .error .rsvdField ∧ decode 0x01400001#32 = .error .rsvdField ∧
    decode 0x12010001#32 = .error .rsvdField ∧ decode 0x03010001#32 = .error .rsvdField ∧
    decode 0x1A000001#32 = .error .rsvdField ∧ decode 0x30000100#32 = .error .rsvdField := by decide

/-- The words of 30_encoding.md R67's expansions and of R66's text come out of the encoder and the
assembler. -/
theorem test_assemble :
    assemble "PADD w6, w0, w3" = some (.padd 6 0 3) ∧ encode (.padd 6 0 3) = 0x37060003#32 ∧
    assemble "  fred W14 , w10 ; reduce" = some (.fred 14 10) ∧ assemble "NOP" = some .nop ∧
    assemble "FADD w1, w2" = none ∧ assemble "PVAL w64" = none := by decide

/-! ## Well-formedness: an ill-formed command for each check is refused -/

theorem test_ill_formed_rd : (Instr.mul 63 0 0).wellFormed = false ∧ (Instr.mul 62 0 0).wellFormed = true := by
  decide

theorem test_ill_formed_rs1 : (Instr.fred 0 63).wellFormed = false ∧ (Instr.fred 0 62).wellFormed = true := by
  decide

theorem test_ill_formed_rs2 : (Instr.addw 0 0 63).wellFormed = false ∧ (Instr.addw 0 0 62).wellFormed = true := by
  decide

theorem test_ill_formed_points :
    (Instr.padd 62 0 3).wellFormed = false ∧ (Instr.padd 61 0 3).wellFormed = true ∧
    (Instr.qval 59).wellFormed = false ∧ (Instr.qval 58).wellFormed = true := by decide

/-! ## Commands: the vectors of 95_test_vectors.md -/

/-- V-ADD-1. -/
theorem test_add_wraps_with_carry :
    ends 0x01020001 [(0, 0xFFFFFFFFFFFFFFFFFFFFFFFFFFFFFFFFFFFFFFFFFFFFFFFFFFFFFFFFFFFFFFFF), (1, 1)]
     [(2, 0)] 0x00000012 = true := by decide

/-- V-ADD-4. -/
theorem test_add_carries_through_limbs :
    ends 0x01020001 [(0, 0xFFFFFFFFFFFFFFFFFFFFFFFFFFFFFFFFFFFFFFFFFFFFFFFF), (1, 1)]
     [(2, 0x1000000000000000000000000000000000000000000000000)] 0x00000002 = true := by decide

/-- V-SUB-1. -/
theorem test_sub_wraps_with_borrow :
    ends 0x02020001 [(0, 0), (1, 1)]
     [(2, 0xFFFFFFFFFFFFFFFFFFFFFFFFFFFFFFFFFFFFFFFFFFFFFFFFFFFFFFFFFFFFFFFF)] 0x00000012 = true := by decide

/-- V-SUB-2. -/
theorem test_sub_borrows_from_limb_1 :
    ends 0x02020001 [(0, 0x10000000000000000), (1, 1)]
     [(2, 0xFFFFFFFFFFFFFFFF)] 0x00000002 = true := by decide

/-- V-CMP-3. -/
theorem test_cmp_top_bit_decides :
    ends 0x03000001 [(0, 0x8000000000000000000000000000000000000000000000000000000000000000),
     (1, 0x7FFFFFFFFFFFFFFFFFFFFFFFFFFFFFFFFFFFFFFFFFFFFFFFFFFFFFFFFFFFFFFF)]
     [] 0x00000102 = true := by decide

/-- V-CMP-4. -/
theorem test_cmp_limb_0_decides :
    ends 0x03000001 [(0, 0x100000000000000000000000000000000000000000000000002),
     (1, 0x100000000000000000000000000000000000000000000000003)]
     [] 0x00000042 = true := by decide

/-- V-MUL-1. -/
theorem test_mul_largest :
    ends 0x04020001 [(0, 0xFFFFFFFFFFFFFFFFFFFFFFFFFFFFFFFFFFFFFFFFFFFFFFFFFFFFFFFFFFFFFFFF),
     (1, 0xFFFFFFFFFFFFFFFFFFFFFFFFFFFFFFFFFFFFFFFFFFFFFFFFFFFFFFFFFFFFFFFF)]
     [(2, 1), (3, 0xFFFFFFFFFFFFFFFFFFFFFFFFFFFFFFFFFFFFFFFFFFFFFFFFFFFFFFFFFFFFFFFE)] 0x00000002 = true := by decide

/-- V-MUL-6. -/
theorem test_mul_over_its_sources :
    ends 0x04000101 [(1, 0x123456789ABCDEF0123456789ABCDEF0123456789ABCDEF0123456789ABCDEF)]
     [(0, 0x729B6A56D866788A95F43CE76B3FDCBCB94D0F77FE1940EEDCA5E20890F2A521),
     (1, 0x14B66DC33F6ACDCA878D6495A927AB94FA645B6812E4895F6D3B523A7CA16)] 0x00000002 = true := by decide

/-- V-ADDW-1. -/
theorem test_addw_wraps_with_carry :
    ends 0x05040002 [(0, 0xFFFFFFFFFFFFFFFFFFFFFFFFFFFFFFFFFFFFFFFFFFFFFFFFFFFFFFFFFFFFFFFF),
     (1, 0xFFFFFFFFFFFFFFFFFFFFFFFFFFFFFFFFFFFFFFFFFFFFFFFFFFFFFFFFFFFFFFFF), (2, 1), (3, 0)]
     [(4, 0), (5, 0)] 0x00000012 = true := by decide

/-- V-ADDW-2. -/
theorem test_addw_carries_between_registers :
    ends 0x05040002 [(0, 0xFFFFFFFFFFFFFFFFFFFFFFFFFFFFFFFFFFFFFFFFFFFFFFFFFFFFFFFFFFFFFFFF), (1, 0), (2, 1),
     (3, 0)]
     [(4, 0), (5, 1)] 0x00000002 = true := by decide

/-- V-SUBW-1. -/
theorem test_subw_wraps_with_borrow :
    ends 0x06040002 [(0, 0), (1, 0), (2, 1), (3, 0)]
     [(4, 0xFFFFFFFFFFFFFFFFFFFFFFFFFFFFFFFFFFFFFFFFFFFFFFFFFFFFFFFFFFFFFFFF),
     (5, 0xFFFFFFFFFFFFFFFFFFFFFFFFFFFFFFFFFFFFFFFFFFFFFFFFFFFFFFFFFFFFFFFF)] 0x00000012 = true := by decide

/-- V-SUBW-2. -/
theorem test_subw_borrows_between_registers :
    ends 0x06040002 [(0, 0), (1, 1), (2, 1), (3, 0)]
     [(4, 0xFFFFFFFFFFFFFFFFFFFFFFFFFFFFFFFFFFFFFFFFFFFFFFFFFFFFFFFFFFFFFFFF), (5, 0)] 0x00000002 = true := by decide

/-- V-CMPW-1. -/
theorem test_cmpw_high_register_decides :
    ends 0x07000002 [(0, 0), (1, 1), (2, 0xFFFFFFFFFFFFFFFFFFFFFFFFFFFFFFFFFFFFFFFFFFFFFFFFFFFFFFFFFFFFFFFF),
     (3, 0)]
     [] 0x00000102 = true := by decide

/-- V-CMPW-3. -/
theorem test_cmpw_low_register_decides :
    ends 0x07000002 [(0, 2), (1, 7), (2, 3), (3, 7)]
     [] 0x00000042 = true := by decide

/-- V-FADD-1. -/
theorem test_fadd_to_zero :
    ends 0x10020001 [(0, 0xFFFFFFFEFFFFFFFFFFFFFFFFFFFFFFFFFFFFFFFF00000000FFFFFFFFFFFFFFFE), (1, 1)]
     [(2, 0)] 0x00000002 = true := by decide

/-- V-FADD-2. -/
theorem test_fadd_largest :
    ends 0x10020001 [(0, 0xFFFFFFFEFFFFFFFFFFFFFFFFFFFFFFFFFFFFFFFF00000000FFFFFFFFFFFFFFFE),
     (1, 0xFFFFFFFEFFFFFFFFFFFFFFFFFFFFFFFFFFFFFFFF00000000FFFFFFFFFFFFFFFE)]
     [(2, 0xFFFFFFFEFFFFFFFFFFFFFFFFFFFFFFFFFFFFFFFF00000000FFFFFFFFFFFFFFFD)] 0x00000002 = true := by decide

/-- V-FSUB-1. -/
theorem test_fsub_below_zero :
    ends 0x11020001 [(0, 0), (1, 1)]
     [(2, 0xFFFFFFFEFFFFFFFFFFFFFFFFFFFFFFFFFFFFFFFF00000000FFFFFFFFFFFFFFFE)] 0x00000002 = true := by decide

/-- V-FSUB-2. -/
theorem test_fsub_random :
    ends 0x11020001 [(0, 0xBC3736A2F4F6779C59BDCEE36B692153D0A9877CC62A474002DF32E52139F0A0),
     (1, 0x32C4AE2C1F1981195F9904466A39C9948FE30BBFF2660BE1715A4589334C74C7)]
     [(2, 0x89728876D5DCF682FA24CA9D012F57BF40C67BBCD3C43B5E9184ED5BEDED7BD9)] 0x00000002 = true := by decide

/-- V-FNEG-1. -/
theorem test_fneg_of_zero :
    ends 0x12010000 [(0, 0)]
     [(1, 0)] 0x00000002 = true := by decide

/-- V-FNEG-2. -/
theorem test_fneg_random :
    ends 0x12010000 [(0, 1)]
     [(1, 0xFFFFFFFEFFFFFFFFFFFFFFFFFFFFFFFFFFFFFFFF00000000FFFFFFFFFFFFFFFE)] 0x00000002 = true := by decide

/-- V-FDBL-1. -/
theorem test_fdbl_largest :
    ends 0x13010000 [(0, 0xFFFFFFFEFFFFFFFFFFFFFFFFFFFFFFFFFFFFFFFF00000000FFFFFFFFFFFFFFFE)]
     [(1, 0xFFFFFFFEFFFFFFFFFFFFFFFFFFFFFFFFFFFFFFFF00000000FFFFFFFFFFFFFFFD)] 0x00000002 = true := by decide

/-- V-FDBL-2. -/
theorem test_fdbl_without_reduction :
    ends 0x13010000 [(0, 0x7FFFFFFF7FFFFFFFFFFFFFFFFFFFFFFFFFFFFFFF800000007FFFFFFFFFFFFFFF)]
     [(1, 0xFFFFFFFEFFFFFFFFFFFFFFFFFFFFFFFFFFFFFFFF00000000FFFFFFFFFFFFFFFE)] 0x00000002 = true := by decide

/-- V-FTPL-1. -/
theorem test_ftpl_largest :
    ends 0x14010000 [(0, 0xFFFFFFFEFFFFFFFFFFFFFFFFFFFFFFFFFFFFFFFF00000000FFFFFFFFFFFFFFFE)]
     [(1, 0xFFFFFFFEFFFFFFFFFFFFFFFFFFFFFFFFFFFFFFFF00000000FFFFFFFFFFFFFFFC)] 0x00000002 = true := by decide

/-- V-FTPL-2. -/
theorem test_ftpl_reduces_once :
    ends 0x14010000 [(0, 0x7FFFFFFF7FFFFFFFFFFFFFFFFFFFFFFFFFFFFFFF800000008000000000000000)]
     [(1, 0x7FFFFFFF7FFFFFFFFFFFFFFFFFFFFFFFFFFFFFFF800000008000000000000001)] 0x00000002 = true := by decide

/-- V-FHLV-1. -/
theorem test_fhlv_odd :
    ends 0x15010000 [(0, 1)]
     [(1, 0x7FFFFFFF7FFFFFFFFFFFFFFFFFFFFFFFFFFFFFFF800000008000000000000000)] 0x00000002 = true := by decide

/-- V-FHLV-4. -/
theorem test_fhlv_257_bit_sum :
    ends 0x15010000 [(0, 0xFFFFFFFEFFFFFFFFFFFFFFFFFFFFFFFFFFFFFFFF00000000FFFFFFFFFFFFFFFD)]
     [(1, 0xFFFFFFFEFFFFFFFFFFFFFFFFFFFFFFFFFFFFFFFF00000000FFFFFFFFFFFFFFFE)] 0x00000002 = true := by decide

/-- V-FSQR-1. -/
theorem test_fsqr_of_minus_one :
    ends 0x16010000 [(0, 0xFFFFFFFEFFFFFFFFFFFFFFFFFFFFFFFFFFFFFFFF00000000FFFFFFFFFFFFFFFE)]
     [(1, 1)] 0x00000002 = true := by decide

/-- V-FSQR-3. -/
theorem test_fsqr_random :
    ends 0x16010000 [(0, 0x32C4AE2C1F1981195F9904466A39C9948FE30BBFF2660BE1715A4589334C74C7)]
     [(1, 0xF4E2CCA0BCFD67FBA8531EEBFF519E4CB3D47F9FE8C5EFF5151F4C497EC99FBF)] 0x00000002 = true := by decide

/-- V-FMUL-1. -/
theorem test_fmul_random :
    ends 0x17020001 [(0, 0x32C4AE2C1F1981195F9904466A39C9948FE30BBFF2660BE1715A4589334C74C7),
     (1, 0xBC3736A2F4F6779C59BDCEE36B692153D0A9877CC62A474002DF32E52139F0A0)]
     [(2, 0xEDD7E745BDC4630CCFA1DA1057033A525346DBF202F082F3C431349991ACE76A)] 0x00000002 = true := by decide

/-- V-FMUL-4. -/
theorem test_fmul_over_its_source :
    ends 0x17000001 [(0, 0x32C4AE2C1F1981195F9904466A39C9948FE30BBFF2660BE1715A4589334C74C7),
     (1, 0xBC3736A2F4F6779C59BDCEE36B692153D0A9877CC62A474002DF32E52139F0A0)]
     [(0, 0xEDD7E745BDC4630CCFA1DA1057033A525346DBF202F082F3C431349991ACE76A)] 0x00000002 = true := by decide

/-- V-FRED-1. -/
theorem test_fred_of_raw_p :
    ends 0x18020000 [(0, 0xFFFFFFFEFFFFFFFFFFFFFFFFFFFFFFFFFFFFFFFF00000000FFFFFFFFFFFFFFFF), (1, 0)]
     [(2, 0)] 0x00000002 = true := by decide

/-- V-FRED-2. -/
theorem test_fred_largest :
    ends 0x18020000 [(0, 0xFFFFFFFFFFFFFFFFFFFFFFFFFFFFFFFFFFFFFFFFFFFFFFFFFFFFFFFFFFFFFFFF),
     (1, 0xFFFFFFFFFFFFFFFFFFFFFFFFFFFFFFFFFFFFFFFFFFFFFFFFFFFFFFFFFFFFFFFF)]
     [(2, 0x400000002000000010000000100000002FFFFFFFF0000000200000002)] 0x00000002 = true := by decide

/-- V-FCAN-1. -/
theorem test_fcan_largest :
    ends 0x19010000 [(0, 0xFFFFFFFFFFFFFFFFFFFFFFFFFFFFFFFFFFFFFFFFFFFFFFFFFFFFFFFFFFFFFFFF)]
     [(1, 0x100000000000000000000000000000000FFFFFFFF0000000000000000)] 0x00000002 = true := by decide

/-- V-FCAN-3. -/
theorem test_fcan_copies :
    ends 0x19010000 [(0, 0x32C4AE2C1F1981195F9904466A39C9948FE30BBFF2660BE1715A4589334C74C7)]
     [(1, 0x32C4AE2C1F1981195F9904466A39C9948FE30BBFF2660BE1715A4589334C74C7)] 0x00000002 = true := by decide

/-- V-FISZ-1. -/
theorem test_fisz_of_zero :
    ends 0x1A000000 [(0, 0)]
     [] 0x00000022 = true := by decide

/-- V-FISZ-3. -/
theorem test_fisz_of_p_is_rejected :
    ends 0x1A000000 [(0, 0xFFFFFFFEFFFFFFFFFFFFFFFFFFFFFFFFFFFFFFFF00000000FFFFFFFFFFFFFFFF)]
     [] 0x00004006 = true := by decide

/-- V-F2ADD-1. -/
theorem test_f2add_wraps :
    ends 0x20040002 [(0, 0xFFFFFFFEFFFFFFFFFFFFFFFFFFFFFFFFFFFFFFFF00000000FFFFFFFFFFFFFFFE), (1, 1), (2, 1),
     (3, 0xFFFFFFFEFFFFFFFFFFFFFFFFFFFFFFFFFFFFFFFF00000000FFFFFFFFFFFFFFFE)]
     [(4, 0), (5, 0)] 0x00000002 = true := by decide

/-- V-F2ADD-2. -/
theorem test_f2add_random :
    ends 0x20040002 [(0, 0x123456789ABCDEF0123456789ABCDEF0123456789ABCDEF0123456789ABCDEF),
     (1, 0xFEDCBA9876543210FEDCBA9876543210FEDCBA9876543210FEDCBA9876543210),
     (2, 0x1111111111111111111111111111111111111111111111111111111111111111),
     (3, 0x2222222222222222222222222222222222222222222222222222222222222222)]
     [(4, 0x123456789ABCDF00123456789ABCDF00123456789ABCDF00123456789ABCDF00),
     (5, 0x20FEDCBB9876543320FEDCBA9876543320FEDCBB9876543220FEDCBA98765433)] 0x00000002 = true := by decide

/-- V-F2SUB-1. -/
theorem test_f2sub_below_zero :
    ends 0x21040002 [(0, 0), (1, 1), (2, 1), (3, 0)]
     [(4, 0xFFFFFFFEFFFFFFFFFFFFFFFFFFFFFFFFFFFFFFFF00000000FFFFFFFFFFFFFFFE), (5, 1)] 0x00000002 = true := by decide

/-- V-F2SUB-2. -/
theorem test_f2sub_random :
    ends 0x21040002 [(0, 0x123456789ABCDEF0123456789ABCDEF0123456789ABCDEF0123456789ABCDEF),
     (1, 0xFEDCBA9876543210FEDCBA9876543210FEDCBA9876543210FEDCBA9876543210),
     (2, 0x1111111111111111111111111111111111111111111111111111111111111111),
     (3, 0x2222222222222222222222222222222222222222222222222222222222222222)]
     [(4, 0xF0123455789ABCDDF0123456789ABCDDF0123455789ABCDEF0123456789ABCDD),
     (5, 0xDCBA987654320FEEDCBA987654320FEEDCBA987654320FEEDCBA987654320FEE)] 0x00000002 = true := by decide

/-- V-F2NEG-1. -/
theorem test_f2neg_keeps_zero :
    ends 0x22020000 [(0, 0), (1, 5)]
     [(2, 0), (3, 0xFFFFFFFEFFFFFFFFFFFFFFFFFFFFFFFFFFFFFFFF00000000FFFFFFFFFFFFFFFA)] 0x00000002 = true := by decide

/-- V-F2DBL-1. -/
theorem test_f2dbl_random :
    ends 0x23020000 [(0, 0xFFFFFFFEFFFFFFFFFFFFFFFFFFFFFFFFFFFFFFFF00000000FFFFFFFFFFFFFFFE),
     (1, 0x7FFFFFFF7FFFFFFFFFFFFFFFFFFFFFFFFFFFFFFF800000007FFFFFFFFFFFFFFF)]
     [(2, 0xFFFFFFFEFFFFFFFFFFFFFFFFFFFFFFFFFFFFFFFF00000000FFFFFFFFFFFFFFFD),
     (3, 0xFFFFFFFEFFFFFFFFFFFFFFFFFFFFFFFFFFFFFFFF00000000FFFFFFFFFFFFFFFE)] 0x00000002 = true := by decide

/-- V-F2SQR-1. -/
theorem test_f2sqr_of_u :
    ends 0x24020000 [(0, 0), (1, 1)]
     [(2, 0xFFFFFFFEFFFFFFFFFFFFFFFFFFFFFFFFFFFFFFFF00000000FFFFFFFFFFFFFFFD), (3, 0)] 0x00000002 = true := by decide

/-- V-F2SQR-2. -/
theorem test_f2sqr_random :
    ends 0x24020000 [(0, 0x123456789ABCDEF0123456789ABCDEF0123456789ABCDEF0123456789ABCDEF),
     (1, 0xFEDCBA9876543210FEDCBA9876543210FEDCBA9876543210FEDCBA9876543210)]
     [(2, 0x62ED0D379B2ECA54512429317B62BBCD0C8FA1FCF739F9EDEC161BA0409340D7),
     (3, 0x40BB624C28B653D620936A586E3CEF22568FE7E8AA2FAF87D4C2672B701570BF)] 0x00000002 = true := by decide

/-- V-F2MUL-3. -/
theorem test_f2mul_random :
    ends 0x25040002 [(0, 0x123456789ABCDEF0123456789ABCDEF0123456789ABCDEF0123456789ABCDEF),
     (1, 0xFEDCBA9876543210FEDCBA9876543210FEDCBA9876543210FEDCBA9876543210),
     (2, 0x1111111111111111111111111111111111111111111111111111111111111111),
     (3, 0x2222222222222222222222222222222222222222222222222222222222222222)]
     [(4, 0xE26AF3787839A5BBF623A67DB240795BF13579BBCAE75921EC474CFB6480F2B7),
     (5, 0x378607BC2248F8301282029423A67EAC1BC303DDF561783A25040528474CFD58)] 0x00000002 = true := by decide

/-- V-F2MUL-6. -/
theorem test_f2mul_over_its_sources :
    ends 0x25010002 [(0, 0x123456789ABCDEF0123456789ABCDEF0123456789ABCDEF0123456789ABCDEF),
     (1, 0xFEDCBA9876543210FEDCBA9876543210FEDCBA9876543210FEDCBA9876543210),
     (2, 0x1111111111111111111111111111111111111111111111111111111111111111),
     (3, 0x2222222222222222222222222222222222222222222222222222222222222222)]
     [(1, 0xE26AF3787839A5BBF623A67DB240795BF13579BBCAE75921EC474CFB6480F2B7),
     (2, 0x378607BC2248F8301282029423A67EAC1BC303DDF561783A25040528474CFD58)] 0x00000002 = true := by decide

/-- V-PZERO-1. -/
theorem test_pzero :
    ends 0x300A0000 []
     [(10, 1), (11, 1), (12, 0)] 0x00000002 = true := by decide

/-- V-PGEN-1. -/
theorem test_pgen :
    ends 0x31000000 []
     [(0, 0x32C4AE2C1F1981195F9904466A39C9948FE30BBFF2660BE1715A4589334C74C7),
     (1, 0xBC3736A2F4F6779C59BDCEE36B692153D0A9877CC62A474002DF32E52139F0A0), (2, 1)] 0x00000002 = true := by decide

/-- V-PISZ-2. -/
theorem test_pisz_of_a_point :
    ends 0x32000000 [(0, 0x32C4AE2C1F1981195F9904466A39C9948FE30BBFF2660BE1715A4589334C74C7),
     (1, 0xBC3736A2F4F6779C59BDCEE36B692153D0A9877CC62A474002DF32E52139F0A0), (2, 1)]
     [] 0x00000002 = true := by decide

/-- V-PISZ-3. -/
theorem test_pisz_of_any_infinity :
    ends 0x32000000 [(0, 5), (1, 7), (2, 0)]
     [] 0x00000022 = true := by decide

/-- V-PVAL-2. -/
theorem test_pval_with_z_2 :
    ends 0x33000000 [(0, 0xCB12B8B07C6604657E641119A8E726523F8C2EFFC9982F85C5691624CD31D31C),
     (1, 0xE1B9B51CA7B3BCE2CDEE771B5B490A9E854C3BEB315239FB16F9972909CF8505), (2, 2)]
     [] 0x00000202 = true := by decide

/-- V-PVAL-4. -/
theorem test_pval_of_infinity :
    ends 0x33000000 [(0, 1), (1, 1), (2, 0)]
     [] 0x00000002 = true := by decide

/-- V-PNEG-1. -/
theorem test_pneg :
    ends 0x34030000 [(0, 0x32C4AE2C1F1981195F9904466A39C9948FE30BBFF2660BE1715A4589334C74C7),
     (1, 0xBC3736A2F4F6779C59BDCEE36B692153D0A9877CC62A474002DF32E52139F0A0), (2, 1)]
     [(3, 0x32C4AE2C1F1981195F9904466A39C9948FE30BBFF2660BE1715A4589334C74C7),
     (4, 0x43C8C95C0B098863A642311C9496DEAC2F56788239D5B8C0FD20CD1ADEC60F5F), (5, 1)] 0x00000002 = true := by decide

/-- V-PNEG-2. -/
theorem test_pneg_of_infinity :
    ends 0x34030000 [(0, 1), (1, 1), (2, 0)]
     [(3, 1), (4, 0xFFFFFFFEFFFFFFFFFFFFFFFFFFFFFFFFFFFFFFFF00000000FFFFFFFFFFFFFFFE), (5, 0)] 0x00000002 = true := by decide

/-- V-PDBL-1. -/
theorem test_pdbl :
    ends 0x35030000 [(0, 0x32C4AE2C1F1981195F9904466A39C9948FE30BBFF2660BE1715A4589334C74C7),
     (1, 0xBC3736A2F4F6779C59BDCEE36B692153D0A9877CC62A474002DF32E52139F0A0), (2, 1)]
     [(3, 0xAAF267193307F0BC2CC50158A859C4D498A95A20C53D7E3E3FE035498A9CC3FB),
     (4, 0x9BD5CD4DA36E1FF5F34D9133C23ED44F9BB110028C1F5BE8CC53AA8AA621568A),
     (5, 0x786E6D46E9ECEF38B37B9DC6D6D242A7A1530EFA8C548E7F05BE65CA4273E141)] 0x00000002 = true := by decide

/-- V-PDBL-3. -/
theorem test_pdbl_with_y_zero :
    ends 0x35030000 [(0, 5), (1, 0), (2, 1)]
     [(3, 5184), (4, 0xFFFFFFFEFFFFFFFFFFFFFFFFFFFFFFFFFFFFFFFF00000000FFFFFFFFFFFA4DFF), (5, 0)] 0x00000002 = true := by decide

/-- V-PDBL5-1. -/
theorem test_pdbl5 :
    ends 0x36030000 [(0, 0x32C4AE2C1F1981195F9904466A39C9948FE30BBFF2660BE1715A4589334C74C7),
     (1, 0xBC3736A2F4F6779C59BDCEE36B692153D0A9877CC62A474002DF32E52139F0A0), (2, 1)]
     [(3, 0xB98084646788E224C500D3D5724D19B11D8520450D3D6DB697FF800D203B0096),
     (4, 0x4C05300DFE868731A1D8DDA18EE65A00F1024EADEDAA3FCC88DCDB4F64325AF8),
     (5, 0x87922BD33293CA04B5209142C0719A45FDC24556DD78E4A87B3AE2EBFF79EE67)] 0x00000002 = true := by decide

/-- V-PADD-1. -/
theorem test_padd :
    ends 0x37060003 [(0, 0x32C4AE2C1F1981195F9904466A39C9948FE30BBFF2660BE1715A4589334C74C7),
     (1, 0xBC3736A2F4F6779C59BDCEE36B692153D0A9877CC62A474002DF32E52139F0A0), (2, 1),
     (3, 0xAAF267193307F0BC2CC50158A859C4D498A95A20C53D7E3E3FE035498A9CC3FB),
     (4, 0x9BD5CD4DA36E1FF5F34D9133C23ED44F9BB110028C1F5BE8CC53AA8AA621568A),
     (5, 0x786E6D46E9ECEF38B37B9DC6D6D242A7A1530EFA8C548E7F05BE65CA4273E141)]
     [(6, 0x39F11EA8237B7ADCD38DE8AFA2DB016A1A5C26A2F2EBCEDFC69F39687A92584F),
     (7, 0x5D3BFC6902501A4914DF4A3D3D5085B37E8DFA52B48FC218C8DB01C859D16D75),
     (8, 0xA2ED3D8CC2B92C966F7CC3D314BB219C939BAD298AB1A429E39F11B86B3BD29B)] 0x00000002 = true := by decide

/-- V-PADD-3. -/
theorem test_padd_equal_points :
    ends 0x37060003 [(0, 0xAAF267193307F0BC2CC50158A859C4D498A95A20C53D7E3E3FE035498A9CC3FB),
     (1, 0x9BD5CD4DA36E1FF5F34D9133C23ED44F9BB110028C1F5BE8CC53AA8AA621568A),
     (2, 0x786E6D46E9ECEF38B37B9DC6D6D242A7A1530EFA8C548E7F05BE65CA4273E141),
     (3, 0xB865BBF2C485140491B541F8392EACB1386A4065C0C529CA39EA33138801832B),
     (4, 0xCB7613D5F88CD288FCED8C59422E76A99A3C7439BE042419C4197FC496AAF3B6),
     (5, 0x4B04FCF3657A8A8CE861506FDFBFD295694568DCD64FE5762834C887D12B28CA)]
     [(6, 0x4D7B40C590F44986CE5000CA80F1DCE60EB4FD79F5A0FAB6447FD5DF95FEEBCE),
     (7, 0x9BC7F13985E15FF28E2A9872BF78C8A8A58463316FBF522AD9964F10734ADB05),
     (8, 0x8B104308B15D54783F541998808628DC3D643B572A05404B8415A6FCE14625F)] 0x00000002 = true := by decide

/-- V-PSUB-1. -/
theorem test_psub_of_itself :
    ends 0x38060003 [(0, 0x32C4AE2C1F1981195F9904466A39C9948FE30BBFF2660BE1715A4589334C74C7),
     (1, 0xBC3736A2F4F6779C59BDCEE36B692153D0A9877CC62A474002DF32E52139F0A0), (2, 1),
     (3, 0x32C4AE2C1F1981195F9904466A39C9948FE30BBFF2660BE1715A4589334C74C7),
     (4, 0xBC3736A2F4F6779C59BDCEE36B692153D0A9877CC62A474002DF32E52139F0A0), (5, 1)]
     [(6, 1), (7, 1), (8, 0)] 0x00000002 = true := by decide

/-- V-PSUB-2. -/
theorem test_psub :
    ends 0x38060003 [(0, 0x39F11EA8237B7ADCD38DE8AFA2DB016A1A5C26A2F2EBCEDFC69F39687A92584F),
     (1, 0x5D3BFC6902501A4914DF4A3D3D5085B37E8DFA52B48FC218C8DB01C859D16D75),
     (2, 0xA2ED3D8CC2B92C966F7CC3D314BB219C939BAD298AB1A429E39F11B86B3BD29B),
     (3, 0x32C4AE2C1F1981195F9904466A39C9948FE30BBFF2660BE1715A4589334C74C7),
     (4, 0xBC3736A2F4F6779C59BDCEE36B692153D0A9877CC62A474002DF32E52139F0A0), (5, 1)]
     [(6, 0x4A931860AF4333D01C2C1D06CEDA52FA7BD01DC0695B5F62D1069CDF882645AA),
     (7, 0x5FB18745167B6FFCCBEC5C8B482EE36E2881E9BA49C2A52B4D9BCA6F4920EAE0),
     (8, 0xB5ECA79D8D35F2CED541F3FC2720CF0D3DBA73AFAED87A01299F709B3ADECF52)] 0x00000002 = true := by decide

/-- V-QZERO-1. -/
theorem test_qzero :
    ends 0x40140000 []
     [(20, 1), (21, 0), (22, 1), (23, 0), (24, 0), (25, 0)] 0x00000002 = true := by decide

/-- V-QGEN-1. -/
theorem test_qgen :
    ends 0x41000000 []
     [(0, 0x123456789ABCDEF0123456789ABCDEF0123456789ABCDEF0123456789ABCDEF),
     (1, 0xFEDCBA9876543210FEDCBA9876543210FEDCBA9876543210FEDCBA9876543210),
     (2, 0x1111111111111111111111111111111111111111111111111111111111111111),
     (3, 0x2222222222222222222222222222222222222222222222222222222222222222), (4, 1), (5, 0)] 0x00000002 = true := by decide

/-- V-QISZ-1. -/
theorem test_qisz_of_infinity :
    ends 0x42000000 [(0, 1), (1, 0), (2, 1), (3, 0), (4, 0), (5, 0)]
     [] 0x00000022 = true := by decide

/-- V-QISZ-2. -/
theorem test_qisz_tests_both_parts :
    ends 0x42000000 [(0, 1), (1, 0), (2, 1), (3, 0), (4, 0), (5, 5)]
     [] 0x00000002 = true := by decide

/-- V-QVAL-1. -/
theorem test_qval_of_the_generator :
    ends 0x43000000 [(0, 0x123456789ABCDEF0123456789ABCDEF0123456789ABCDEF0123456789ABCDEF),
     (1, 0xFEDCBA9876543210FEDCBA9876543210FEDCBA9876543210FEDCBA9876543210),
     (2, 0x1111111111111111111111111111111111111111111111111111111111111111),
     (3, 0x2222222222222222222222222222222222222222222222222222222222222222), (4, 1), (5, 0)]
     [] 0x00000202 = true := by decide

/-- V-QVAL-2. -/
theorem test_qval_off_the_curve :
    ends 0x43000000 [(0, 0x123456789ABCDEF0123456789ABCDEF0123456789ABCDEF0123456789ABCDEF),
     (1, 0xFEDCBA9876543210FEDCBA9876543210FEDCBA9876543210FEDCBA9876543210),
     (2, 0x1111111111111111111111111111111111111111111111111111111111111111),
     (3, 0x2222222222222222222222222222222222222222222222222222222222222223), (4, 1), (5, 0)]
     [] 0x00000002 = true := by decide

/-- V-QNEG-1. -/
theorem test_qneg :
    ends 0x44060000 [(0, 0x123456789ABCDEF0123456789ABCDEF0123456789ABCDEF0123456789ABCDEF),
     (1, 0xFEDCBA9876543210FEDCBA9876543210FEDCBA9876543210FEDCBA9876543210),
     (2, 0x1111111111111111111111111111111111111111111111111111111111111111),
     (3, 0x2222222222222222222222222222222222222222222222222222222222222222), (4, 1), (5, 0)]
     [(6, 0x123456789ABCDEF0123456789ABCDEF0123456789ABCDEF0123456789ABCDEF),
     (7, 0xFEDCBA9876543210FEDCBA9876543210FEDCBA9876543210FEDCBA9876543210),
     (8, 0xEEEEEEEDEEEEEEEEEEEEEEEEEEEEEEEEEEEEEEEDEEEEEEEFEEEEEEEEEEEEEEEE),
     (9, 0xDDDDDDDCDDDDDDDDDDDDDDDDDDDDDDDDDDDDDDDCDDDDDDDEDDDDDDDDDDDDDDDD), (10, 1), (11, 0)] 0x00000002 = true := by decide

/-- V-QDBL-1. -/
theorem test_qdbl :
    ends 0x45060000 [(0, 0x123456789ABCDEF0123456789ABCDEF0123456789ABCDEF0123456789ABCDEF),
     (1, 0xFEDCBA9876543210FEDCBA9876543210FEDCBA9876543210FEDCBA9876543210),
     (2, 0x1111111111111111111111111111111111111111111111111111111111111111),
     (3, 0x2222222222222222222222222222222222222222222222222222222222222222), (4, 1), (5, 0)]
     [(6, 0x4350671EAF021B260F6BDDE3FFE93EB7C2442FD0DC766EF025E4526BA444E361),
     (7, 0x6ABF46C302715892BF424BD39FAFBDBDA513CBA72670D9FB9270E33BF87069D6),
     (8, 0xB6438518E500EA423EA222F766B9C5C9B6A42E2E66759D0FD1DF08188541F6A3),
     (9, 0x4D6B2BD44D6E4BB27DE3CC2F7C27A864C657792FAF35D31CFCD6EDFE48FC79FF),
     (10, 0x2222222222222222222222222222222222222222222222222222222222222222),
     (11, 0x4444444444444444444444444444444444444444444444444444444444444444)] 0x00000002 = true := by decide

/-- V-QDBL-2. -/
theorem test_qdbl_of_infinity :
    ends 0x45060000 [(0, 1), (1, 0), (2, 1), (3, 0), (4, 0), (5, 0)]
     [(6, 1), (7, 0), (8, 1), (9, 0), (10, 0), (11, 0)] 0x00000002 = true := by decide

/-- V-QDBL5-1. -/
theorem test_qdbl5 :
    ends 0x46060000 [(0, 0x123456789ABCDEF0123456789ABCDEF0123456789ABCDEF0123456789ABCDEF),
     (1, 0xFEDCBA9876543210FEDCBA9876543210FEDCBA9876543210FEDCBA9876543210),
     (2, 0x1111111111111111111111111111111111111111111111111111111111111111),
     (3, 0x2222222222222222222222222222222222222222222222222222222222222222), (4, 1), (5, 0)]
     [(6, 0x8C3CC3202C798CCA48EAE06BE74CCF57CEF4BA30394776EB314B93F476DC7A28),
     (7, 0x216F0761892E1B2739BB0CEFDB9AFC2295AB0038803C005BB2114E4DC0406FF4),
     (8, 0xA2561125EA18E24D05E2375CA4AF9D99B9C4F430FC760F8B42E8B15383E248A),
     (9, 0x127802CF9ED4D7057A48E68D4292F171C9CA8B8EE2EB9F1031326D66B9B4BC77),
     (10, 0xD3E925CE0ECD7E2BDD7EC259C1BA30F31E3EDF3030C7D2702F2F75F7F2609A7D),
     (11, 0x670C6FA8E586E168E43A81CF1E2FC3FCA8648E047E8D63C182774DF50A354E45)] 0x00000002 = true := by decide

/-- V-QADD-1. -/
theorem test_qadd :
    ends 0x470C0006 [(0, 0x123456789ABCDEF0123456789ABCDEF0123456789ABCDEF0123456789ABCDEF),
     (1, 0xFEDCBA9876543210FEDCBA9876543210FEDCBA9876543210FEDCBA9876543210),
     (2, 0x1111111111111111111111111111111111111111111111111111111111111111),
     (3, 0x2222222222222222222222222222222222222222222222222222222222222222), (4, 1), (5, 0),
     (6, 0x4350671EAF021B260F6BDDE3FFE93EB7C2442FD0DC766EF025E4526BA444E361),
     (7, 0x6ABF46C302715892BF424BD39FAFBDBDA513CBA72670D9FB9270E33BF87069D6),
     (8, 0xB6438518E500EA423EA222F766B9C5C9B6A42E2E66759D0FD1DF08188541F6A3),
     (9, 0x4D6B2BD44D6E4BB27DE3CC2F7C27A864C657792FAF35D31CFCD6EDFE48FC79FF),
     (10, 0x2222222222222222222222222222222222222222222222222222222222222222),
     (11, 0x4444444444444444444444444444444444444444444444444444444444444444)]
     [(12, 0x107DABB663BBAB797F920EE2993FD9A97A7D9C559DBAC2AA4134DD8EC104A1E2),
     (13, 0x5FD892F2FDAC34D7433217BF2594C0BEB9F6A1556C770A215779D62D8FCF8D63),
     (14, 0xE092AD0F76ED911F475C88F04EBB1858B9EFB586EAD5E7FEF146765394E07502),
     (15, 0xBA2EB36DE1BBF19BA4C9B72A3215B9A2F7D3E2A2F79D20AE814DCEA56815CB0),
     (16, 0x868BF1B08DD84061D18AAF6236AA6484FBBB0B77831507287D6D8AEF68A79333),
     (17, 0x23690B2554EF7D488FAB7A0CDB3D3C7FA3AE91F6D84766D178004AB7902145F9)] 0x00000002 = true := by set_option maxRecDepth 4000 in decide

/-- V-QADD-3. -/
theorem test_qadd_of_the_negated :
    ends 0x470C0006 [(0, 0x123456789ABCDEF0123456789ABCDEF0123456789ABCDEF0123456789ABCDEF),
     (1, 0xFEDCBA9876543210FEDCBA9876543210FEDCBA9876543210FEDCBA9876543210),
     (2, 0x1111111111111111111111111111111111111111111111111111111111111111),
     (3, 0x2222222222222222222222222222222222222222222222222222222222222222), (4, 1), (5, 0),
     (6, 0x123456789ABCDEF0123456789ABCDEF0123456789ABCDEF0123456789ABCDEF),
     (7, 0xFEDCBA9876543210FEDCBA9876543210FEDCBA9876543210FEDCBA9876543210),
     (8, 0xEEEEEEEDEEEEEEEEEEEEEEEEEEEEEEEEEEEEEEEDEEEEEEEFEEEEEEEEEEEEEEEE),
     (9, 0xDDDDDDDCDDDDDDDDDDDDDDDDDDDDDDDDDDDDDDDCDDDDDDDEDDDDDDDDDDDDDDDD), (10, 1), (11, 0)]
     [(12, 1), (13, 0), (14, 1), (15, 0), (16, 0), (17, 0)] 0x00000002 = true := by set_option maxRecDepth 4000 in decide

/-- V-QSUB-1. -/
theorem test_qsub_of_itself :
    ends 0x480C0006 [(0, 0x123456789ABCDEF0123456789ABCDEF0123456789ABCDEF0123456789ABCDEF),
     (1, 0xFEDCBA9876543210FEDCBA9876543210FEDCBA9876543210FEDCBA9876543210),
     (2, 0x1111111111111111111111111111111111111111111111111111111111111111),
     (3, 0x2222222222222222222222222222222222222222222222222222222222222222), (4, 1), (5, 0),
     (6, 0x123456789ABCDEF0123456789ABCDEF0123456789ABCDEF0123456789ABCDEF),
     (7, 0xFEDCBA9876543210FEDCBA9876543210FEDCBA9876543210FEDCBA9876543210),
     (8, 0x1111111111111111111111111111111111111111111111111111111111111111),
     (9, 0x2222222222222222222222222222222222222222222222222222222222222222), (10, 1), (11, 0)]
     [(12, 1), (13, 0), (14, 1), (15, 0), (16, 0), (17, 0)] 0x00000002 = true := by set_option maxRecDepth 4000 in decide

/-- E-21. -/
theorem test_nop :
    ends 0x00000000 []
     [] 0x00000002 = true := by decide

/-- E-4. -/
theorem test_opcode_is_checked_before_reserved_bits :
    ends 0x08FFFFFF []
     [] 0x00001006 = true := by decide

/-- E-5. -/
theorem test_nop_with_a_bit_is_rejected :
    ends 0x00000001 []
     [] 0x00002006 = true := by decide

/-- E-7. -/
theorem test_cmp_with_rd_is_rejected :
    ends 0x03010001 [(0, 1), (1, 2)]
     [] 0x00002006 = true := by decide

/-- E-10. -/
theorem test_reserved_bit_is_checked_before_range :
    ends 0x373E0083 []
     [] 0x00002006 = true := by decide

/-- E-11. -/
theorem test_mul_past_w63_is_rejected :
    ends 0x043F0102 [(1, 5), (2, 7)]
     [] 0x00003006 = true := by decide

/-- E-17. -/
theorem test_padd_of_raw_p_is_rejected :
    ends 0x37060003 [(0, 0xFFFFFFFEFFFFFFFFFFFFFFFFFFFFFFFFFFFFFFFF00000000FFFFFFFFFFFFFFFF), (1, 1), (2, 1),
     (3, 1), (4, 0xFFFFFFFEFFFFFFFFFFFFFFFFFFFFFFFFFFFFFFFF00000000FFFFFFFFFFFFFFFF), (5, 1)]
     [] 0x00004006 = true := by decide

/-! ## The bus: the sequences of 95_test_vectors.md §9 -/

/-- B-1. -/
theorem test_control_registers_at_reset :
    answers State.reset
      [busRead 0x0000#14, busRead 0x0004#14, busRead 0x0010#14, busRead 0x000C#14, busRead 0x0008#14]
      [(some 0x474D5253, false), (some 1, false), (some 0, false), (some 0, false), (some 0, false)] =
      true := by decide

/-- B-3, B-4. -/
theorem test_refused_transfers :
    answers State.reset
      [busRead 0x0014#14, busWrite 0x0FFC#14 1#32, busRead 0x1800#14, busRead 0x1002#14,
       { busRead 0x000C#14 with be := 0b0011#4 }, { busWrite 0x1000#14 7#32 with be := 0b0001#4 }]
      [(some 0, true), (none, true), (some 0, true), (some 0, true), (some 0, true), (none, true)] =
      true := by decide

/-- B-5, the last word written: WBE word 7 is WLE word 0 with its bytes reversed. -/
theorem test_windows_reverse_bytes :
    answers State.reset
      [busWrite 0x201C#14 0x201F1E1D#32, busRead 0x1000#14, busWrite 0x2000#14 0x04030201#32,
       busRead 0x101C#14]
      [(none, false), (some 0x1D1E1F20, false), (none, false), (some 0x01020304, false)] = true := by decide

/-- B-9. -/
theorem test_rejection_is_acknowledged :
    answers State.reset
      [cmdWrite 0x00000000#32, cmdWrite 0x08000000#32, busRead 0x000C#14, busWrite 0x000C#14 4#32,
       busRead 0x000C#14]
      [(none, false), (none, false), (some 0x1006, false), (none, false), (some 2, false)] = true := by decide

/-- B-11. -/
theorem test_soft_reset_keeps_registers :
    answers State.reset
      [busWrite 0x1000#14 5#32, busWrite 0x0008#14 3#32, busRead 0x0008#14, busRead 0x000C#14,
       busRead 0x1000#14]
      [(none, false), (none, false), (some 0, false), (some 0, false), (some 5, false)] = true := by decide

/-- B-10: `irq` is DONE AND IRQ_EN, after a NOP with the interrupt enabled. -/
theorem test_irq_level :
    irq { State.reset with irqEn := true } = false ∧
    irq { State.reset with irqEn := true, status := { done := true } } = true ∧
    irq { State.reset with status := { done := true } } = false := by decide

/-! ## The evaluation methods -/

/-- 40_integer.md R70: a carry and a borrow across one limb. -/
theorem test_limb_chains :
    addLimbs [2 ^ 64 - 1, 0] [1, 0] 0 = ([0, 1], 0) ∧ subLimbs [0, 0] [1, 0] 0 = ([2 ^ 64 - 1, 2 ^ 64 - 1], 1) := by
  decide

/-- 40_integer.md R75: (2^256 − 1)² = 2^512 − 2^257 + 1. -/
theorem test_half_limb_multiplier :
    ofDigits 32 (mulHalfLimbs (2 ^ 256 - 1) (2 ^ 256 - 1)) + 2 * 2 ^ 256 =
      2 ^ 256 * 2 ^ 256 + 1 := by
  set_option maxRecDepth 20000 in decide

/-- 42_fp2.md R96 on 95_test_vectors.md V-F2MUL-2: (1 + u)(1 − u) = 1 − BETA = 3, for P = 7, BETA = −2. -/
theorem test_karatsuba : fp2MulKaratsuba 7 5 ⟨1, 1⟩ ⟨1, 6⟩ = ⟨3, 0⟩ := by decide

/-- 20_memory.md R42: the window of an engine based at 0x4000. -/
theorem test_bus_select :
    busSelect { Config.t1 with base := 0x4000 } 0x3FFF = none ∧
    busSelect { Config.t1 with base := 0x4000 } 0x7FFC = some 0x3FFC#14 ∧
    busSelect { Config.t1 with base := 0x4000 } 0x8000 = none := by decide

/-! ## Witnesses: states and operands that meet the hypotheses of the obligations -/

/-- A small engine: P = 7, BETA = 3, the G1 curve y² = x³ − 3x + 1, a G2 curve over the field with 49
elements, latency 2. -/
def tiny : Config where
  p := 7#256
  beta := 3#256
  b1 := 1#256
  a2 := (2#256, 1#256)
  b2 := (1#256, 3#256)
  gen1 := (4#256, 2#256)
  gen2 := ((1#256, 3#256), (2#256, 4#256))
  lat := Vector.replicate 256 2
  base := 0

theorem tiny_lat (o : Fin 256) : 1 ≤ tiny.lat[o] := by simp [tiny]

/-- The design-time constraints of 00_scope.md R8 can all be met. -/
theorem witness_valid_config : tiny.Valid where
  prime := by show Nat.Prime 7; norm_num
  odd := by decide
  beta_lt := by decide
  beta_nonresidue := by decide
  b1_lt := by decide
  a2_lt := by decide
  b2_lt := by decide
  gen1_lt := by decide
  gen2_lt := by decide
  gen1_valid := by decide
  gen2_valid := by decide
  lat_pos := tiny_lat
  base_aligned := by decide

/-- The small engine, every operand register 0. -/
def tinyZero : State := State.afterPowerOn tiny (Vector.replicate 64 0#256)

/-- The small engine with a G1 point at W0 and at W61, its negative at W3, infinity at W6. -/
def tinyG1 : State :=
  setRegs tinyZero
    [(0, 4), (1, 2), (2, 1), (3, 4), (4, 5), (5, 1), (6, 1), (7, 1), (61, 4), (62, 2), (63, 1)]

/-- The small engine with a G2 point at W0 and at W58. -/
def tinyG2 : State :=
  setRegs tinyZero
    [(0, 1), (1, 3), (2, 2), (3, 4), (4, 1), (58, 1), (59, 3), (60, 2), (61, 4), (62, 1)]

/-- The small engine with ADD w2, w0, w1 in flight, `n` cycles left. -/
def adding (n : Nat) : State :=
  { tinyG1 with
    status := { busy := true, ovr := true }
    inflight := some ⟨.add 2 0 1, [4#256], [2#256], n⟩ }

/-- A command whose checks pass completes on an idle engine. -/
theorem completes_here {i : Instr} {s : State} (hi : Idle s) (hc : check i s = none) :
    ∃ t, Completes i s t := by
  obtain ⟨f, hf, -, -⟩ := exec_eq_command i
  exact ⟨_, completes_of_command hf hi hc⟩

/-- The invariant says nothing about the host's program, the turns or the port. -/
theorem inv_schedule {s : State} (h : Inv s) (host : List Transfer) (sched : List Turn) (p : PortOut) :
    Inv { s with host := host, sched := sched, port := p } :=
  ⟨h.lat_pos, h.busy_iff, fun f hf => ⟨(h.inflight_ok f hf).1, (h.inflight_ok f hf).2,
    (check_congr rfl rfl).trans (h.inflight_ok f hf).3, (h.inflight_ok f hf).4,
    (h.inflight_ok f hf).5⟩, h.errcode_le, h.err_iff, h.busy_clear, h.order, h.in_reset⟩

theorem inv_adding (n : Nat) (h1 : 1 ≤ n) (h2 : n ≤ 2) : Inv (adding n) where
  lat_pos := tiny_lat
  busy_iff := rfl
  inflight_ok := fun f hf => by
    cases hf
    exact ⟨h1, h2, rfl, rfl, rfl⟩
  errcode_le := Nat.zero_le 4
  err_iff := rfl
  busy_clear := fun _ => ⟨rfl, rfl⟩
  order := ⟨rfl, rfl, rfl⟩
  in_reset := fun h => by cases h

/-- An idle state with DONE, the host about to make transfer `u`. -/
def doneState (u : Transfer) : State :=
  { tinyG1 with status := { done := true }, host := [u], sched := [.host] }

theorem inv_doneState (u : Transfer) : Inv (doneState u) where
  lat_pos := tiny_lat
  busy_iff := rfl
  inflight_ok := fun f hf => by cases hf
  errcode_le := Nat.zero_le 4
  err_iff := rfl
  busy_clear := fun h => by cases h
  order := ⟨rfl, rfl, rfl⟩
  in_reset := fun h => by cases h

/-- An idle state without DONE, the host about to make transfer `u`. -/
def freshState (u : Transfer) : State := { tinyG1 with host := [u], sched := [.host] }

theorem inv_freshState (u : Transfer) : Inv (freshState u) where
  lat_pos := tiny_lat
  busy_iff := rfl
  inflight_ok := fun f hf => by cases hf
  errcode_le := Nat.zero_le 4
  err_iff := rfl
  busy_clear := fun h => by cases h
  order := ⟨rfl, rfl, rfl⟩
  in_reset := fun h => by cases h

/-! The hypotheses that almost every statement about a command shares. -/

theorem witness_idle : Idle State.reset ∧ Idle tinyG1 ∧ Idle tinyG2 := by decide

theorem witness_groups_at_the_top :
    GroupBelowP tinyG1 0 3 ∧ GroupBelowP tinyG1 61 3 ∧ GroupBelowP tinyG1 62 2 ∧ GroupBelowP tinyG2 58 6 := by
  decide

/-! One witness for each obligation with hypotheses, in their order. -/

theorem witness_EncodeOfDecode : decode 0x373D3D3D#32 = .ok (.padd 61 61 61) := by decide

theorem witness_DecodingIsTotalAndRejectsByName :
    (∀ n ∈ [0x08, 0x0F, 0x1B, 0x1F, 0x26, 0x2F, 0x39, 0x3F, 0x49, 0xFF],
      ((0x08 ≤ n ∧ n ≤ 0x0F) ∨ (0x1B ≤ n ∧ n ≤ 0x1F) ∨ (0x26 ≤ n ∧ n ≤ 0x2F) ∨
        (0x39 ≤ n ∧ n ≤ 0x3F) ∨ 0x49 ≤ n) ∧ (BitVec.ofNat 32 (n * 2 ^ 24)).toNat / 2 ^ 24 = n) ∧
    ((0x30000100#32).toNat / 2 ^ 24 = (Instr.pzero 0).opc.toNat ∧
      0x30000100#32 &&& (Instr.pzero 0).format.mask &&& 0x00FFFFFF#32 ≠ 0#32) ∧
    ((0x303D0000#32).toNat / 2 ^ 24 = (Instr.pzero 0).opc.toNat ∧
      0x303D0000#32 &&& (Instr.pzero 0).format.mask &&& 0x00FFFFFF#32 = 0#32) := by decide

theorem witness_BusyCommandWriteOnlySetsOvr :
    (adding 1).status.busy = true ∧
    ∃ t, step (adding 1) = .next t ∧ (adding 1).status.ovr = true := ⟨rfl, _, rfl, rfl⟩

theorem witness_UndecodableWordIsRejected :
    State.reset.status.busy = false ∧
    (∀ i : Instr, i.opc.toNat ≠ (0x08FFFFFF#32).toNat / 2 ^ 24) ∧
    (Instr.nop.opc.toNat = (0x00000001#32).toNat / 2 ^ 24 ∧
      0x00000001#32 &&& Instr.nop.format.mask &&& 0x00FFFFFF#32 ≠ 0#32) ∧
    (Instr.nop.opc.toNat = (0x00000000#32).toNat / 2 ^ 24 ∧
      0x00000000#32 &&& Instr.nop.format.mask &&& 0x00FFFFFF#32 = 0#32) :=
  ⟨rfl, fun i => by cases i <;> simp [Instr.opc], by decide, by decide⟩

theorem witness_FailedChecksReject :
    Idle tinyG1 ∧
    (∃ o, ((Instr.qval 59).slots.rd = some o ∨ (Instr.qval 59).slots.rs1 = some o ∨
        (Instr.qval 59).slots.rs2 = some o) ∧ 63 < o.reg.val + o.ty.size - 1) ∧
    (let s := setRegs tinyZero [(63, 7)]
     (∀ o, ((Instr.pval 61).slots.rd = some o ∨ (Instr.pval 61).slots.rs1 = some o ∨
        (Instr.pval 61).slots.rs2 = some o) → o.reg.val + o.ty.size - 1 ≤ 63) ∧
      ∃ o, ((Instr.pval 61).slots.rs1 = some o ∨ (Instr.pval 61).slots.rs2 = some o) ∧
        o.ty.fpTyped = true ∧ ¬ GroupBelowP s o.reg o.ty.size) :=
  ⟨by decide, ⟨⟨59, .g2⟩, by decide⟩,
    ⟨fun o h => by rcases h with h | h | h <;> cases h; decide, ⟨61, .g1⟩, by decide⟩⟩

theorem witness_IssueKeepsSourcesAndLatency :
    Idle tinyG1 ∧ (Instr.padd 61 61 0).wellFormed = true ∧
    ∀ o, ((Instr.padd 61 61 0).slots.rs1 = some o ∨ (Instr.padd 61 61 0).slots.rs2 = some o) →
      o.ty.fpTyped = true → GroupBelowP tinyG1 o.reg o.ty.size :=
  ⟨by decide, by decide, fun o h _ => by rcases h with h | h <;> cases h <;> decide⟩

/-- NOP answers a next state and names no flag: it meets all four premises. -/
theorem witness_FlagsHaveOnlyTheirWriters :
    (∃ t, exec .nop State.reset = .next t) ∧
    writesC .nop = false ∧ writesOrder .nop = false ∧ writesZ .nop = false ∧ writesV .nop = false :=
  ⟨⟨_, rfl⟩, by decide⟩

/-- ADD w2, w0, w1 commits, and W3 lies just past its destination group. -/
theorem witness_OnlyTheDestinationIsWritten :
    (∃ t, exec (.add 2 0 1) (latencyRunOut (adding 1)) = .next t) ∧
    ∀ o, (Instr.add 2 0 1).slots.rd = some o → (3 : Nat) < o.reg.val ∨ o.reg.val + o.ty.size ≤ 3 :=
  ⟨⟨_, rfl⟩, fun o h => by cases h; decide⟩

theorem witness_FieldResultsAreCanonical :
    Idle tinyG1 ∧ 3 ≤ tinyG1.const.P ∧
    (tinyG1.const.gen1.1.toNat < tinyG1.const.P ∧ tinyG1.const.gen1.2.toNat < tinyG1.const.P) ∧
    (tinyG1.const.gen2.1.1.toNat < tinyG1.const.P ∧ tinyG1.const.gen2.1.2.toNat < tinyG1.const.P ∧
      tinyG1.const.gen2.2.1.toNat < tinyG1.const.P ∧ tinyG1.const.gen2.2.2.toNat < tinyG1.const.P) ∧
    (∃ t, Completes (.padd 61 61 0) tinyG1 t) ∧
    (Instr.padd 61 61 0).slots.rd = some ⟨61, .g1⟩ ∧ OperandTy.g1.fpTyped = true :=
  ⟨by decide, by decide, by decide, by decide, completes_here (by decide) (by decide), rfl, rfl⟩

theorem witness_NopCompletes :
    ((0x00FFFFFF#32).toNat < 2 ^ 24 ∧ 0x00FFFFFF#32 ≠ 0#32) ∧ Idle State.reset := by decide

theorem witness_AddAndSubResults : Idle State.reset := by decide

theorem witness_CompareResults : Idle tinyG1 ∧ (62 : Reg).val + 2 ≤ 64 := by decide

theorem witness_MulResult : Idle State.reset ∧ (62 : Reg).val + 2 ≤ 64 := by decide

theorem witness_WideAddAndSubResults : Idle tinyG1 ∧ (62 : Reg).val + 2 ≤ 64 := by decide

theorem witness_FieldLinearResults :
    let s := setRegs tinyZero [(0, 6), (63, 0)]
    Idle s ∧ s.w[(0 : Reg)].toNat < s.const.P ∧ s.w[(63 : Reg)].toNat < s.const.P := by decide

theorem witness_HalveResult :
    let s := setRegs tinyZero [(63, 6)]
    Idle s ∧ s.w[(63 : Reg)].toNat < s.const.P ∧ s.const.P % 2 = 1 := by decide

theorem witness_FieldProductResults :
    let s := setRegs tinyZero [(0, 6), (63, 6)]
    Idle s ∧ s.w[(0 : Reg)].toNat < s.const.P ∧ s.w[(63 : Reg)].toNat < s.const.P := by decide

theorem witness_ReductionResults :
    let s := setRegs tinyZero [(63, 6)]
    Idle s ∧ (62 : Reg).val + 2 ≤ 64 ∧ s.w[(63 : Reg)].toNat < s.const.P := by decide

theorem witness_FieldZeroTest :
    Idle State.reset ∧ State.reset.w[(63 : Reg)].toNat < State.reset.const.P := by decide

theorem witness_Fp2LinearResults :
    let s := setRegs tinyZero [(62, 6), (63, 6)]
    Idle s ∧ (62 : Reg).val + 2 ≤ 64 ∧ GroupBelowP s 62 2 := by decide

theorem witness_Fp2ProductResults :
    let s := setRegs tinyZero [(62, 6), (63, 6)]
    Idle s ∧ (62 : Reg).val + 2 ≤ 64 ∧ GroupBelowP s 62 2 := by decide

theorem witness_PointConstantsAreLoaded :
    Idle State.reset ∧ (61 : Reg).val + 3 ≤ 64 ∧ (58 : Reg).val + 6 ≤ 64 := by decide

theorem witness_MovesCopyTheirSource :
    Idle tinyG1 ∧ tinyG1.w[(63 : Reg)].toNat < tinyG1.const.P ∧
    (GroupBelowP tinyG1 62 2 ∧ (62 : Reg).val + 2 ≤ 64 ∧ ((61 : Reg).val ≤ (62 : Reg).val) ∧
      (60 : Reg).val + 2 ≤ (62 : Reg).val) ∧
    (GroupBelowP tinyG1 61 3 ∧ GroupBelowP tinyG1 6 3 ∧ regAt tinyG1.w 8 = 0#256) ∧
    (GroupBelowP tinyG1 58 6 ∧ GroupBelowP tinyG1 8 6 ∧ (58 : Reg).val + 6 ≤ 64 ∧
      regAt tinyG1.w 12 = 0#256 ∧ regAt tinyG1.w 13 = 0#256) := by decide

theorem witness_InfinityTests :
    Idle tinyG2 ∧ (61 : Reg).val + 3 ≤ 64 ∧ GroupBelowP tinyG2 61 3 ∧ (58 : Reg).val + 6 ≤ 64 ∧
    GroupBelowP tinyG2 58 6 := by decide

theorem witness_ValidityTests :
    Idle tinyG2 ∧ 3 ≤ tinyG2.const.P ∧ (61 : Reg).val + 3 ≤ 64 ∧ GroupBelowP tinyG2 61 3 ∧
    (58 : Reg).val + 6 ≤ 64 ∧ GroupBelowP tinyG2 58 6 := by decide

theorem witness_PointNegationResults :
    Idle tinyG2 ∧ (61 : Reg).val + 3 ≤ 64 ∧ GroupBelowP tinyG2 61 3 ∧ (58 : Reg).val + 6 ≤ 64 ∧
    GroupBelowP tinyG2 58 6 := by decide

theorem witness_G1DoubleResult :
    Idle tinyG1 ∧ 3 ≤ tinyG1.const.P ∧ (61 : Reg).val + 3 ≤ 64 ∧ GroupBelowP tinyG1 61 3 := by decide

theorem witness_G2DoubleResult : Idle tinyG2 ∧ (58 : Reg).val + 6 ≤ 64 ∧ GroupBelowP tinyG2 58 6 := by decide

theorem witness_FiveDoublingsInSequence :
    Idle tinyG2 ∧ (61 : Reg).val + 3 ≤ 64 ∧ GroupBelowP tinyG2 61 3 ∧ (58 : Reg).val + 6 ≤ 64 ∧
    GroupBelowP tinyG2 58 6 := by decide

theorem witness_G1SumResults :
    Idle tinyG1 ∧ 3 ≤ tinyG1.const.P ∧ (61 : Reg).val + 3 ≤ 64 ∧ GroupBelowP tinyG1 61 3 ∧
    GroupBelowP tinyG1 3 3 := by decide

theorem witness_G2SumResults :
    Idle tinyG2 ∧ (58 : Reg).val + 6 ≤ 64 ∧ GroupBelowP tinyG2 58 6 ∧ GroupBelowP tinyG2 0 6 := by decide

theorem witness_AddingAPointToItselfDoublesIt :
    (Idle tinyG1 ∧ (61 : Reg).val + 3 ≤ 64 ∧ GroupBelowP tinyG1 61 3 ∧ regAt tinyG1.w 63 ≠ 0#256) ∧
    (Idle tinyG2 ∧ (58 : Reg).val + 6 ≤ 64 ∧ GroupBelowP tinyG2 58 6 ∧
      ¬ (regAt tinyG2.w 62 = 0#256 ∧ regAt tinyG2.w 63 = 0#256)) := by decide

theorem witness_APointMinusItselfIsInfinity :
    Idle tinyG1 ∧ Nat.Prime tinyG1.const.P ∧ tinyG1.const.P ≠ 2 ∧ (61 : Reg).val + 3 ≤ 64 ∧
    GroupBelowP tinyG1 61 3 ∧ regAt tinyG1.w 62 ≠ 0#256 ∧ regAt tinyG1.w 63 ≠ 0#256 :=
  ⟨by decide, by show Nat.Prime 7; norm_num, by decide⟩

/-- The G2 clause, on the point at the top of the register file. -/
theorem witness_APointMinusItselfIsInfinity_G2 :
    (Idle tinyG2 ∧ Nat.Prime tinyG2.const.P ∧ tinyG2.const.P ≠ 2) ∧
    tinyG2.const.beta.toNat < tinyG2.const.P ∧
    (∀ x < tinyG2.const.P, x * x % tinyG2.const.P ≠ tinyG2.const.beta.toNat) ∧
    (58 : Reg).val + 6 ≤ 64 ∧ GroupBelowP tinyG2 58 6 ∧
    ¬ (regAt tinyG2.w 60 = 0#256 ∧ regAt tinyG2.w 61 = 0#256) ∧
    ¬ (regAt tinyG2.w 62 = 0#256 ∧ regAt tinyG2.w 63 = 0#256) :=
  ⟨⟨by decide, witness_valid_config.prime, by decide⟩, by decide, witness_valid_config.beta_nonresidue,
    by decide⟩

/-- The registers of `s` from `n` as a G1 point satisfy the curve equation, by the model's own test. -/
theorem g1_on_curve {s : State} {r : Reg} (hp : 3 ≤ s.const.P)
    (h : onCurve (fpOps s.const) (a1 s.const) s.const.b1.toNat
      ⟨(regAt s.w r.val).toNat, (regAt s.w (r.val + 1)).toNat, (regAt s.w (r.val + 2)).toNat⟩ = true) :
    OnCurve (-3) (s.const.b1.toNat : FpRing s.const) (g1At s r) := by
  have := ((fpOps_models s.const (by omega)).onCurve_iff _ _ _).mp h
  rw [cast_a1 _ hp] at this
  exact this

/-- The registers of `s` from `n` as a G2 point satisfy the curve equation, by the model's own test. -/
theorem g2_on_curve {s : State} {r : Reg} (hp : 0 < s.const.P)
    (h : onCurve (fp2Ops s.const) (Config.pair s.const.a2) (Config.pair s.const.b2)
      ⟨⟨(regAt s.w r.val).toNat, (regAt s.w (r.val + 1)).toNat⟩,
       ⟨(regAt s.w (r.val + 2)).toNat, (regAt s.w (r.val + 3)).toNat⟩,
       ⟨(regAt s.w (r.val + 4)).toNat, (regAt s.w (r.val + 5)).toNat⟩⟩ = true) :
    OnCurve (a2Ring s.const) (b2Ring s.const) (g2At s r) :=
  ((fp2Ops_models s.const hp).onCurve_iff _ _ _).mp h

theorem witness_PointCommandsStayOnTheCurve :
    (Idle tinyG1 ∧ 3 ≤ tinyG1.const.P ∧
      OnCurve (-3) (tinyG1.const.b1.toNat : FpRing tinyG1.const) (g1At tinyG1 61) ∧
      OnCurve (-3) (tinyG1.const.b1.toNat : FpRing tinyG1.const) (g1At tinyG1 6) ∧
      (∃ t, Completes (.pneg 3 61) tinyG1 t) ∧ (∃ t, Completes (.pdbl 3 61) tinyG1 t) ∧
      (∃ t, Completes (.pdbl5 3 61) tinyG1 t) ∧ (∃ t, Completes (.padd 3 61 6) tinyG1 t) ∧
      ∃ t, Completes (.psub 3 61 6) tinyG1 t) ∧
    (Idle tinyG2 ∧ OnCurve (a2Ring tinyG2.const) (b2Ring tinyG2.const) (g2At tinyG2 58) ∧
      OnCurve (a2Ring tinyG2.const) (b2Ring tinyG2.const) (g2At tinyG2 0) ∧
      (∃ t, Completes (.qneg 6 58) tinyG2 t) ∧ (∃ t, Completes (.qdbl 6 58) tinyG2 t) ∧
      (∃ t, Completes (.qdbl5 6 58) tinyG2 t) ∧ (∃ t, Completes (.qadd 6 58 0) tinyG2 t) ∧
      ∃ t, Completes (.qsub 6 58 0) tinyG2 t) := by
  refine ⟨⟨by decide, by decide, g1_on_curve (by decide) (by decide), g1_on_curve (by decide) (by decide),
    ?_, ?_, ?_, ?_, ?_⟩, by decide, g2_on_curve (by decide) (by decide),
    g2_on_curve (by decide) (by decide), ?_, ?_, ?_, ?_, ?_⟩ <;>
  exact completes_here (by decide) (by decide)

theorem witness_LimbChainsComputeSumAndDifference :
    2 ^ 256 - 1 < 2 ^ (64 * 4) ∧ 2 ^ 64 * 2 ^ 64 - 1 < 2 ^ (64 * 2) ∧ 0 < 2 ^ (64 * 0) := by decide

theorem witness_HalfLimbMultiplierIsExact : 2 ^ 256 - 1 < 2 ^ 256 ∧ 0 < 2 ^ 256 := by decide

theorem witness_KaratsubaGivesTheProduct : (⟨6, 6⟩ : Fp2).re < 7 ∧ (⟨6, 6⟩ : Fp2).im < 7 := by decide

theorem witness_Minus3SequenceGivesTheDouble :
    3 ≤ tiny.P ∧ tiny.P % 2 = 1 ∧ (⟨6, 6, 6⟩ : Point Nat).x < tiny.P := by decide

theorem witness_MulThenReduceIsFieldMul :
    Idle tinyG1 ∧ (62 : Reg).val + 2 ≤ 64 ∧ tinyG1.w[(0 : Reg)].toNat < tinyG1.const.P ∧
    tinyG1.w[(1 : Reg)].toNat < tinyG1.const.P := by decide

/-- The grounds of refusal of 20_memory.md R43 and R44. -/
abbrev Bad (t : Transfer) : Prop :=
  t.addr.toNat % 4 ≠ 0 ∨ t.be ≠ 0b1111#4 ∨ (0x0014 ≤ t.addr.toNat ∧ t.addr.toNat ≤ 0x0FFF) ∨
    (0x1800 ≤ t.addr.toNat ∧ t.addr.toNat ≤ 0x1FFF) ∨ (0x2800 ≤ t.addr.toNat ∧ t.addr.toNat ≤ 0x3FFF)

/-- Each ground of refusal, at the ends of the reserved ranges, and offsets beside them that are served. -/
theorem witness_RefusedTransfersHaveNoEffect :
    Bad (busRead 0x0011#14) ∧ Bad { busRead 0x0010#14 with be := 0b0111#4 } ∧
    (∀ a ∈ [0x0014#14, 0x0FFC#14, 0x1800#14, 0x1FFC#14, 0x2800#14, 0x3FFC#14], Bad (busRead a)) ∧
    (∀ a ∈ [0x0000#14, 0x0010#14, 0x1000#14, 0x17FC#14, 0x2000#14, 0x27FC#14], ¬ Bad (busRead a)) ∧
    ∃ u, transfer exec (busRead 0x0010#14) State.reset = .next u :=
  ⟨by decide, by decide, by simp [Bad, busRead], by simp [busRead], _, rfl⟩

theorem witness_ControlRegisterWrites : (2#32).getLsbD 0 = false ∧ State.reset.rstN = true := by decide

theorem witness_WindowReads : 7 < 8 ∧ 3 < 4 := by decide

theorem witness_WindowRoundTrip : State.reset.status.busy = false ∧ State.reset.rstN = true := by decide

theorem witness_WindowTransfersStallWhileBusy :
    let s := { adding 1 with host := [busRead (wbeOffset 63 7)], sched := [.host] }
    s.status.busy = true ∧ turnOf s = .host ∧ s.host = busRead (wbeOffset 63 7) :: [] ∧
    (busRead (wbeOffset 63 7)).be = 0b1111#4 ∧
    (busRead (wleOffset 63 7)).addr = wleOffset 63 7 ∧ (busRead (wbeOffset 63 7)).addr = wbeOffset 63 7 ∧
    turnOf { s with sched := [.pass] } = .pass ∧
    (∃ t, step { s with host := s.host ++ [busRead 0x000C#14], sched := [.pass] } = .next t) :=
  ⟨by decide, by decide, by decide, by decide, by decide, by decide, by decide, _, rfl⟩

theorem witness_ReadsHaveNoSideEffect : (busRead 0x3FFF#14).we = false := by decide

/-- A window read stalled behind ADD, and the CTRL write of a soft reset that is to pass it. -/
def stalled : State :=
  { adding 2 with host := [busRead (wbeOffset 63 7), busWrite 0x0008#14 3#32], sched := [.pass, .host] }

theorem witness_SoftResetKeepsRegisters :
    (3#32).getLsbD 0 = true ∧ stalled.rstN = true ∧ turnOf stalled = .pass ∧
    stalled.host = busRead (wbeOffset 63 7) :: busWrite 0x0008#14 3#32 :: [] ∧
    held stalled (busRead (wbeOffset 63 7)) = true ∧
    turnOf { stalled with sched := stalled.sched.tail } = .host := by decide

/-- 70_reset_and_hazards.md R154: the soft reset ends the stall, and the read returns W63, which is 1, its
last byte in lane 3, the destination of the dropped ADD as it was. -/
theorem test_soft_reset_ends_a_stall :
    (match Host.Core.run core 2 stalled with
      | .next t => (let t : State := t; t.port.rdata == some 0x01000000#32 && t.host == [] && regAt t.w 2 == 1#256 &&
          t.status == {})
      | _ => false) = true := by
  set_option maxRecDepth 4000 in decide

theorem witness_PowerOnResetState :
    turnOf { adding 1 with sched := [.rst false] } = .rst false ∧
    turnOf { adding 1 with sched := [.rst true] } = .rst true ∧
    HostTurn { State.reset with sched := [.host], rstN := false } ∧
    HostTurn { State.reset with sched := [.pass], rstN := false } := by decide

theorem witness_DoneRisesAndFallsAsStated :
    (∃ t, Inv { adding 1 with sched := [.engine] } ∧ step { adding 1 with sched := [.engine] } = .next t ∧
      (adding 1).status.done = false ∧ t.status.done = true) ∧
    (∃ t, Inv (freshState (cmdWrite 0x08000000#32)) ∧
      step (freshState (cmdWrite 0x08000000#32)) = .next t ∧
      (freshState (cmdWrite 0x08000000#32)).status.done = false ∧ t.status.done = true) ∧
    (∃ t, Inv (doneState (busWrite 0x000C#14 2#32)) ∧
      step (doneState (busWrite 0x000C#14 2#32)) = .next t ∧
      (doneState (busWrite 0x000C#14 2#32)).status.done = true ∧ t.status.done = false) ∧
    (∃ t, Inv (doneState (cmdWrite 0#32)) ∧ step (doneState (cmdWrite 0#32)) = .next t ∧
      (doneState (cmdWrite 0#32)).status.done = true ∧ t.status.done = false) ∧
    ∃ t, Inv (doneState (busWrite 0x0008#14 1#32)) ∧
      step (doneState (busWrite 0x0008#14 1#32)) = .next t ∧
      (doneState (busWrite 0x0008#14 1#32)).status.done = true ∧ t.status.done = false :=
  ⟨⟨_, inv_schedule (inv_adding 1 (by decide) (by decide)) _ _ _, rfl, rfl, rfl⟩,
   ⟨_, inv_freshState _, rfl, rfl, rfl⟩, ⟨_, inv_doneState _, rfl, rfl, rfl⟩, ⟨_, inv_doneState _, rfl, rfl, rfl⟩,
   ⟨_, inv_doneState _, rfl, rfl, rfl⟩⟩

theorem witness_StepRunsDecodedCommand :
    (turnOf stalled = .pass ∧
      stalled.host = [busRead (wbeOffset 63 7)] ++ busWrite 0x0008#14 3#32 :: [] ∧
      (∀ v ∈ [busRead (wbeOffset 63 7)], held stalled v = true) ∧
      held stalled (busWrite 0x0008#14 3#32) = false) ∧
    (let s := { State.reset with host := [busRead 0x27FC#14, busWrite 0x000C#14 2#32], sched := [.host] }
     turnOf s = .host ∧ s.host = busRead 0x27FC#14 :: [busWrite 0x000C#14 2#32] ∧
     held s (busRead 0x27FC#14) = false) ∧
    (let s := { adding 1 with host := [busWrite 0x000C#14 2#32], sched := [.host] }
     turnOf s = .host ∧ s.host = busWrite 0x000C#14 2#32 :: [] ∧ held s (busWrite 0x000C#14 2#32) = false) ∧
    (let s := { State.reset with host := [cmdWrite 0x37060003#32], sched := [.host] }
     turnOf s = .host ∧ s.host = cmdWrite 0x37060003#32 :: [] ∧ s.rstN = true ∧ s.status.busy = false) ∧
    decode 0x37060003#32 = .ok (.padd 6 0 3) ∧ decodeTableWord 32 0x37060003 = some (.padd 6 0 3) ∧
    (let s := { adding 1 with sched := [.engine] }
     turnOf s = .engine ∧ s.inflight = some ⟨.add 2 0 1, [4#256], [2#256], 1⟩) := by decide

theorem witness_CommandCommitsAfterItsLatency :
    Inv (adding 2) ∧ (adding 2).inflight = some ⟨.add 2 0 1, [4#256], [2#256], 2⟩ :=
  ⟨inv_adding 2 (by decide) (by decide), rfl⟩

theorem witness_ConstantStoreNeverChanges : ∃ t, step (adding 2) = .next t := ⟨_, rfl⟩

theorem witness_EveryStepKeepsInvariant : ∃ t, Inv (adding 2) ∧ step (adding 2) = .next t :=
  ⟨_, inv_adding 2 (by decide) (by decide), rfl⟩

/-- A state with W0 and W1 wholly written, about to run ADD w2, w0, w1. -/
def written01 : State :=
  { freshState (cmdWrite 0x01020001#32) with
    written := (State.noneWritten.set 0 (Vector.replicate 8 true)).set 1 (Vector.replicate 8 true) }

theorem inv_written01 : Inv written01 where
  lat_pos := tiny_lat
  busy_iff := rfl
  inflight_ok := fun f hf => by cases hf
  errcode_le := Nat.zero_le 4
  err_iff := rfl
  busy_clear := fun h => by cases h
  order := ⟨rfl, rfl, rfl⟩
  in_reset := fun h => by cases h

/-- Two states that differ in an unwritten register, about to run a command whose sources are written. -/
theorem witness_UnwrittenWordsDoNotMatter :
    let s' := { written01 with w := written01.w.set 5 9#256 }
    ∃ t t', Inv written01 ∧ AgreeOnWritten written01 s' ∧ written01.w[5] ≠ s'.w[5] ∧
      stepReadsWritten written01 = true ∧ step written01 = .next t ∧ step s' = .next t' := by
  refine ⟨_, _, inv_written01, ⟨rfl, fun r k hk => ?_⟩, by decide, by decide, rfl, rfl⟩
  by_cases hr : r = 5
  · subst hr
    revert hk
    fin_cases k <;> decide
  · have : (5 : Nat) ≠ r.val := fun e => hr (Fin.ext e.symm)
    simp [this]

end Sys2Proof.Tests
end

section
/-! SUPPORT. Proofs about the state (10_state.md): what a command's result may be, the invariant that every
step keeps, that no run depends on an unwritten word, and the control registers. -/

namespace Sys2Proof.Machine

/-! ### What a command can do, with what its result may be -/

section Commands
variable {i : Instr} {s t : State}

/-- At most one of LT, EQ and GT is set by this write of the flags (10_state.md R27). -/
def FlagWrite.AtMostOneOrder : FlagWrite → Prop
  | .order l e g => (l && e) = false ∧ (l && g) = false ∧ (e && g) = false
  | .none | .carry _ | .zero _ | .valid _ => True

/-- What holds of every result of the command: it fills the destination group, names only the command's own
flags, and sets at most one of LT, EQ and GT. -/
structure ResultOk (i : Instr) (r : Result) : Prop where
  length_dest : r.dest.length = i.slots.rd.elim 0 fun d => d.ty.size
  allowed : flagsAllowed i r.flags = true
  order : r.flags.AtMostOneOrder

/-- A comparison finds one relation (40_integer.md R73, R78). -/
theorem atMostOneOrder_compareFlags (a b : Nat) : (compareFlags a b).AtMostOneOrder := by
  simp only [compareFlags, FlagWrite.AtMostOneOrder, Bool.and_eq_false_iff, decide_eq_false_iff_not]
  omega

/-- A command that is no comparison writes none of LT, EQ and GT. -/
theorem atMostOneOrder_of_flagsAllowed {g : FlagWrite} (hi : writesOrder i = false)
    (hg : flagsAllowed i g = true) : g.AtMostOneOrder := by
  cases g with
  | order l e g => exact absurd (hi.symm.trans hg) Bool.false_ne_true
  | none | carry _ | zero _ | valid _ => trivial

/-- The comparisons are CMP and CMPW (10_state.md R27). -/
theorem writesOrder_eq_true (h : writesOrder i = true) :
    (∃ a b, i = .cmp a b) ∨ ∃ a b, i = .cmpw a b := by
  cases i
  case cmp a b => exact .inl ⟨a, b, rfl⟩
  case cmpw a b => exact .inr ⟨a, b, rfl⟩
  all_goals exact absurd h Bool.false_ne_true

/-- Every command runs one rule, which reads only the parameters and the latched sources. -/
theorem exists_rule (i : Instr) : ∃ f : Config → Latched → Result,
    (∀ s, exec i s = command i s f) ∧ ∀ c o, ResultOk i (f c o) := by
  cases hi : writesOrder i with
  | false =>
    obtain ⟨f, hf, hl, ha⟩ := exec_eq_command i
    exact ⟨f, hf, fun c o => ⟨hl c o, ha c o, atMostOneOrder_of_flagsAllowed hi (ha c o)⟩⟩
  | true =>
    obtain ⟨a, b, rfl⟩ | ⟨a, b, rfl⟩ := writesOrder_eq_true hi
    · exact ⟨_, fun s => by unfold exec; rfl, fun c o => ⟨rfl, rfl, atMostOneOrder_compareFlags _ _⟩⟩
    · exact ⟨_, fun s => by unfold exec; rfl, fun c o => ⟨rfl, rfl, atMostOneOrder_compareFlags _ _⟩⟩

/-- Everything `exec` can do with a command. -/
theorem exec_cases (h : exec i s = .next t) :
    (s.status.busy = true ∧ t = overrun s ∧
      ¬ ∃ g, s.inflight = some g ∧ g.remaining = 0 ∧ g.cmd = i) ∨
    (∃ r, s.status.busy = true ∧ ResultOk i r ∧ t = commit i r s) ∨
    (∃ e, s.status.busy = false ∧ check i s = some e ∧ t = reject e s) ∨
    (s.status.busy = false ∧ check i s = none ∧ t = issue i s) := by
  obtain ⟨f, hf, hr⟩ := exists_rule i
  rw [hf] at h
  obtain h | ⟨g, hb, -, -, -, rfl⟩ | h | h := command_cases h
  · exact .inl h
  · exact .inr (.inl ⟨_, hb, hr _ _, rfl⟩)
  · exact .inr (.inr (.inl h))
  · exact .inr (.inr (.inr h))

/-- The condition flags of STATUS that the command does not own are left as they are (10_state.md R30). -/
theorem apply_keeps_foreign_flags {g : FlagWrite} (st : Status) (hg : flagsAllowed i g = true) :
    (writesC i = false → (g.apply st).c = st.c) ∧
    (writesOrder i = false →
      (g.apply st).lt = st.lt ∧ (g.apply st).eq = st.eq ∧ (g.apply st).gt = st.gt) ∧
    (writesZ i = false → (g.apply st).z = st.z) ∧
    (writesV i = false → (g.apply st).v = st.v) := by
  cases g with
  | none => simp [FlagWrite.apply]
  | carry b => simp [FlagWrite.apply, show writesC i = true from hg]
  | order l e g => simp [FlagWrite.apply, show writesOrder i = true from hg]
  | zero b => simp [FlagWrite.apply, show writesZ i = true from hg]
  | valid b => simp [FlagWrite.apply, show writesV i = true from hg]

/-- Settles O10: a commit applies only the flags its command owns, and a command that does not commit
writes none. -/
theorem flagsHaveOnlyTheirWriters : Obligations.FlagsHaveOnlyTheirWriters := by
  unfold Obligations.FlagsHaveOnlyTheirWriters
  intro i s t h
  obtain ⟨-, rfl, -⟩ | ⟨r, -, hr, rfl⟩ | ⟨e, -, -, rfl⟩ | ⟨-, -, rfl⟩ := exec_cases h
  · simp
  · simpa using apply_keeps_foreign_flags s.status hr.allowed
  · simp
  · simp

/-- Settles O11: only a commit writes registers and marks, and it writes those of the destination group. -/
theorem onlyTheDestinationIsWritten : Obligations.OnlyTheDestinationIsWritten := by
  unfold Obligations.OnlyTheDestinationIsWritten
  intro i s t h
  obtain ⟨hb, rfl, -⟩ | ⟨r, hb, hr, rfl⟩ | ⟨e, hb, -, rfl⟩ | ⟨hb, -, rfl⟩ := exec_cases h
  · simp [hb]
  · refine ⟨fun n hn => ⟨?_, ?_⟩, by simp⟩
    · simpa using writeSlot_outside s.w r.dest i.slots.rd n hr.length_dest hn
    · simpa using markSlot_outside s.written i.slots.rd n hn
  · simp [hb]
  · simp [hb]

end Commands

/-! ### The constant store -/

section ConstantStore
variable {s t : State}

/-- A command leaves the parameters as they are. -/
theorem exec_const {i : Instr} (h : exec i s = .next t) : t.const = s.const :=
  (onlyTheDestinationIsWritten i s t h).2.1

/-- A CTRL write leaves the parameters as they are. -/
@[simp] theorem writeCtrl_const (s : State) (v : Word) : (writeCtrl s v).const = s.const := by
  unfold writeCtrl
  split <;> rfl

/-- A move of the reset pin leaves the parameters as they are (70_reset_and_hazards.md R153). -/
@[simp] theorem resetTurn_const (level : Bool) (s : State) : (resetTurn level s).const = s.const := by
  cases level <;> simp [resetTurn]

/-- A transfer leaves the parameters as they are. -/
theorem transfer_const {u : Transfer} (h : transfer exec u s = .next t) : t.const = s.const := by
  obtain ⟨-, rfl⟩ | ⟨-, -, rfl⟩ | ⟨-, -, h⟩ := transfer_cases h
  · rfl
  · rfl
  · obtain ⟨-, rfl⟩ | ⟨-, rfl⟩ | ⟨-, rfl⟩ | ⟨-, -, rfl⟩ | ⟨e, -, -, -, rfl⟩ | ⟨i, -, -, -, hx⟩ |
      ⟨r, k, -, rfl⟩ | ⟨r, k, -, rfl⟩ := h
    · rfl
    · simp
    · simp
    · simp
    · simp
    · simpa using exec_const hx
    · simp
    · simp

/-- Settles O56, turn by turn. -/
theorem constantStoreNeverChanges : Obligations.ConstantStoreNeverChanges := by
  unfold Obligations.ConstantStoreNeverChanges
  intro s t h
  obtain ⟨-, -, rfl⟩ | ⟨f, -, -, -, rfl⟩ | ⟨f, -, -, -, hx⟩ | ⟨-, -, rfl⟩ | ⟨u, rest, -, -, hx⟩ |
    ⟨level, -, rfl⟩ := step_cases h
  · simp
  · simp
  · simpa using exec_const hx
  · simp
  · simpa using transfer_const hx
  · simp

end ConstantStore

/-! ### Reads and writes of the control registers -/

section ControlRegisters
variable {run : Instr → State → Host.Outcome State Fault Refusal}

/-- A 32-bit read of an offset that is served. -/
theorem transfer_busRead {a : BitVec 14} (s : State) (h : (busRead a).refused = false) :
    transfer run (busRead a) s = .next { s with port := .read (readTarget s (target a)) } := by
  rw [transfer, h]
  rfl

/-- A 32-bit write to an offset that is served. -/
theorem transfer_busWrite {a : BitVec 14} (s : State) (v : Word) (h : (busRead a).refused = false) :
    transfer run (busWrite a v) s = writeTarget run { s with port := .wrote } v (target a) := by
  have h : (busWrite a v).refused = false := h
  rw [transfer, h]
  rfl

/-- CTRL as it reads (10_state.md R32). -/
theorem ctrlWord_eq (s : State) : ctrlWord s = if s.irqEn then 2#32 else 0#32 := by
  unfold ctrlWord
  cases s.irqEn <;> rfl

/-- A transfer to no operand window is not held while `rst_n` is high, BUSY or not (20_memory.md R50). -/
theorem held_of_not_toWindow {s : State} {t : Transfer} (hr : s.rstN = true) (ht : t.toWindow = false) :
    held s t = false := by
  simp [held, hr, ht]

/-- The control registers are served and are in no operand window (20_memory.md R42). -/
theorem controlOffset_served : ∀ a ∈ [0x0000#14, 0x0004#14, 0x0008#14, 0x000C#14, 0x0010#14],
    (busRead a).refused = false ∧ (busRead a).toWindow = false := by
  intro a ha
  simp only [List.mem_cons, List.not_mem_nil, or_false] at ha
  obtain rfl | rfl | rfl | rfl | rfl := ha <;> decide

/-- STATUS after the acknowledgement of a completion or an error (10_state.md R31). -/
theorem acknowledge_eq (v : Word) (st : Status) : st.acknowledge v = { st with
    done := if v.getLsbD 1 then false else st.done
    err := if v.getLsbD 2 then false else st.err
    errcode := if v.getLsbD 2 then 0#4 else st.errcode
    ovr := if v.getLsbD 3 then false else st.ovr } := by
  unfold Status.acknowledge
  cases v.getLsbD 1 <;> cases v.getLsbD 2 <;> cases v.getLsbD 3 <;> simp

/-- Settles O44: each control register is served, and reads as its own word. -/
theorem controlRegisterReads : Obligations.ControlRegisterReads := by
  unfold Obligations.ControlRegisterReads
  intro s
  dsimp only
  have served := controlOffset_served
  refine ⟨transfer_busRead s (served _ (by decide)).1, transfer_busRead s (served _ (by decide)).1,
    transfer_busRead s (served _ (by decide)).1, ?_, s.status.toWord,
    transfer_busRead s (served _ (by decide)).1, ?_⟩
  · rw [← ctrlWord_eq]
    exact transfer_busRead s (served _ (by decide)).1
  · simp only [toWord_getLsbD, toWord_fields, and_self]

/-- Settles O45: each control register is served, its write is its own update, and none is in a window. -/
theorem controlRegisterWrites : Obligations.ControlRegisterWrites := by
  unfold Obligations.ControlRegisterWrites
  intro s v
  dsimp only
  have served := controlOffset_served
  refine ⟨?_, fun hv => ?_, transfer_busWrite s v (served _ (by decide)).1,
    transfer_busWrite s v (served _ (by decide)).1, fun hr a ha => ?_⟩
  · rw [← acknowledge_eq]
    exact transfer_busWrite s v (served _ (by decide)).1
  · rw [transfer_busWrite s v (served _ (by decide)).1]
    exact congrArg Host.Outcome.next (writeCtrl_irqEn _ hv)
  · exact ⟨held_of_not_toWindow hr (served a ha).2, held_of_not_toWindow hr (served a ha).2⟩

end ControlRegisters

end Sys2Proof.Machine
end

section
/-! SUPPORT. Every step keeps the invariant (10_state.md R25, R27; 45_control.md R133; 60_exceptions.md
R139; 70_reset_and_hazards.md R153). -/

namespace Sys2Proof.Machine

variable {i : Instr} {s t : State}

/-! ### The invariant's part about STATUS -/

/-- What the invariant says of STATUS alone. -/
structure StatusOk (st : Status) : Prop where
  errcode_le : st.errcode.toNat ≤ 4
  err_iff : st.err = decide (st.errcode ≠ 0#4)
  busy_clear : st.busy = true → st.done = false ∧ st.err = false
  order : (st.lt && st.eq) = false ∧ (st.lt && st.gt) = false ∧ (st.eq && st.gt) = false

/-- STATUS in a state of the invariant. -/
theorem Inv.statusOk (h : Inv s) : StatusOk s.status :=
  ⟨h.errcode_le, h.err_iff, h.busy_clear, h.order⟩

/-- STATUS after a reset. -/
theorem statusOk_reset : StatusOk {} where
  errcode_le := Nat.zero_le 4
  err_iff := rfl
  busy_clear := nofun
  order := ⟨rfl, rfl, rfl⟩

/-- The error codes are 1 to 4 (60_exceptions.md R139). -/
theorem code_range (e : Reject) : e.code.toNat ≤ 4 ∧ e.code ≠ 0#4 := by
  cases e <;> decide

/-- A rejection sets ERR with a code. -/
theorem StatusOk.reject {e : Reject} (h : StatusOk s.status) (hb : s.status.busy = false) :
    StatusOk (reject e s).status where
  errcode_le := (code_range e).1
  err_iff := (decide_eq_true (code_range e).2).symm
  busy_clear hb' := absurd (hb.symm.trans hb') Bool.false_ne_true
  order := h.order

/-- An overrun sets OVR alone. -/
theorem StatusOk.overrun (h : StatusOk s.status) : StatusOk (overrun s).status :=
  ⟨h.errcode_le, h.err_iff, h.busy_clear, h.order⟩

/-- Issue clears DONE, ERR and ERRCODE. -/
theorem StatusOk.issue (h : StatusOk s.status) : StatusOk (issue i s).status where
  errcode_le := Nat.zero_le 4
  err_iff := rfl
  busy_clear _ := ⟨rfl, rfl⟩
  order := h.order

/-- A command's flags set at most one of LT, EQ and GT, or leave them as they are. -/
theorem StatusOk.apply_order {st : Status} {g : FlagWrite} (h : StatusOk st) (hg : g.AtMostOneOrder) :
    ((g.apply st).lt && (g.apply st).eq) = false ∧ ((g.apply st).lt && (g.apply st).gt) = false ∧
      ((g.apply st).eq && (g.apply st).gt) = false := by
  cases g with
  | order l e g => exact hg
  | none | carry _ | zero _ | valid _ => exact h.order

/-- A commit clears BUSY, sets DONE and writes the command's flags. -/
theorem StatusOk.commit {r : Result} (h : StatusOk s.status) (hr : ResultOk i r) :
    StatusOk (commit i r s).status where
  errcode_le := by simpa using h.errcode_le
  err_iff := by simpa using h.err_iff
  busy_clear := nofun
  order := h.apply_order hr.order

/-- An acknowledgement clears ERR and ERRCODE together (10_state.md R31). -/
theorem StatusOk.acknowledge {st : Status} (h : StatusOk st) (v : Word) : StatusOk (st.acknowledge v) := by
  obtain ⟨hle, hiff, hbusy, horder⟩ := h
  rw [acknowledge_eq]
  refine ⟨?_, ?_, fun hb => ?_, horder⟩
  · dsimp only
    split
    · exact Nat.zero_le 4
    · exact hle
  · dsimp only
    split
    · rfl
    · exact hiff
  · obtain ⟨hd, he⟩ := hbusy hb
    simp [hd, he]

/-! ### The command in flight -/

/-- What holds of the command in flight rests on the registers and the parameters only. -/
theorem InFlightOk.congr {f : InFlight} (h : InFlightOk s f) (hw : t.w = s.w) (hc : t.const = s.const) :
    InFlightOk t f where
  remaining_pos := h.remaining_pos
  remaining_le := hc ▸ h.remaining_le
  checked := (check_congr hw hc).trans h.checked
  src1 := hw ▸ h.src1
  src2 := hw ▸ h.src2

/-- A command with one cycle less to run, which is not its last. -/
theorem InFlightOk.tick {f : InFlight} (h : InFlightOk s f) (hr : f.remaining - 1 ≠ 0) :
    InFlightOk s { f with remaining := f.remaining - 1 } where
  remaining_pos := Nat.one_le_iff_ne_zero.mpr hr
  remaining_le := (Nat.sub_le _ _).trans h.remaining_le
  checked := h.checked
  src1 := h.src1
  src2 := h.src2

/-- A command just issued, its checks passed (45_control.md R133). -/
theorem inFlightOk_issue (h : Inv s) (hc : check i s = none) :
    InFlightOk s ⟨i, readSlot s.w i.slots.rs1, readSlot s.w i.slots.rs2, latency s.const i⟩ where
  remaining_pos := by
    rw [latency_eq]
    exact h.lat_pos i.opc.toFin
  remaining_le := le_rfl
  checked := hc
  src1 := rfl
  src2 := rfl

/-! ### The invariant after each operation -/

/-- The invariant of a state out of reset, from one with the same parameters. -/
theorem Inv.of_running (h : Inv s) (hc : t.const = s.const) (hr : t.rstN = true)
    (hst : StatusOk t.status) (hb : t.status.busy = t.inflight.isSome)
    (hf : ∀ f, t.inflight = some f → InFlightOk t f) : Inv t where
  lat_pos := hc ▸ h.lat_pos
  busy_iff := hb
  inflight_ok := hf
  errcode_le := hst.errcode_le
  err_iff := hst.err_iff
  busy_clear := hst.busy_clear
  order := hst.order
  in_reset h0 := absurd (hr.symm.trans h0) nofun

/-- With no command in flight nothing is left to hold of one. -/
theorem Inv.of_idle (h : Inv s) (hc : t.const = s.const) (hr : t.rstN = true)
    (hst : StatusOk t.status) (hb : t.status.busy = false) (hf : t.inflight = none) : Inv t :=
  h.of_running hc hr hst (by simp [hb, hf]) (by simp [hf])

/-- The port, the host's transfers and the turns are no part of the invariant. -/
theorem Inv.bookkeeping (h : Inv s) (p : PortOut) (host : List Transfer) (sched : List Turn) :
    Inv { s with port := p, host := host, sched := sched } :=
  ⟨h.lat_pos, h.busy_iff, fun f hf => (h.inflight_ok f hf).congr rfl rfl, h.errcode_le, h.err_iff,
    h.busy_clear, h.order, h.in_reset⟩

/-- The engine is out of reset while a command is in flight. -/
theorem Inv.rstN_of_inflight {f : InFlight} (h : Inv s) (hf : s.inflight = some f) : s.rstN = true := by
  by_contra hr
  obtain ⟨-, -, hn, -⟩ := h.in_reset (Bool.eq_false_iff.mpr hr)
  simp [hf] at hn

/-- An engine that is not BUSY has no command in flight. -/
theorem Inv.inflight_of_not_busy (h : Inv s) (hb : s.status.busy = false) : s.inflight = none := by
  simpa [hb] using h.busy_iff.symm

/-- A rejected command. -/
theorem Inv.reject {e : Reject} (h : Inv s) (hr : s.rstN = true) (hb : s.status.busy = false) :
    Inv (reject e s) :=
  h.of_idle rfl hr (h.statusOk.reject hb) hb (h.inflight_of_not_busy hb)

/-- A CMD write while BUSY. -/
theorem Inv.overrun (h : Inv s) (hr : s.rstN = true) : Inv (overrun s) :=
  h.of_running rfl hr h.statusOk.overrun h.busy_iff fun f hf => (h.inflight_ok f hf).congr rfl rfl

/-- A command issued after its checks. -/
theorem Inv.issue (h : Inv s) (hr : s.rstN = true) (hc : check i s = none) : Inv (issue i s) :=
  h.of_running rfl hr h.statusOk.issue rfl fun f hf => by
    obtain rfl := Option.some.inj hf
    exact (inFlightOk_issue h hc).congr rfl rfl

/-- A STATUS write. -/
theorem Inv.writeStatus (h : Inv s) (hr : s.rstN = true) (v : Word) : Inv (writeStatus s v) :=
  h.of_running rfl hr (h.statusOk.acknowledge v) h.busy_iff fun f hf => (h.inflight_ok f hf).congr rfl rfl

/-- A CTRL write, with or without a soft reset. -/
theorem Inv.writeCtrl (h : Inv s) (hr : s.rstN = true) (v : Word) : Inv (writeCtrl s v) := by
  cases hv : v.getLsbD 0 with
  | true =>
    rw [writeCtrl_srst s hv]
    exact h.of_idle rfl hr statusOk_reset rfl rfl
  | false =>
    rw [writeCtrl_irqEn s hv]
    exact h.of_running rfl hr h.statusOk h.busy_iff fun f hf => (h.inflight_ok f hf).congr rfl rfl

/-- A word stored in an operand register of an idle engine. -/
theorem Inv.storeWord (h : Inv s) (hr : s.rstN = true) (hb : s.status.busy = false) (r : Reg) (v : U256)
    (k : Fin 8) : Inv (storeWord s r v k) :=
  h.of_idle rfl hr h.statusOk hb (h.inflight_of_not_busy hb)

/-- A command presented to an idle engine is rejected or issued. -/
theorem Inv.exec_idle (h : Inv s) (hr : s.rstN = true) (hb : s.status.busy = false)
    (hx : exec i s = .next t) : Inv t := by
  obtain ⟨hb', -⟩ | ⟨r, hb', -⟩ | ⟨e, -, -, rfl⟩ | ⟨-, hc, rfl⟩ := exec_cases hx
  · simp [hb] at hb'
  · simp [hb] at hb'
  · exact h.reject hr hb
  · exact h.issue hr hc

/-- A command whose latency has run out commits. -/
theorem exec_runOut {f : InFlight} (hb : s.status.busy = true)
    (hx : exec f.cmd { s with inflight := some { f with remaining := 0 } } = .next t) :
    ∃ r, ResultOk f.cmd r ∧
      t = commit f.cmd r { s with inflight := some { f with remaining := 0 } } := by
  obtain ⟨-, -, hn⟩ | ⟨r, -, hr, rfl⟩ | ⟨e, hb', -⟩ | ⟨hb', -⟩ := exec_cases hx
  · exact absurd ⟨_, rfl, rfl, rfl⟩ hn
  · exact ⟨r, hr, rfl⟩
  · simp [hb] at hb'
  · simp [hb] at hb'

/-- A transfer that is carried out finds the engine out of reset (70_reset_and_hazards.md R153). -/
theorem rstN_of_not_held {u : Transfer} (hh : held s u = false) : s.rstN = true := by
  unfold held at hh
  simpa using (Bool.or_eq_false_iff.mp hh).1

/-- A window transfer that is served finds the engine not BUSY (20_memory.md R50). -/
theorem not_busy_of_window {u : Transfer} (hh : held s u = false) (hu : u.refused = false)
    (ht : u.toWindow = true) : s.status.busy = false := by
  unfold held at hh
  simpa [hu, ht] using (Bool.or_eq_false_iff.mp hh).2

/-- A transfer that is not held. -/
theorem Inv.transfer {u : Transfer} (h : Inv s) (hh : held s u = false)
    (hx : transfer exec u s = .next t) : Inv t := by
  have hr : s.rstN = true := rstN_of_not_held hh
  have hport : ∀ p, Inv { s with port := p } := fun p => h.bookkeeping p s.host s.sched
  obtain ⟨-, rfl⟩ | ⟨-, -, rfl⟩ | ⟨hu, -, hx⟩ := transfer_cases hx
  · exact hport _
  · exact hport _
  · have hw : Inv { s with port := .wrote } := hport _
    obtain ⟨-, rfl⟩ | ⟨-, rfl⟩ | ⟨-, rfl⟩ | ⟨-, -, rfl⟩ | ⟨e, -, hb, -, rfl⟩ | ⟨i, -, hb, -, hx⟩ |
      ⟨r, k, ht, rfl⟩ | ⟨r, k, ht, rfl⟩ := hx
    · exact hw
    · exact hw.writeCtrl hr _
    · exact hw.writeStatus hr _
    · exact hw.overrun hr
    · exact hw.reject hr hb
    · exact hw.exec_idle hr hb hx
    · exact hw.storeWord hr (not_busy_of_window hh hu (by simp [Transfer.toWindow, ht])) _ _ _
    · exact hw.storeWord hr (not_busy_of_window hh hu (by simp [Transfer.toWindow, ht])) _ _ _

/-- The engine in its power-on state (70_reset_and_hazards.md R153), from a state with the same
parameters. -/
theorem Inv.of_powerOn (h : Inv s) (hc : t.const = s.const) (hst : t.status = {}) (hi : t.irqEn = false)
    (hf : t.inflight = none) (hm : t.written = State.noneWritten) : Inv t where
  lat_pos := hc ▸ h.lat_pos
  busy_iff := by simp [hst, hf]
  inflight_ok := by simp [hf]
  errcode_le := by simp [hst]
  err_iff := by simp [hst]
  busy_clear := by simp [hst]
  order := by simp [hst]
  in_reset _ := ⟨hst, hi, hf, hm⟩

/-- A move of the reset pin. -/
theorem Inv.resetTurn (h : Inv s) (level : Bool) : Inv (resetTurn level s) := by
  cases level with
  | false => apply h.of_powerOn <;> simp [Machine.resetTurn]
  | true =>
    exact h.of_running rfl rfl h.statusOk h.busy_iff fun f hf => (h.inflight_ok f hf).congr rfl rfl

/-- One cycle of the command in flight, which is not its last. -/
theorem Inv.tick {f : InFlight} (h : Inv s) (hf : s.inflight = some f) (hr : f.remaining - 1 ≠ 0) :
    Inv { s with inflight := some { f with remaining := f.remaining - 1 } } :=
  h.of_running rfl (h.rstN_of_inflight hf) h.statusOk (by simp [h.busy_iff, hf]) fun f' hf' => by
    obtain rfl := Option.some.inj hf'
    exact ((h.inflight_ok f hf).tick hr).congr rfl rfl

/-- The commit of the command in flight. -/
theorem Inv.commit {f : InFlight} (h : Inv s) (hf : s.inflight = some f)
    (hx : exec f.cmd { s with inflight := some { f with remaining := 0 } } = .next t) : Inv t := by
  have hb : s.status.busy = true := by simp [h.busy_iff, hf]
  obtain ⟨r, hr, rfl⟩ := exec_runOut hb hx
  exact h.of_idle rfl (h.rstN_of_inflight hf) (h.statusOk.commit hr) rfl rfl

/-- Settles O58, turn by turn. -/
theorem everyStepKeepsInvariant : Obligations.EveryStepKeepsInvariant := by
  unfold Obligations.EveryStepKeepsInvariant
  intro s t h hx
  have hq : Inv (quiet (afterTurn s)) := h.bookkeeping _ _ _
  obtain ⟨-, -, rfl⟩ | ⟨f, -, hf, hr, rfl⟩ | ⟨f, -, hf, -, hx⟩ | ⟨-, -, rfl⟩ | ⟨u, rest, -, hh, hx⟩ |
    ⟨level, -, rfl⟩ := step_cases hx
  · exact hq
  · exact hq.tick hf hr
  · exact hq.commit hf hx
  · exact hq
  · exact (h.bookkeeping s.port rest s.sched.tail).transfer hh hx
  · exact Inv.resetTurn (h.bookkeeping s.port s.host s.sched.tail) level

end Sys2Proof.Machine
end

section
/-! SUPPORT. No run that reads only written words depends on an unwritten word (10_state.md R19,
20_memory.md R48). -/

namespace Sys2Proof.Machine

/-! ### Words of a register -/

section Words
variable {x y : U256} {k : Nat}

/-- A word is its four bytes. -/
theorem readWle_congr (h : ∀ j, 4 * k ≤ j → j < 4 * k + 4 → byteOf x j = byteOf y j) :
    readWle x k = readWle y k := by
  rw [readWle, readWle, h (4 * k) (by omega) (by omega), h (4 * k + 1) (by omega) (by omega),
    h (4 * k + 2) (by omega) (by omega), h (4 * k + 3) (by omega) (by omega)]

/-- Registers with the same word have the same bytes there. -/
theorem byteOf_eq_of_readWle (h : readWle x k = readWle y k) {j : Nat} (hl : 4 * k ≤ j)
    (hu : j < 4 * k + 4) : byteOf x j = byteOf y j := by
  have lanes := fun z : U256 => ofLanes_extract (byteOf z (4 * k)) (byteOf z (4 * k + 1))
    (byteOf z (4 * k + 2)) (byteOf z (4 * k + 3))
  obtain ⟨x0, x1, x2, x3⟩ := lanes x
  obtain ⟨y0, y1, y2, y3⟩ := lanes y
  rw [readWle, readWle] at h
  obtain rfl | rfl | rfl | rfl : j = 4 * k ∨ j = 4 * k + 1 ∨ j = 4 * k + 2 ∨ j = 4 * k + 3 := by omega
  · rw [← x0, h, y0]
  · rw [← x1, h, y1]
  · rw [← x2, h, y2]
  · rw [← x3, h, y3]

/-- A register is its eight words. -/
theorem eq_of_words (h : ∀ k : Fin 8, readWle x k.val = readWle y k.val) : x = y :=
  eq_of_bytes fun j hj =>
    byteOf_eq_of_readWle (h ⟨j / 4, by omega⟩) (Nat.mul_div_le j 4) (by dsimp only; omega)

/-- A read through the big-endian window reads the word that its mark covers (20_memory.md R47). -/
theorem readWbe_congr {k : Fin 8} (h : readWle x (wbeMark k).val = readWle y (wbeMark k).val) :
    readWbe x k.val = readWbe y k.val := by
  have hk : (wbeMark k).val = 7 - k.val := by rw [wbeMark, Fin.val_rev]; omega
  have hbyte : ∀ n < 4, byteOf x (31 - 4 * k.val - n) = byteOf y (31 - 4 * k.val - n) := fun n hn =>
    byteOf_eq_of_readWle h (by omega) (by omega)
  apply eq_of_lanes
  intro n hn
  rw [readWbe_lane _ _ _ hn, readWbe_lane _ _ _ hn, hbyte n hn]

/-- The word written through the limb-order window does not depend on what the register held. -/
theorem readWle_writeWle_same (x y : U256) (k : Fin 8) (d : Word) :
    readWle (writeWle x k.val d) k.val = readWle (writeWle y k.val d) k.val :=
  readWle_congr fun j hl hu => by
    rw [byteOf_writeWle _ _ _ _ (by omega), byteOf_writeWle _ _ _ _ (by omega), if_pos ⟨hl, hu⟩,
      if_pos ⟨hl, hu⟩]

/-- The other words keep their values at a write through the limb-order window. -/
theorem readWle_writeWle_other (x : U256) {j k : Fin 8} (h : j ≠ k) (d : Word) :
    readWle (writeWle x k.val d) j.val = readWle x j.val :=
  readWle_congr fun b hl hu => by
    have hjk : j.val ≠ k.val := Fin.val_ne_of_ne h
    rw [byteOf_writeWle _ _ _ _ (by omega), if_neg (by omega)]

/-- The word written through the big-endian window does not depend on what the register held. -/
theorem readWle_writeWbe_same (x y : U256) (k : Fin 8) (d : Word) :
    readWle (writeWbe x k.val d) (wbeMark k).val = readWle (writeWbe y k.val d) (wbeMark k).val :=
  readWle_congr fun j hl hu => by
    rw [wbeMark, Fin.val_rev] at hl hu
    rw [byteOf_writeWbe _ _ k.isLt _ _ (by omega), byteOf_writeWbe _ _ k.isLt _ _ (by omega),
      if_pos (by omega), if_pos (by omega)]

/-- The other words keep their values at a write through the big-endian window. -/
theorem readWle_writeWbe_other (x : U256) {j k : Fin 8} (h : j ≠ wbeMark k) (d : Word) :
    readWle (writeWbe x k.val d) j.val = readWle x j.val :=
  readWle_congr fun b hl hu => by
    have hjk : j.val ≠ 8 - (k.val + 1) := fun e => h (Fin.ext (by rw [wbeMark, Fin.val_rev, e]))
    rw [byteOf_writeWbe _ _ k.isLt _ _ (by omega), if_neg (by omega)]

end Words

/-! ### Register files that agree on the written words -/

section Files
variable {m : Vector (Vector Bool 8) 64} {w v : Vector U256 64}

/-- The two register files hold the same value in every word marked written. -/
def WordsAgree (m : Vector (Vector Bool 8) 64) (w v : Vector U256 64) : Prop :=
  ∀ (r : Reg) (k : Fin 8), m[r][k] = true → readWle w[r] k.val = readWle v[r] k.val

/-- A wholly written register. -/
theorem WordsAgree.regAt_eq (h : WordsAgree m w v) {n : Nat} (hn : regWritten m n = true) :
    regAt w n = regAt v n := by
  obtain ⟨hlt, hm⟩ := Vector.getElem?_eq_some_iff.mp (of_decide_eq_true hn)
  rw [regAt_of_lt w hlt, regAt_of_lt v hlt]
  exact eq_of_words fun k => h ⟨n, hlt⟩ k (by simp [hm])

/-- A wholly written source group. -/
theorem WordsAgree.readSlot_eq (h : WordsAgree m w v) {o : Option Slot} (ho : slotWritten m o = true) :
    readSlot w o = readSlot v o := by
  cases o with
  | none => rfl
  | some d =>
    rw [readSlot, readSlot, readGroup_eq_map, readGroup_eq_map]
    exact List.map_congr_left fun k hk => h.regAt_eq (List.all_eq_true.mp ho k hk)

/-- After a group is written with the same values. -/
theorem WordsAgree.writeSlot (h : WordsAgree m w v) {o : Option Slot} {vs : List U256}
    (hl : vs.length = o.elim 0 fun d => d.ty.size) :
    WordsAgree (markSlot m o) (writeSlot w vs o) (writeSlot v vs o) := by
  intro n k hk
  by_cases hn : ∀ d, o = some d → n.val < d.reg.val ∨ d.reg.val + d.ty.size ≤ n.val
  · rw [writeSlot_outside w vs o n hl hn, writeSlot_outside v vs o n hl hn]
    exact h n k (by rwa [markSlot_outside m o n hn] at hk)
  · push Not at hn
    obtain ⟨d, rfl, hle, hlt⟩ := hn
    have hin : n.val - d.reg.val < vs.length := by rw [hl, Option.elim_some]; omega
    simp only [Machine.writeSlot, Fin.getElem_fin, writeGroup_getElem, hle, if_true]
    rw [List.getD_eq_getElem _ _ hin, List.getD_eq_getElem _ _ hin]

/-- After one word of one register is stored, the others kept. -/
theorem WordsAgree.set (h : WordsAgree m w v) {r : Reg} {k : Fin 8} {x y : U256}
    (hk : readWle x k.val = readWle y k.val)
    (hw : ∀ j : Fin 8, j ≠ k → readWle x j.val = readWle w[r] j.val)
    (hv : ∀ j : Fin 8, j ≠ k → readWle y j.val = readWle v[r] j.val) :
    WordsAgree (m.set r (m[r].set k true)) (w.set r x) (v.set r y) := by
  intro n j hj
  by_cases hn : r = n
  · subst hn
    simp only [Fin.getElem_fin, Vector.getElem_set_self] at hj ⊢
    by_cases hjk : j = k
    · rw [hjk, hk]
    · have hne : k.val ≠ j.val := fun e => hjk (Fin.ext e.symm)
      rw [Vector.getElem_set_ne _ _ hne] at hj
      rw [hw j hjk, hv j hjk]
      exact h r j hj
  · have hne : r.val ≠ n.val := Fin.val_ne_of_ne hn
    simp only [Fin.getElem_fin, Vector.getElem_set_ne _ _ hne] at hj ⊢
    exact h n j hj

end Files

/-! ### What agreeing states do -/

section Agree
variable {i : Instr} {s t : State} {v : Vector U256 64}

/-- The two states agree and differ at most in the register file. -/
theorem agreeOnWritten_iff : AgreeOnWritten s t ↔
    ∃ v, t = { s with w := v } ∧ WordsAgree s.written s.w v := by
  constructor
  · intro h
    exact ⟨t.w, congrArg (fun x : State => { x with w := t.w }) h.rest, h.words⟩
  · rintro ⟨v, rfl, h⟩
    exact ⟨rfl, h⟩

/-- A state agrees with itself. -/
theorem agreeOnWritten_refl (s : State) : AgreeOnWritten s s := ⟨rfl, fun _ _ _ => rfl⟩

/-- Next states, where there are two, agree on the written words. -/
def AgreeAfter (x y : Host.Outcome State Fault Refusal) : Prop :=
  ∀ t t', x = .next t → y = .next t' → AgreeOnWritten t t'

/-- Two next states that differ in the register file alone. -/
theorem agreeAfter_next (h : WordsAgree t.written t.w v) :
    AgreeAfter (.next t) (.next { t with w := v }) := by
  intro u u' hu hu'
  cases hu
  cases hu'
  exact ⟨rfl, h⟩

/-- A command that is not well formed fails the first check (45_control.md R132). -/
theorem check_of_not_wellFormed (h : i.wellFormed = false) (s : State) : check i s = some .regRange := by
  cases hc : check i s with
  | none => exact absurd (h.symm.trans (check_eq_none.mp hc).1) Bool.false_ne_true
  | some e =>
    obtain ⟨rfl, -⟩ | ⟨-, hw⟩ := check_eq_some hc
    · rfl
    · exact absurd (h.symm.trans hw) Bool.false_ne_true

/-- The check of a source group reads only that group. -/
theorem slotCanonical_congr {w : Vector U256 64} (p : Nat) {o : Option Slot}
    (h : readSlot w o = readSlot v o) : slotCanonical p w o = slotCanonical p v o := by
  cases o with
  | none => rfl
  | some d =>
    simp only [readSlot] at h
    simp only [slotCanonical, h]

/-- A command presented to an idle engine, rejected before any source is read or its sources wholly
written. -/
theorem command_agree_idle (h : WordsAgree s.written s.w v) (f : Config → Latched → Result)
    (hb : s.status.busy = false) (hr : i.wellFormed = false ∨ sourcesWritten i s = true) :
    AgreeAfter (command i s f) (command i { s with w := v } f) := by
  obtain hwf | hsrc := hr
  · rw [command_reject hb (check_of_not_wellFormed hwf _),
      command_reject (s := { s with w := v }) hb (check_of_not_wellFormed hwf _)]
    exact agreeAfter_next h
  · obtain ⟨hw1, hw2⟩ := Bool.and_eq_true_iff.mp hsrc
    have h1 := h.readSlot_eq hw1
    have h2 := h.readSlot_eq hw2
    have hcheck : check i { s with w := v } = check i s := by
      simp only [check, slotCanonical_congr _ h1, slotCanonical_congr _ h2]
    cases hc : check i s with
    | some e =>
      rw [command_reject hb hc, command_reject (s := { s with w := v }) hb (hcheck.trans hc)]
      exact agreeAfter_next h
    | none =>
      have hissue : issue i { s with w := v } = { issue i s with w := v } := by
        simp only [issue, h1, h2]
      rw [command_issue hb hc, command_issue (s := { s with w := v }) hb (hcheck.trans hc), hissue]
      exact agreeAfter_next h

/-- The command in flight whose latency has run out: its result rests on the latched sources
(45_control.md R133). -/
theorem exec_agree_commit {g : InFlight} (h : WordsAgree s.written s.w v) (hb : s.status.busy = true)
    (hg : s.inflight = some g) (h0 : g.remaining = 0) :
    AgreeAfter (exec g.cmd s) (exec g.cmd { s with w := v }) := by
  obtain ⟨f, hf, hr⟩ := exists_rule g.cmd
  rw [hf, hf, command_commit hb hg h0 rfl, command_commit (s := { s with w := v }) hb hg h0 rfl]
  exact agreeAfter_next (h.writeSlot (hr _ _).length_dest)

/-- A CMD write that reads only written words. -/
theorem present_agree {d : Word} (h : WordsAgree s.written s.w v) (hr : presentReadsWritten d s = true) :
    AgreeAfter (present exec d s) (present exec d { s with w := v }) := by
  cases hb : s.status.busy with
  | true =>
    simp only [present, hb, if_true]
    exact agreeAfter_next h
  | false =>
    simp only [present, hb, Bool.false_eq_true, if_false]
    simp only [presentReadsWritten, hb, Bool.false_or] at hr
    cases hd : decode d with
    | error e => exact agreeAfter_next h
    | ok i =>
      obtain ⟨f, hf, -⟩ := exists_rule i
      simp only [hf]
      exact command_agree_idle h f hb (by simpa [hd] using hr)

/-- A write that reads only written words. -/
theorem writeTarget_agree {d : Word} {a : Target} (h : WordsAgree s.written s.w v)
    (hr : a = .cmd → presentReadsWritten d s = true) :
    AgreeAfter (writeTarget exec s d a) (writeTarget exec { s with w := v } d a) := by
  cases a with
  | id | version | status | reserved => exact agreeAfter_next h
  | ctrl =>
    cases hv : d.getLsbD 0 with
    | true =>
      simp only [writeTarget, writeCtrl_srst _ hv]
      exact agreeAfter_next h
    | false =>
      simp only [writeTarget, writeCtrl_irqEn _ hv]
      exact agreeAfter_next h
  | cmd => exact present_agree h (hr rfl)
  | wle r k =>
    exact agreeAfter_next (h.set (readWle_writeWle_same _ _ k d)
      (fun j hj => readWle_writeWle_other _ hj d) (fun j hj => readWle_writeWle_other _ hj d))
  | wbe r k =>
    exact agreeAfter_next (h.set (readWle_writeWbe_same _ _ k d)
      (fun j hj => readWle_writeWbe_other _ hj d) (fun j hj => readWle_writeWbe_other _ hj d))

/-- A read of a written word, or of a register of the control block. -/
theorem readTarget_eq {a : Target} (h : WordsAgree s.written s.w v) (hr : targetWritten s a = true) :
    readTarget { s with w := v } a = readTarget s a := by
  cases a with
  | id | version | ctrl | status | cmd | reserved => rfl
  | wle r k => exact (h r k hr).symm
  | wbe r k => exact (readWbe_congr (h r (wbeMark k) hr)).symm

/-- A transfer that reads only written words. -/
theorem transfer_agree {u : Transfer} (h : WordsAgree s.written s.w v)
    (hr : transferReadsWritten s u = true) :
    AgreeAfter (transfer exec u s) (transfer exec u { s with w := v }) := by
  cases hu : u.refused with
  | true =>
    simp only [transfer, hu, if_true]
    exact agreeAfter_next h
  | false =>
    cases hw : u.we with
    | true =>
      simp only [transfer, hu, hw, Bool.false_eq_true, if_false, if_true]
      have hp : target u.addr = .cmd → presentReadsWritten u.wdata s = true := fun hc => by
        simpa [transferReadsWritten, hu, hw, hc] using hr
      exact writeTarget_agree (s := { s with port := .wrote }) h hp
    | false =>
      have ht : targetWritten s (target u.addr) = true := by
        simpa [transferReadsWritten, hu, hw] using hr
      simp only [transfer, hu, hw, Bool.false_eq_true, if_false, readTarget_eq h ht]
      exact agreeAfter_next h

/-- A move of the reset pin: a low level forgets the registers (70_reset_and_hazards.md R153). -/
theorem resetTurn_agree (level : Bool) (h : WordsAgree s.written s.w v) :
    AgreeOnWritten (resetTurn level s) (resetTurn level { s with w := v }) := by
  cases level with
  | true => exact ⟨rfl, h⟩
  | false =>
    have hreset : powerOnReset { s with w := v } = powerOnReset s := by dsimp only [powerOnReset]
    simp only [resetTurn, hreset]
    exact agreeOnWritten_refl _

/-- A step that reads only written words. -/
theorem step_agree (hi : Inv s) (h : WordsAgree s.written s.w v) (hr : stepReadsWritten s = true) :
    AgreeAfter (step s) (step { s with w := v }) := by
  intro t t' hx hx'
  have hsame : nextTransfer { s with w := v } = nextTransfer s := nextTransfer_congr rfl rfl rfl rfl
  obtain ⟨ht, hf, rfl⟩ | ⟨f, ht, hf, h0, rfl⟩ | ⟨f, ht, hf, h0, hx⟩ | ⟨ht, hn, rfl⟩ |
    ⟨u, rest, hn, -, hx⟩ | ⟨level, ht, rfl⟩ := step_cases hx
  · rw [step_engine_idle (s := { s with w := v }) ht hf] at hx'
    obtain rfl := Host.Outcome.next.inj hx'
    exact ⟨rfl, h⟩
  · rw [step_engine_cycle (s := { s with w := v }) ht hf h0] at hx'
    obtain rfl := Host.Outcome.next.inj hx'
    exact ⟨rfl, h⟩
  · rw [step_engine_commit (s := { s with w := v }) ht hf h0] at hx'
    have hb : s.status.busy = true := by simp [hi.busy_iff, hf]
    exact exec_agree_commit (g := { f with remaining := 0 }) (s := { quiet (afterTurn s) with
      inflight := some { f with remaining := 0 } }) h hb rfl rfl _ _ hx hx'
  · rw [step_wait (s := { s with w := v }) ht (hsame.trans hn)] at hx'
    obtain rfl := Host.Outcome.next.inj hx'
    exact ⟨rfl, h⟩
  · rw [step_transfer (s := { s with w := v }) (hsame.trans hn)] at hx'
    have hu : transferReadsWritten s u = true := by simpa [stepReadsWritten, hn] using hr
    exact transfer_agree (s := { afterTurn s with host := rest }) h hu _ _ hx hx'
  · rw [step_rst (s := { s with w := v }) ht] at hx'
    obtain rfl := Host.Outcome.next.inj hx'
    exact resetTurn_agree (s := afterTurn s) level h

/-- Settles O59: two states that agree take the same turn, and each turn keeps their agreement. -/
theorem unwrittenWordsDoNotMatter : Obligations.UnwrittenWordsDoNotMatter := by
  unfold Obligations.UnwrittenWordsDoNotMatter
  intro s s' t t' hi ha hr hx hx'
  obtain ⟨v, rfl, h⟩ := agreeOnWritten_iff.mp ha
  exact step_agree hi h hr t t' hx hx'

end Agree

end Sys2Proof.Machine
end

section
/-! SUPPORT. Proofs about the bus (20_memory.md): which transfers are refused, what the operand windows read
and write, when a transfer waits, and which transfer a step carries out. -/

namespace Sys2Proof.Machine

variable {run : Instr → State → Host.Outcome State Fault Refusal}

/-! ### Refused transfers and reads -/

section Refusal
variable {s t : State} {u : Transfer}

/-- The reserved offsets of the address map (20_memory.md R42). -/
theorem target_eq_reserved_iff (a : BitVec 14) : target a = .reserved ↔
    (0x0014 ≤ a.toNat ∧ a.toNat ≤ 0x0FFF) ∨ (0x1800 ≤ a.toNat ∧ a.toNat ≤ 0x1FFF) ∨
      (0x2800 ≤ a.toNat ∧ a.toNat ≤ 0x3FFF) := by
  have ha : a.toNat < 2 ^ 14 := a.isLt
  unfold target
  dsimp only
  split_ifs <;> simp only [false_iff, true_iff] <;> omega

/-- An offset is a multiple of 4 when its two low bits are 0 (20_memory.md R43). -/
theorem aligned_iff (a : BitVec 14) : a.extractLsb' 0 2 = 0#2 ↔ a.toNat % 4 = 0 := by
  simp [← BitVec.toNat_inj, BitVec.extractLsb'_toNat]

/-- The grounds of refusal (20_memory.md R43, R44). -/
theorem refused_iff : u.refused = true ↔ u.addr.toNat % 4 ≠ 0 ∨ u.be ≠ 0b1111#4 ∨
    (0x0014 ≤ u.addr.toNat ∧ u.addr.toNat ≤ 0x0FFF) ∨ (0x1800 ≤ u.addr.toNat ∧ u.addr.toNat ≤ 0x1FFF) ∨
      (0x2800 ≤ u.addr.toNat ∧ u.addr.toNat ≤ 0x3FFF) := by
  simp only [Transfer.refused, Bool.or_eq_true, bne_iff_ne, beq_iff_eq, ne_eq, aligned_iff,
    target_eq_reserved_iff, or_assoc]

/-- A refused transfer has no effect but on the port (20_memory.md R40). -/
theorem transfer_refused (s : State) (h : u.refused = true) :
    transfer run u s = .next { s with port := .refusal u.we } := if_pos h

/-- A read that is served. -/
theorem transfer_read (s : State) (h : u.refused = false) (hw : u.we = false) :
    transfer run u s = .next { s with port := .read (readTarget s (target u.addr)) } := by
  rw [transfer, h, hw]
  rfl

/-- A command leaves the port and the host's transfers as they are. -/
theorem exec_port_host {i : Instr} (h : exec i s = .next t) : t.port = s.port ∧ t.host = s.host := by
  obtain ⟨-, -, -, -, hport, hhost, -⟩ := onlyTheDestinationIsWritten i s t h
  exact ⟨hport, hhost⟩

/-- A CTRL write leaves the port as it is. -/
@[simp] theorem writeCtrl_port (s : State) (v : Word) : (writeCtrl s v).port = s.port := by
  unfold writeCtrl
  split <;> rfl

/-- A CTRL write leaves the host's transfers as they are. -/
@[simp] theorem writeCtrl_host (s : State) (v : Word) : (writeCtrl s v).host = s.host := by
  unfold writeCtrl
  split <;> rfl

/-- What a transfer shows on the port, and that it takes none of the host's transfers. -/
theorem transfer_port_host (h : transfer exec u s = .next t) :
    t.port.ready = true ∧ t.port.err = u.refused ∧ t.host = s.host := by
  obtain ⟨hr, rfl⟩ | ⟨hr, -, rfl⟩ | ⟨hr, -, h⟩ := transfer_cases h
  · exact ⟨rfl, hr.symm, rfl⟩
  · exact ⟨rfl, hr.symm, rfl⟩
  · have wrote : t.port = .wrote ∧ t.host = s.host := by
      obtain ⟨-, rfl⟩ | ⟨-, rfl⟩ | ⟨-, rfl⟩ | ⟨-, -, rfl⟩ | ⟨e, -, -, -, rfl⟩ | ⟨i, -, -, -, hx⟩ |
        ⟨r, k, -, rfl⟩ | ⟨r, k, -, rfl⟩ := h
      · simp
      · simp
      · simp
      · simp
      · simp
      · exact exec_port_host hx
      · simp
      · simp
    obtain ⟨hport, hhost⟩ := wrote
    rw [hport, hr]
    exact ⟨rfl, rfl, hhost⟩

/-- Settles O43: the grounds of refusal are those of the rule, and only a refusal shows `err`. -/
theorem refusedTransfersHaveNoEffect : Obligations.RefusedTransfersHaveNoEffect := by
  unfold Obligations.RefusedTransfersHaveNoEffect
  intro u s
  dsimp only
  rw [← refused_iff]
  refine ⟨transfer_refused s, fun hn t h => ?_⟩
  obtain ⟨hready, herr, -⟩ := transfer_port_host h
  exact ⟨hready, herr.trans (Bool.eq_false_iff.mpr hn)⟩

/-- Settles O50: a read is refused or served. -/
theorem readsHaveNoSideEffect : Obligations.ReadsHaveNoSideEffect := by
  unfold Obligations.ReadsHaveNoSideEffect
  intro u s hw
  cases hr : u.refused with
  | true => exact ⟨.refusal u.we, rfl, by simp [PortOut.refusal, hw], transfer_refused s hr⟩
  | false => exact ⟨.read _, rfl, rfl, transfer_read s hr hw⟩

end Refusal

/-! ### The operand windows -/

section Windows
variable {s : State} {r : Reg}

/-- A 32-bit transfer to a word of a window is served. -/
theorem windowOffsets_served (r : Reg) (k : Fin 8) :
    (busRead (wleOffset r k.val)).refused = false ∧ (busRead (wbeOffset r k.val)).refused = false := by
  obtain ⟨hle, hbe⟩ := windowOffsets_aligned r k
  simp [Transfer.refused, busRead, hle, hbe, target_wleOffset, target_wbeOffset]

/-- A read through the limb-order window. -/
theorem transfer_read_wle (s : State) (r : Reg) (k : Fin 8) :
    transfer run (busRead (wleOffset r k.val)) s = .next { s with port := .read (readWle s.w[r] k.val) } := by
  rw [transfer_busRead s (windowOffsets_served r k).1, target_wleOffset]
  rfl

/-- A read through the big-endian window. -/
theorem transfer_read_wbe (s : State) (r : Reg) (k : Fin 8) :
    transfer run (busRead (wbeOffset r k.val)) s = .next { s with port := .read (readWbe s.w[r] k.val) } := by
  rw [transfer_busRead s (windowOffsets_served r k).2, target_wbeOffset]
  rfl

/-- A write through the limb-order window. -/
theorem transfer_write_wle (s : State) (r : Reg) (k : Fin 8) (d : Word) :
    transfer run (busWrite (wleOffset r k.val) d) s =
      .next (storeWord { s with port := .wrote } r (writeWle s.w[r] k.val d) k) := by
  rw [transfer_busWrite s d (windowOffsets_served r k).1, target_wleOffset]
  rfl

/-- A write through the big-endian window. -/
theorem transfer_write_wbe (s : State) (r : Reg) (k : Fin 8) (d : Word) :
    transfer run (busWrite (wbeOffset r k.val) d) s =
      .next (storeWord { s with port := .wrote } r (writeWbe s.w[r] k.val d) (wbeMark k)) := by
  rw [transfer_busWrite s d (windowOffsets_served r k).2, target_wbeOffset]
  rfl

/-- Settles O46: a window read drives the word of its window, which the laws of the bus give byte by byte. -/
theorem windowReads : Obligations.WindowReads := by
  unfold Obligations.WindowReads
  intro s r k hk
  refine ⟨?_, readWbe s.w[r] k, transfer_read_wbe s r ⟨k, hk⟩, fun n hn => readWbe_lane s.w[r] k n hn⟩
  rw [← readWle_eq_extract]
  exact transfer_read_wle s r ⟨k, hk⟩

/-- The registers after one is stored. -/
theorem storeWord_getElem_w (s : State) (r : Reg) (x : U256) (m : Fin 8) (n : Reg) :
    (storeWord s r x m).w[n] = if n = r then x else s.w[n] := by
  simp [Vector.getElem_set, Fin.ext_iff, eq_comm]

/-- The marks after a word is stored: its own is set (20_memory.md R48). -/
theorem storeWord_getElem_written (s : State) (r : Reg) (x : U256) (m : Fin 8) (n : Reg) (j : Fin 8) :
    (storeWord s r x m).written[n][j] = (decide (n = r ∧ j = m) || s.written[n][j]) := by
  by_cases hn : r = n
  · subst hn
    by_cases hj : m = j
    · simp [hj]
    · simp [Fin.val_ne_of_ne hj, Ne.symm hj]
  · simp [Fin.val_ne_of_ne hn, Ne.symm hn]

/-- The bytes of the registers after one is stored whose bytes in `P` are new. -/
theorem byteOf_storeWord {x : U256} {m : Fin 8} {P : Nat → Prop} [DecidablePred P] {b : Nat → Byte}
    (hx : ∀ j < 32, byteOf x j = if P j then b j else byteOf s.w[r] j) (n : Reg) (j : Nat) (hj : j < 32) :
    byteOf (storeWord s r x m).w[n] j = if n = r ∧ P j then b j else byteOf s.w[n] j := by
  rw [storeWord_getElem_w]
  by_cases hn : n = r
  · subst hn
    simp only [if_true, true_and, hx j hj]
  · simp only [hn, if_false, false_and]

/-- Settles O47: a window write stores one register, four bytes of it new, and sets one mark. -/
theorem windowWritesChangeFourBytes : Obligations.WindowWritesChangeFourBytes := by
  unfold Obligations.WindowWritesChangeFourBytes
  intro s r k d
  refine ⟨⟨_, transfer_write_wle s r k d, rfl, ?_, ?_⟩, ⟨_, transfer_write_wbe s r k d, rfl, ?_, ?_⟩⟩
  · exact byteOf_storeWord (byteOf_writeWle s.w[r] k.val d)
  · exact storeWord_getElem_written _ _ _ _
  · exact byteOf_storeWord (byteOf_writeWbe s.w[r] k.val k.isLt d)
  · intro n m
    have hm : m = wbeMark k ↔ m.val = 7 - k.val := by rw [wbeMark, Fin.ext_iff, Fin.val_rev]; omega
    simp only [storeWord_getElem_written, hm]

end Windows

/-! ### Host transfers in a row -/

section Run
variable {s t : State} {u : Transfer}

/-- No transfer is held by an engine out of reset and not BUSY (20_memory.md R50). -/
theorem held_of_not_busy (hr : s.rstN = true) (hb : s.status.busy = false) (u : Transfer) :
    held s u = false := by
  simp [held, hr, hb]

/-- With transfers placed for the host, an engine out of reset and not BUSY carries out the first. -/
theorem step_withTransfers_cons (hr : s.rstN = true) (hb : s.status.busy = false) (u : Transfer)
    (ts : List Transfer) : step (withTransfers s (u :: ts)) = transfer exec u (withTransfers s ts) :=
  step_transfer (nextTransfer_host rfl rfl (held_of_not_busy hr hb u))

/-- The words of `v` at `ks` are stored in W[r] and marked; all other words of the registers, and their
marks, are those of `s` (20_memory.md R48). -/
structure StoredWords (r : Reg) (v : U256) (ks : List (Fin 8)) (s t : State) : Prop where
  word : ∀ j : Fin 8, readWle t.w[r] j.val = if j ∈ ks then readWle v j.val else readWle s.w[r] j.val
  mark : ∀ j : Fin 8, t.written[r][j] = (decide (j ∈ ks) || s.written[r][j])
  other : ∀ n : Reg, n ≠ r → t.w[n] = s.w[n] ∧ t.written[n] = s.written[n]

variable {r : Reg} {v : U256} {k : Fin 8} {ks : List (Fin 8)}

/-- Nothing stored. -/
theorem StoredWords.refl (s : State) : StoredWords r v [] s s :=
  ⟨fun _ => by simp, fun _ => by simp, fun _ _ => ⟨rfl, rfl⟩⟩

/-- One word stored, then others. -/
theorem StoredWords.cons {m : State} (h : StoredWords r v [k] s m) (h' : StoredWords r v ks m t) :
    StoredWords r v (k :: ks) s t where
  word j := by
    rw [h'.word, h.word]
    by_cases hj : j ∈ ks
    · simp [hj]
    · simp [hj]
  mark j := by
    rw [h'.mark, h.mark]
    by_cases hj : j ∈ ks
    · simp [hj]
    · simp [hj]
  other n hn := by
    obtain ⟨hw, hm⟩ := h.other n hn
    obtain ⟨hw', hm'⟩ := h'.other n hn
    exact ⟨hw'.trans hw, hm'.trans hm⟩

/-- A register stored by a write, with one word of `v` and its other words kept. -/
theorem storedWords_storeWord {x : U256} (hk : readWle x k.val = readWle v k.val)
    (hx : ∀ j : Fin 8, j ≠ k → readWle x j.val = readWle s.w[r] j.val) :
    StoredWords r v [k] s (storeWord { s with port := .wrote } r x k) where
  word j := by
    rw [storeWord_getElem_w, if_pos rfl]
    by_cases hj : j = k
    · simp [hj, hk]
    · simp [hj, hx]
  mark j := by
    rw [storeWord_getElem_written]
    simp
  other n hn := by
    have hne : r.val ≠ n.val := Fin.val_ne_of_ne hn.symm
    simp [hne]

/-- All eight words stored. -/
theorem StoredWords.complete (h : StoredWords r v ks s t) (hks : ∀ j, j ∈ ks) :
    t.w[r] = v ∧ t.written[r] = Vector.replicate 8 true := by
  constructor
  · exact eq_of_words fun j => by rw [h.word, if_pos (hks j)]
  · ext j hj
    have hmark := h.mark ⟨j, hj⟩
    rw [decide_eq_true (hks _), Bool.true_or] at hmark
    simpa using hmark

/-- The transfer, whenever it is carried out, puts word `k` of `v` into W[r], whose other words stay. -/
def Stores (r : Reg) (v : U256) (u : Transfer) (k : Fin 8) : Prop :=
  ∀ s : State, ∃ x, transfer exec u s = .next (storeWord { s with port := .wrote } r x k) ∧
    readWle x k.val = readWle v k.val ∧ ∀ j : Fin 8, j ≠ k → readWle x j.val = readWle s.w[r] j.val

/-- Transfers that store words of `v` in W[r], carried out in a row. -/
theorem run_stores {f : Fin 8 → Transfer} {m : Fin 8 → Fin 8} (hf : ∀ k, Stores r v (f k) (m k))
    (hr : s.rstN = true) (hb : s.status.busy = false) (ks : List (Fin 8)) :
    ∃ t, Host.Core.run core ks.length (withTransfers s (ks.map f)) = .next t ∧
      StoredWords r v (ks.map m) s t := by
  induction ks generalizing s with
  | nil => exact ⟨_, rfl, .refl s⟩
  | cons k ks ih =>
    obtain ⟨x, hx, hword, hkept⟩ := hf k (withTransfers s (ks.map f))
    obtain ⟨t, hrun, hrest⟩ := ih (s := storeWord { s with port := .wrote } r x (m k)) hr hb
    have hstep := (step_withTransfers_cons hr hb (f k) (ks.map f)).trans hx
    have hone := storedWords_storeWord (s := s) hword hkept
    exact ⟨t, (run_succ hstep ks.length).trans hrun, hone.cons hrest⟩

/-- The lanes of a read through the limb-order window (20_memory.md R46). -/
theorem readWle_lane (v : U256) (k n : Nat) (hn : n < 4) : lane (readWle v k) n = byteOf v (4 * k + n) := by
  obtain ⟨h0, h1, h2, h3⟩ := ofLanes_extract (byteOf v (4 * k)) (byteOf v (4 * k + 1))
    (byteOf v (4 * k + 2)) (byteOf v (4 * k + 3))
  obtain rfl | rfl | rfl | rfl : n = 0 ∨ n = 1 ∨ n = 2 ∨ n = 3 := by omega
  · exact h0
  · exact h1
  · exact h2
  · exact h3

/-- A write of a register's own word through the limb-order window changes nothing. -/
theorem writeWle_readWle (v : U256) (k : Nat) : writeWle v k (readWle v k) = v :=
  eq_of_bytes fun j hj => by
    rw [byteOf_writeWle _ _ _ _ hj]
    split
    · next h =>
      rw [readWle_lane _ _ _ (by omega), Nat.add_sub_cancel' h.1]
    · rfl

/-- A write of a register's own word through the big-endian window changes nothing. -/
theorem writeWbe_readWbe (v : U256) (k : Fin 8) : writeWbe v k.val (readWbe v k.val) = v :=
  eq_of_bytes fun j hj => by
    rw [byteOf_writeWbe _ _ k.isLt _ _ hj]
    split
    · next h =>
      rw [readWbe_lane _ _ _ (by omega)]
      congr 1
      omega
    · rfl

/-- A limb-order window write of word k of `v` stores it (20_memory.md R46). -/
theorem stores_wle (r : Reg) (v : U256) (k : Fin 8) :
    Stores r v (busWrite (wleOffset r k.val) (readWle v k.val)) k := fun s =>
  ⟨_, transfer_write_wle s r k _, (readWle_writeWle_same _ v k _).trans (by rw [writeWle_readWle]),
    fun _ hj => readWle_writeWle_other _ hj _⟩

/-- A big-endian window write of word k of `v` stores the word its mark covers (20_memory.md R47). -/
theorem stores_wbe (r : Reg) (v : U256) (k : Fin 8) :
    Stores r v (busWrite (wbeOffset r k.val) (readWbe v k.val)) (wbeMark k) := fun s =>
  ⟨_, transfer_write_wbe s r k _, (readWle_writeWbe_same _ v k _).trans (by rw [writeWbe_readWbe]),
    fun _ hj => readWle_writeWbe_other _ hj _⟩

/-- Eight transfers that store every word of `v`. -/
theorem run_stores_all {f : Nat → Transfer} {m : Fin 8 → Fin 8} (hf : ∀ k : Fin 8, Stores r v (f k.val) (m k))
    (hm : Function.Surjective m) (hr : s.rstN = true) (hb : s.status.busy = false) :
    ∃ t, Host.Core.run core 8 (withTransfers s ((List.range 8).map f)) = .next t ∧
      t.w[r] = v ∧ t.written[r] = Vector.replicate 8 true ∧
      ∀ n : Reg, n ≠ r → t.w[n] = s.w[n] ∧ t.written[n] = s.written[n] := by
  obtain ⟨t, hrun, h⟩ := run_stores hf hr hb (List.finRange 8)
  have hall : ∀ j, j ∈ (List.finRange 8).map m := fun j => by
    obtain ⟨k, rfl⟩ := hm j
    exact List.mem_map_of_mem (List.mem_finRange k)
  obtain ⟨hw, hmark⟩ := h.complete hall
  exact ⟨t, hrun, hw, hmark, h.other⟩

/-- Settles O48: the eight writes through either window store the eight words. -/
theorem windowRoundTrip : Obligations.WindowRoundTrip := by
  unfold Obligations.WindowRoundTrip
  intro s r v hb hr ts hts
  simp only [List.mem_cons, List.not_mem_nil, or_false] at hts
  obtain rfl | rfl := hts
  · exact run_stores_all (stores_wbe r v) Fin.rev_surjective hr hb
  · simp only [← readWle_eq_extract]
    exact run_stores_all (f := fun k => busWrite (wleOffset r k) (readWle v k)) (stores_wle r v)
      Function.surjective_id hr hb

end Run

/-! ### Waiting, and the transfer a step carries out -/

section Turns
variable {s t : State} {u : Transfer}

/-- A window transfer that is not refused is held while BUSY (20_memory.md R50). -/
theorem held_window (hb : s.status.busy = true) {r : Reg} {k : Fin 8} (hbe : u.be = 0b1111#4)
    (ha : u.addr = wleOffset r k.val ∨ u.addr = wbeOffset r k.val) : held s u = true := by
  obtain ⟨hle, hwbe⟩ := windowOffsets_aligned r k
  obtain ha | ha := ha
  · simp [held, hb, Transfer.refused, Transfer.toWindow, ha, hbe, hle, target_wleOffset]
  · simp [held, hb, Transfer.refused, Transfer.toWindow, ha, hbe, hwbe, target_wbeOffset]

/-- A host's turn leaves a held transfer the host's next one (45_control.md R130; log 14). -/
theorem head_host_of_held {rest : List Transfer} (ht : HostTurn s) (he : s.host = u :: rest)
    (hh : held s u = true) (h : step s = .next t) : t.host.head? = some u := by
  cases hn : nextTransfer s with
  | none =>
    rw [step_wait ht hn] at h
    cases h
    simp [he]
  | some e =>
    obtain ⟨v, rest'⟩ := e
    obtain ⟨hv, pre, post, hl, rfl, -⟩ := nextTransfer_eq_some hn
    rw [step_transfer hn] at h
    obtain ⟨-, -, hhost⟩ := transfer_port_host h
    rw [hhost]
    rw [he] at hl
    cases pre with
    | nil =>
      obtain ⟨rfl, -⟩ := List.cons.inj hl
      exact absurd (hv.symm.trans hh) Bool.false_ne_true
    | cons w pre =>
      obtain ⟨rfl, -⟩ := List.cons.inj hl
      rfl

/-- Settles O49: a window transfer is held while BUSY, and a held transfer waits. -/
theorem windowTransfersStallWhileBusy : Obligations.WindowTransfersStallWhileBusy := by
  unfold Obligations.WindowTransfersStallWhileBusy
  intro s r u rest k hk hb he hbe ha
  have hh : held s u = true := held_window hb (k := ⟨k, hk⟩) hbe ha
  refine ⟨fun ht => ?_, fun ht t h => head_host_of_held (.inr ht) he hh h⟩
  exact step_wait (.inl ht) (nextTransfer_host_none ht fun v hv => by
    rw [he] at hv
    exact Option.some.inj hv ▸ hh)

/-- A CMD write of a word that decodes, on an engine not BUSY, runs the command (45_control.md R131). -/
theorem transfer_cmdWrite {w : Word} {i : Instr} (hb : s.status.busy = false) (hd : decode w = .ok i) :
    transfer run (cmdWrite w) s = run i { s with port := .wrote } := by
  have ht : target 0x0010#14 = .cmd := by decide
  rw [cmdWrite, transfer_busWrite s w (by decide), ht]
  simp only [writeTarget, present, hb, hd, Bool.false_eq_true, if_false]

/-- A host's turn on a CMD write of a word that decodes, on an engine out of reset and not BUSY. -/
theorem step_cmdWrite {w : Word} {i : Instr} {rest : List Transfer} (ht : turnOf s = .host)
    (he : s.host = cmdWrite w :: rest) (hr : s.rstN = true) (hb : s.status.busy = false)
    (hd : decode w = .ok i) :
    step s = exec i { s with sched := s.sched.tail, host := rest, port := .wrote } :=
  (step_transfer (nextTransfer_host ht he (held_of_not_busy hr hb _))).trans (transfer_cmdWrite hb hd)

/-- The table's decoder is the decoder. -/
theorem decodeTableWord_eq_some {n w : Nat} {i : Instr} (h : decodeTableWord n w = some i) :
    decode (BitVec.ofNat 32 (w % 2 ^ n)) = .ok i := by
  unfold decodeTableWord at h
  split at h
  · next j hj => rw [hj, Option.some.inj h]
  · cases h

/-- Settles O54, turn by turn. -/
theorem stepRunsDecodedCommand : Obligations.StepRunsDecodedCommand := by
  unfold Obligations.StepRunsDecodedCommand
  refine ⟨?_, ?_, ?_, ?_, ?_⟩
  · intro s u rest ht he hh
    exact step_transfer (nextTransfer_host ht he hh)
  · intro s u pre post ht he hp hh
    exact step_transfer (nextTransfer_pass ht he hp hh)
  · intro s w i rest ht he hr hb hd
    exact step_cmdWrite ht he hr hb hd
  · intro s w i hd
    exact step_cmdWrite (s := s.withFetchWord 32 w) rfl rfl rfl rfl (decodeTableWord_eq_some hd)
  · intro s f ht hf hr
    exact step_engine_commit ht hf (by rw [hr])

end Turns

end Sys2Proof.Machine
end

section
/-! SUPPORT. Proofs about the encoding (30_encoding.md): the bits a format leaves free, decoding against
encoding, the words the decoder rejects, and the pseudo-instructions. -/

namespace Sys2Proof

/-! ### The word of a format, and its fields -/

section Words
variable {w : Word} {f : Format}

/-- The word of a command of this format: the opcode, the register fields the format uses, and 0 in
every bit it fixes (30_encoding.md R59, R60). -/
def Format.word (f : Format) (opc : BitVec 8) (rd rs1 rs2 : BitVec 6) : Word :=
  match f with
  | .n => packFields opc 0#6 0#6 0#6
  | .rrr => packFields opc rd rs1 rs2
  | .rr => packFields opc rd rs1 0#6
  | .ss => packFields opc 0#6 rs1 rs2
  | .s => packFields opc 0#6 rs1 0#6
  | .d => packFields opc rd 0#6 0#6

/-- The word of a format has the format's fixed bits clear. -/
theorem fixedBitsClear_word (f : Format) (opc : BitVec 8) (rd rs1 rs2 : BitVec 6) :
    f.fixedBitsClear (f.word opc rd rs1 rs2) = true := by
  obtain ⟨hrrr, hrr, hss, hs, hd, hn⟩ := fixedBitsClear_packFields opc rd rs1 rs2
  cases f with
  | n => exact hn
  | rrr => exact hrrr
  | rr => exact hrr
  | ss => exact hss
  | s => exact hs
  | d => exact hd

/-- A command's encoding is its format's word: its slots are the fields its format uses. -/
theorem encode_eq_word (i : Instr) : encode i =
    i.format.word i.opc (slotField i.slots.rd) (slotField i.slots.rs1) (slotField i.slots.rs2) := by
  cases i <;> rfl

/-- OPC is the quotient by 2^24. -/
theorem opcField_toNat (w : Word) : (opcField w).toNat = w.toNat / 2 ^ 24 := by
  have h : w.toNat < 2 ^ 32 := w.isLt
  rw [opcField, BitVec.extractLsb'_toNat, Nat.shiftRight_eq_div_pow]
  omega

/-- The bits that no field of a command holds, 23:22, 15:14 and 7:6, are fixed at 0 by every format
(30_encoding.md R59). -/
theorem gap_clear (h : f.fixedBitsClear w = true) :
    ∀ k ∈ [6, 7, 14, 15, 22, 23], w.getLsbD k = false := by
  intro k hk
  have hfixed : ∀ k ∈ [6, 7, 14, 15, 22, 23], k < 24 ∧ f.mask.getLsbD k = true := by
    cases f <;> decide
  exact (fixedBitsClear_iff f w).mp h k (hfixed k hk).1 (hfixed k hk).2

/-- A word with those bits clear is packed from its fields. -/
theorem packFields_fields (h : ∀ k ∈ [6, 7, 14, 15, 22, 23], w.getLsbD k = false) :
    packFields (opcField w) (.ofFin (rdField w)) (.ofFin (rs1Field w)) (.ofFin (rs2Field w)) = w := by
  have hgap : w[6] = false ∧ w[7] = false ∧ w[14] = false ∧ w[15] = false ∧ w[22] = false ∧
      w[23] = false := by simpa using h
  apply BitVec.eq_of_getLsbD_eq
  intro k hk
  rw [packFields_getLsbD]
  simp only [BitVec.getLsbD_append, opcField, rdField, rs1Field, rs2Field, BitVec.ofFin_toFin,
    BitVec.getLsbD_extractLsb']
  interval_cases k <;> simp [hgap]

/-- A register field is 0 when its six bits are fixed. -/
theorem field_eq_zero (h : f.fixedBitsClear w = true) {start : Nat}
    (hm : ∀ k < 6, start + k < 24 ∧ f.mask.getLsbD (start + k) = true) :
    w.extractLsb' start 6 = 0#6 := by
  apply BitVec.eq_of_getLsbD_eq
  intro k hk
  have hbit := (fixedBitsClear_iff f w).mp h _ (hm k hk).1 (hm k hk).2
  simp [hbit]

/-- A word with a format's fixed bits clear is that format's word, of its own fields. -/
theorem word_fields (h : f.fixedBitsClear w = true) :
    f.word (opcField w) (.ofFin (rdField w)) (.ofFin (rs1Field w)) (.ofFin (rs2Field w)) = w := by
  have hp := packFields_fields (gap_clear h)
  simp only [rdField, rs1Field, rs2Field, BitVec.ofFin_toFin] at hp ⊢
  cases f with
  | n =>
    rw [field_eq_zero h (start := 16) (by decide), field_eq_zero h (start := 8) (by decide),
      field_eq_zero h (start := 0) (by decide)] at hp
    exact hp
  | rrr => exact hp
  | rr => rwa [field_eq_zero h (start := 0) (by decide)] at hp
  | ss => rwa [field_eq_zero h (start := 16) (by decide)] at hp
  | s =>
    rw [field_eq_zero h (start := 16) (by decide), field_eq_zero h (start := 0) (by decide)] at hp
    exact hp
  | d =>
    rw [field_eq_zero h (start := 8) (by decide), field_eq_zero h (start := 0) (by decide)] at hp
    exact hp

/-- OPC of a command's encoding. -/
@[simp] theorem opcField_encode (i : Instr) : opcField (encode i) = i.opc := opcField_packFields _ _ _ _

/-- RD of a command's encoding. -/
@[simp] theorem rdField_encode (i : Instr) : rdField (encode i) = (slotField i.slots.rd).toFin :=
  rdField_packFields _ _ _ _

/-- RS1 of a command's encoding. -/
@[simp] theorem rs1Field_encode (i : Instr) : rs1Field (encode i) = (slotField i.slots.rs1).toFin :=
  rs1Field_packFields _ _ _ _

/-- RS2 of a command's encoding. -/
@[simp] theorem rs2Field_encode (i : Instr) : rs2Field (encode i) = (slotField i.slots.rs2).toFin :=
  rs2Field_packFields _ _ _ _

end Words

/-! ### The decoder -/

section Decoder
variable {w : Word} {i : Instr}

/-- What a command of known opcode is accepted as, and when. -/
theorem decodeAs_eq_ok {f : Format} {j : Instr} :
    decodeAs f w i = .ok j ↔ f.fixedBitsClear w = true ∧ i = j := by
  unfold decodeAs
  split <;> simp [*]

/-- A word with a bit set that its format fixes is rejected as RSVD_FIELD. -/
theorem decodeAs_of_set {f : Format} (h : w &&& f.mask &&& 0x00FFFFFF#32 ≠ 0#32) :
    decodeAs f w i = .error .rsvdField :=
  if_neg (by simpa [Format.fixedBitsClear] using h)

/-- A word whose format's fixed bits are 0 is accepted. -/
theorem decodeAs_of_clear {f : Format} (h : w &&& f.mask &&& 0x00FFFFFF#32 = 0#32) :
    decodeAs f w i = .ok i :=
  if_pos (by simpa [Format.fixedBitsClear] using h)

/-- The command is the one of the word's opcode whose registers are the word's fields. -/
structure IsReading (w : Word) (i : Instr) : Prop where
  opc : i.opc = opcField w
  encode : encode i =
    i.format.word i.opc (.ofFin (rdField w)) (.ofFin (rs1Field w)) (.ofFin (rs2Field w))

/-- Everything the decoder can do with a word: an undefined opcode is illegal; else the word is read as
the command of its opcode and fields. -/
theorem decode_cases (w : Word) : decode w = .error .illegalOpcode ∨
    ∃ i, decode w = decodeAs i.format w i ∧ IsReading w i := by
  have read : ∀ f i, f = i.format → IsReading w i →
      ∃ j, decodeAs f w i = decodeAs j.format w j ∧ IsReading w j := by
    rintro _ i rfl hi
    exact ⟨i, rfl, hi⟩
  unfold decode
  dsimp only
  split
  case h_44 => exact .inl rfl
  all_goals next h => exact .inr (read _ _ rfl ⟨BitVec.eq_of_toNat_eq h.symm, rfl⟩)

/-- A word with a command's opcode is read in that command's format, as a command of that opcode. -/
theorem decode_of_opc (h : opcField w = i.opc) :
    ∃ j, decode w = decodeAs i.format w j ∧ j.opc = i.opc := by
  unfold decode
  rw [h]
  cases i <;> exact ⟨_, rfl, rfl⟩

/-- A word whose opcode is no command's is illegal. -/
theorem decode_illegal (h : ∀ i : Instr, i.opc ≠ opcField w) : decode w = .error .illegalOpcode := by
  obtain hill | ⟨i, -, hi⟩ := decode_cases w
  · exact hill
  · exact absurd hi.opc (h i)

/-- The encoding of a command is read as that command. -/
theorem decode_encode_eq_decodeAs (i : Instr) : decode (encode i) = decodeAs i.format (encode i) i := by
  unfold decode
  simp only [opcField_encode, rdField_encode, rs1Field_encode, rs2Field_encode]
  cases i <;> rfl

/-- Settles O2: the word is read as the command, and its format's fixed bits are clear. -/
theorem decodeOfEncode : Obligations.DecodeOfEncode := by
  unfold Obligations.DecodeOfEncode
  intro i
  have hclear : i.format.fixedBitsClear (encode i) = true := by
    rw [encode_eq_word]
    exact fixedBitsClear_word _ _ _ _ _
  rw [decode_encode_eq_decodeAs, decodeAs_eq_ok]
  exact ⟨hclear, rfl⟩

/-- Settles O3: the accepted word is its format's word of its own fields. -/
theorem encodeOfDecode : Obligations.EncodeOfDecode := by
  unfold Obligations.EncodeOfDecode
  intro w i h
  obtain hill | ⟨j, hd, hj⟩ := decode_cases w
  · rw [hill] at h
    cases h
  · obtain ⟨hclear, rfl⟩ := decodeAs_eq_ok.mp (hd.symm.trans h)
    rw [hj.encode, hj.opc]
    exact word_fields hclear

/-- No command's opcode is in a gap of the opcode map (30_encoding.md R65). -/
theorem opc_not_in_gap (i : Instr) : ¬ ((0x08 ≤ i.opc.toNat ∧ i.opc.toNat ≤ 0x0F) ∨
    (0x1B ≤ i.opc.toNat ∧ i.opc.toNat ≤ 0x1F) ∨ (0x26 ≤ i.opc.toNat ∧ i.opc.toNat ≤ 0x2F) ∨
    (0x39 ≤ i.opc.toNat ∧ i.opc.toNat ≤ 0x3F) ∨ 0x49 ≤ i.opc.toNat) := by
  cases i <;> simp [Instr.opc]

/-- A word of known opcode is rejected as RSVD_FIELD or decodes to a command of that opcode. -/
theorem decode_of_known (h : i.opc.toNat = w.toNat / 2 ^ 24) :
    (w &&& i.format.mask &&& 0x00FFFFFF#32 ≠ 0#32 → decode w = .error .rsvdField) ∧
    (w &&& i.format.mask &&& 0x00FFFFFF#32 = 0#32 → ∃ j, decode w = .ok j ∧ j.opc = i.opc) := by
  have ho : opcField w = i.opc := BitVec.eq_of_toNat_eq ((opcField_toNat w).trans h.symm)
  obtain ⟨j, hd, hj⟩ := decode_of_opc ho
  exact ⟨fun hs => hd.trans (decodeAs_of_set hs), fun hc => ⟨j, hd.trans (decodeAs_of_clear hc), hj⟩⟩

/-- Settles O4: the gaps of the opcode map hold no command, and the rest is read by opcode. -/
theorem decodingIsTotalAndRejectsByName : Obligations.DecodingIsTotalAndRejectsByName := by
  unfold Obligations.DecodingIsTotalAndRejectsByName
  intro w n
  refine ⟨fun hgap => decode_illegal fun i hi => opc_not_in_gap i ?_, fun i hi => decode_of_known hi.symm⟩
  rw [hi, opcField_toNat]
  exact hgap

/-- Settles O1, by evaluation of the decoder. -/
theorem writtenOutWordsDecode : Obligations.WrittenOutWordsDecode := by
  unfold Obligations.WrittenOutWordsDecode
  decide

end Decoder

end Sys2Proof

namespace Sys2Proof.Machine

/-! ### Rejection at presentation -/

section Rejection
variable {s : State} {w : Word}

/-- A CMD write of a word that does not decode, on an engine not BUSY, is rejected (45_control.md R131). -/
theorem transfer_cmdWrite_rejected {run : Instr → State → Host.Outcome State Fault Refusal} {e : Reject}
    (hb : s.status.busy = false) (hd : decode w = .error e) :
    transfer run (cmdWrite w) s = .next (reject e { s with port := .wrote }) := by
  have ht : target 0x0010#14 = .cmd := by decide
  rw [cmdWrite, transfer_busWrite s w (by decide), ht]
  simp only [writeTarget, present, hb, hd, Bool.false_eq_true, if_false]

/-- Settles O6: the presented word is decoded, and what the decoder rejects by name is rejected with the
code of that name. -/
theorem undecodableWordIsRejected : Obligations.UndecodableWordIsRejected := by
  unfold Obligations.UndecodableWordIsRejected
  intro s w hb n rejects
  refine ⟨fun hn => ?_, fun i hi => ?_⟩
  · have hd : decode w = .error .illegalOpcode := decode_illegal fun i hi =>
      hn i (by rw [hi, opcField_toNat])
    exact transfer_cmdWrite_rejected hb hd
  · obtain ⟨hset, hclear⟩ := decode_of_known hi
    exact ⟨fun h => transfer_cmdWrite_rejected hb (hset h), hclear⟩

end Rejection

/-! ### The pseudo-instructions (30_encoding.md R67) -/

section Moves
variable {s t u : State} {rd rs z : Reg}

/-- FCAN copies a value below P (41_fp.md R92). -/
theorem fcan_copies (rd : Reg) (hi : Idle s) (h : s.w[rs].toNat < s.const.P) :
    RegResult (.fcan rd rs) s rd [s.w[rs]] := by
  have hc : check (.fcan rd rs) s = none :=
    check_rr rfl rd.isLt rs.isLt fun h => absurd h (by decide)
  refine regResult_of_command (fun _ => by unfold exec; rfl) (d := ⟨rd, .fp⟩) rfl hi hc ?_ rfl
  simp only [Instr.slots, Slots.rr, asU256_u256, ofU256, Nat.mod_eq_of_lt h, BitVec.ofNat_toNat,
    BitVec.setWidth_eq]

/-- The frames of two commands in sequence are one frame. -/
theorem CommitFrame.trans (h : CommitFrame s t) (h' : CommitFrame t u) : CommitFrame s u where
  const := h'.const.trans h.const
  irqEn := h'.irqEn.trans h.irqEn
  inflight := h'.inflight
  rstN := h'.rstN.trans h.rstN
  port := h'.port.trans h.port
  host := h'.host.trans h.host
  sched := h'.sched.trans h.sched
  draws := h'.draws.trans h.draws

/-- A command without flags leaves the engine idle again. -/
theorem CommitFrame.idle (h : CommitFrame s t) (hst : t.status = statusAfter s.status) : Idle t :=
  ⟨by rw [hst]; rfl, h.inflight⟩

/-- A register outside the group written keeps its value. -/
theorem WritesGroup.outside {r n : Reg} {vs : List U256} (h : WritesGroup s t r vs)
    (hn : n.val < r.val ∨ r.val + vs.length ≤ n.val) : t.w[n] = s.w[n] := by
  rw [(h n).1]
  split
  · exact List.getD_eq_default _ _ (by omega)
  · rfl

/-- Two neighbouring registers written one after the other are a pair written. -/
theorem WritesGroup.pair {r r' : Reg} {a b : U256} (h : WritesGroup s t r [a]) (h' : WritesGroup t u r' [b])
    (hr : r'.val = r.val + 1) : WritesGroup s u r [a, b] := by
  intro n
  rw [(h' n).1, (h' n).2, (h n).1, (h n).2, hr]
  obtain hlt | heq | heq | hgt :
      n.val < r.val ∨ n.val = r.val ∨ n.val = r.val + 1 ∨ r.val + 1 < n.val := by omega
  · simp [Nat.not_le.mpr hlt, Nat.not_le.mpr (Nat.lt_succ_of_lt hlt)]
  · simp [heq]
  · simp [heq]
  · obtain ⟨m, hm⟩ := Nat.exists_eq_add_of_lt hgt
    have hd : n.val - r.val = m + 2 := by omega
    have hd' : n.val - (r.val + 1) = m + 1 := by omega
    refine ⟨by simp [hd, hd'], ?_⟩
    simp only [List.length_cons, List.length_nil]
    rw [if_neg (by omega), if_neg (by omega), if_neg (by omega)]

/-- F2MOV copies a pair, register by register, unless the first write hits the second source. -/
theorem fcan_pair_copies {rd' rs' : Reg} (hi : Idle s) (hd : rd'.val = rd.val + 1) (hs : rs'.val = rs.val + 1)
    (h : s.w[rs].toNat < s.const.P) (h' : s.w[rs'].toNat < s.const.P) (hne : rd ≠ rs') :
    ∃ t u, Completes (.fcan rd rs) s t ∧ Completes (.fcan rd' rs') t u ∧ CommitFrame s u ∧
      u.status = statusAfter s.status ∧ WritesGroup s u rd [s.w[rs], s.w[rs']] := by
  obtain ⟨t, ht, hft, hst, hwt⟩ := fcan_copies rd hi h
  have hkeep : t.w[rs'] = s.w[rs'] := hwt.outside (by
    have : rs'.val ≠ rd.val := fun e => hne (Fin.ext e.symm)
    simp only [List.length_singleton]
    omega)
  obtain ⟨u, hu, hfu, hsu, hwu⟩ := fcan_copies (rs := rs') rd' (hft.idle hst)
    (by rw [hkeep, hft.const]; exact h')
  rw [hkeep] at hwu
  exact ⟨t, u, ht, hu, hft.trans hfu, by rw [hsu, hst]; rfl, hwt.pair hwu hd⟩

/-- A point plus the negation of a point with Z = 0 is the first point (43_g1.md R107, R108). -/
theorem addPoint_negPoint_of_z_zero {F : Type} [DecidableEq F] (k : FieldOps F) (a : F) {q1 q2 : Point F}
    (h : q2.z = k.zero) : addPoint k a q1 (negPoint k q2) = q1 :=
  if_pos (decide_eq_true h)

/-- PSUB of a point with Z = 0 copies a G1 point. -/
theorem psub_copies (hi : Idle s) (hd : rd.val + 3 ≤ 64) (h1 : rs.val + 3 ≤ 64) (h2 : z.val + 3 ≤ 64)
    (c1 : GroupBelowP s rs 3) (c2 : GroupBelowP s z 3) (hz : regAt s.w (z.val + 2) = 0#256) :
    RegResult (.psub rd rs z) s rd
      [regAt s.w rs.val, regAt s.w (rs.val + 1), regAt s.w (rs.val + 2)] := by
  have hc : check (.psub rd rs z) s = none := check_rrr rfl hd h1 h2 (fun _ => c1) (fun _ => c2)
  refine regResult_of_command (fun _ => by unfold exec; rfl) (d := ⟨rd, .g1⟩) rfl hi hc ?_ rfl
  have hinf : (asG1 (readSlot s.w (some ⟨z, .g1⟩))).z = (fpOps s.const).zero := by
    simp [hz, fpOps]
  simp only [Instr.slots, Slots.rrr]
  rw [addPoint_negPoint_of_z_zero _ _ hinf]
  simp [ofG1]

/-- QSUB of a point with Z = 0 copies a G2 point. -/
theorem qsub_copies (hi : Idle s) (hd : rd.val + 6 ≤ 64) (h1 : rs.val + 6 ≤ 64) (h2 : z.val + 6 ≤ 64)
    (c1 : GroupBelowP s rs 6) (c2 : GroupBelowP s z 6) (hz0 : regAt s.w (z.val + 4) = 0#256)
    (hz1 : regAt s.w (z.val + 5) = 0#256) :
    RegResult (.qsub rd rs z) s rd
      [regAt s.w rs.val, regAt s.w (rs.val + 1), regAt s.w (rs.val + 2), regAt s.w (rs.val + 3),
       regAt s.w (rs.val + 4), regAt s.w (rs.val + 5)] := by
  have hc : check (.qsub rd rs z) s = none := check_rrr rfl hd h1 h2 (fun _ => c1) (fun _ => c2)
  refine regResult_of_command (fun _ => by unfold exec; rfl) (d := ⟨rd, .g2⟩) rfl hi hc ?_ rfl
  have hinf : (asG2 (readSlot s.w (some ⟨z, .g2⟩))).z = (fp2Ops s.const).zero := by
    simp [hz0, hz1, fp2Ops]
  simp only [Instr.slots, Slots.rrr]
  rw [addPoint_negPoint_of_z_zero _ _ hinf]
  simp [ofG2, ofFp2]

/-- Settles O26: FCAN copies a canonical value, and a sum with infinity copies the other point. -/
theorem movesCopyTheirSource : Obligations.MovesCopyTheirSource := by
  unfold Obligations.MovesCopyTheirSource
  intro s rd rs z hi
  refine ⟨fun h => ⟨rfl, fcan_copies rd hi h⟩, ?_, ?_, ?_⟩
  · intro hd hs hc hlap
    have hd' : rd.val + 1 < 64 := hd
    have hs' : rs.val + 1 < 64 := hs
    have h0 : regAt s.w rs.val = s.w[rs] := regAt_val s.w rs
    have h1 : regAt s.w (rs.val + 1) = s.w[(⟨rs.val + 1, hs'⟩ : Reg)] := regAt_val s.w ⟨rs.val + 1, hs'⟩
    have hne : rd ≠ ⟨rs.val + 1, hs'⟩ := fun e => by
      have : rd.val = rs.val + 1 := congrArg Fin.val e
      omega
    obtain ⟨t, u, ht, hu, hf, hst, hw⟩ := fcan_pair_copies (rd' := ⟨rd.val + 1, hd'⟩) hi rfl rfl
      (h0 ▸ hc 0 (by decide)) (h1 ▸ hc 1 (by decide)) hne
    rw [h0, h1]
    exact ⟨_, _, t, u, rfl, rfl, dif_pos ⟨hd', hs'⟩, ht, hu, hf, hst, hw⟩
  · intro hd h1 h2 c1 c2 hz
    exact ⟨rfl, psub_copies hi hd h1 h2 c1 c2 hz⟩
  · intro hd h1 h2 c1 c2 hz0 hz1
    exact ⟨rfl, qsub_copies hi hd h1 h2 c1 c2 hz0 hz1⟩

end Moves

end Sys2Proof.Machine
end

section
/-! SUPPORT. Proofs about the evaluation methods of the integer unit: the limb carry and borrow chains
(40_integer.md R70) and the half-limb multiplier (R75). -/

namespace Sys2Proof.Machine

/-! ### Digits -/

/-- One more digit of `k` bits. -/
theorem two_pow_mul_succ (k n : Nat) : 2 ^ (k * (n + 1)) = 2 ^ k * 2 ^ (k * n) := by
  rw [Nat.mul_succ, Nat.pow_add, Nat.mul_comm]

@[simp] theorem length_digitsOf (k n v : Nat) : (digitsOf k n v).length = n := by
  induction n generalizing v with
  | zero => rfl
  | succ n ih => rw [digitsOf, List.length_cons, ih]

/-- A number of `n` digits is the number of its digits. -/
theorem ofDigits_digitsOf {k n v : Nat} (h : v < 2 ^ (k * n)) : ofDigits k (digitsOf k n v) = v := by
  induction n generalizing v with
  | zero =>
    have hv : v = 0 := by simpa using h
    rw [hv, digitsOf, ofDigits]
  | succ n ih =>
    rw [two_pow_mul_succ] at h
    rw [digitsOf, ofDigits, ih (Nat.div_lt_of_lt_mul h), Nat.mod_add_div]

/-- A row of zero words has the value 0. -/
theorem ofDigits_replicate_zero (k n : Nat) : ofDigits k (List.replicate n 0) = 0 := by
  induction n with
  | zero => rfl
  | succ n ih => rw [List.replicate_succ, ofDigits, ih, Nat.mul_zero]

/-! ### The carry and borrow chains -/

section LimbChains
variable {n a b c : Nat}

/-- The carry chain from any carry in: the low limb and the carry into the rest are those of the exact sum. -/
theorem addLimbs_digitsOf (ha : a < 2 ^ (64 * n)) (hb : b < 2 ^ (64 * n)) :
    ofDigits 64 (addLimbs (digitsOf 64 n a) (digitsOf 64 n b) c).1 = (a + b + c) % 2 ^ (64 * n) ∧
    (addLimbs (digitsOf 64 n a) (digitsOf 64 n b) c).2 = (a + b + c) / 2 ^ (64 * n) := by
  induction n generalizing a b c with
  | zero =>
    obtain ⟨rfl, rfl⟩ : a = 0 ∧ b = 0 := by simpa using And.intro ha hb
    simp [digitsOf, addLimbs, ofDigits, Nat.mod_one]
  | succ n ih =>
    rw [two_pow_mul_succ] at ha hb ⊢
    have hrest : a / 2 ^ 64 + b / 2 ^ 64 + (a % 2 ^ 64 + b % 2 ^ 64 + c) / 2 ^ 64 =
        (a + b + c) / 2 ^ 64 := by omega
    have hlimb : (a % 2 ^ 64 + b % 2 ^ 64 + c) % 2 ^ 64 = (a + b + c) % 2 ^ 64 := by omega
    obtain ⟨hsum, hcarry⟩ := ih (c := (a % 2 ^ 64 + b % 2 ^ 64 + c) / 2 ^ 64)
      (Nat.div_lt_of_lt_mul ha) (Nat.div_lt_of_lt_mul hb)
    simp only [digitsOf, addLimbs, ofDigits]
    rw [hsum, hcarry, hrest, hlimb, Nat.mod_mul, Nat.div_div_eq_div_mul]
    exact ⟨rfl, rfl⟩

/-- The borrow chain from any borrow in: the low limb and the borrow from the rest are those of the exact
difference. -/
theorem subLimbs_digitsOf (ha : a < 2 ^ (64 * n)) (hb : b < 2 ^ (64 * n)) (hc : c ≤ 1) :
    ofDigits 64 (subLimbs (digitsOf 64 n a) (digitsOf 64 n b) c).1 =
      (2 ^ (64 * n) + a - (b + c)) % 2 ^ (64 * n) ∧
    (subLimbs (digitsOf 64 n a) (digitsOf 64 n b) c).2 = if a < b + c then 1 else 0 := by
  induction n generalizing a b c with
  | zero =>
    obtain ⟨rfl, rfl⟩ : a = 0 ∧ b = 0 := by simpa using And.intro ha hb
    refine ⟨(Nat.mod_one _).symm, ?_⟩
    change c = if 0 < 0 + c then 1 else 0
    split <;> omega
  | succ n ih =>
    rw [two_pow_mul_succ] at ha hb ⊢
    have ha' := Nat.div_lt_of_lt_mul ha
    have hb' := Nat.div_lt_of_lt_mul hb
    have hborrow : (if a % 2 ^ 64 < b % 2 ^ 64 + c then 1 else 0) ≤ 1 := by split <;> omega
    obtain ⟨hdiff, hout⟩ := ih ha' hb' hborrow
    simp only [digitsOf, subLimbs, ofDigits]
    rw [hdiff, hout, Nat.mod_mul]
    generalize 2 ^ (64 * n) = m at *
    have hlow : (2 ^ 64 + a % 2 ^ 64 - (b % 2 ^ 64 + c)) % 2 ^ 64 =
        (2 ^ 64 * m + a - (b + c)) % 2 ^ 64 := by omega
    have hhigh : m + a / 2 ^ 64 - (b / 2 ^ 64 + if a % 2 ^ 64 < b % 2 ^ 64 + c then 1 else 0) =
        (2 ^ 64 * m + a - (b + c)) / 2 ^ 64 := by split <;> omega
    have hlt : (a / 2 ^ 64 < b / 2 ^ 64 + if a % 2 ^ 64 < b % 2 ^ 64 + c then 1 else 0) ↔ a < b + c := by
      split <;> omega
    simp only [hlow, hhigh, hlt, and_self]

/-- Settles O38, by induction on the number of limbs, for every carry and borrow in. -/
theorem limbChainsComputeSumAndDifference : Obligations.LimbChainsComputeSumAndDifference := by
  unfold Obligations.LimbChainsComputeSumAndDifference
  intro n a b ha hb
  exact ⟨addLimbs_digitsOf ha hb, subLimbs_digitsOf ha hb (Nat.zero_le 1)⟩

end LimbChains

/-! ### The half-limb multiplier -/

section HalfLimbs
variable {x c y : Nat} {bs ts zs : List Nat}

/-- One row adds `x · bs` and the carry to the words under it; its last carry takes the place of the word
after them, and the words above stay. -/
theorem mulRow_adds_product (h : ts.length = bs.length) : ∃ d ds, ds.length = bs.length ∧
    mulRow x (ts ++ y :: zs) bs c = d :: ds ++ zs ∧
    ofDigits 32 (d :: ds) = ofDigits 32 ts + x * ofDigits 32 bs + c := by
  induction bs generalizing ts c with
  | nil =>
    obtain rfl := List.length_eq_zero_iff.mp h
    exact ⟨c, [], rfl, rfl, by simp [ofDigits]⟩
  | cons b bs ih =>
    obtain ⟨t, ts, rfl⟩ := List.exists_cons_of_length_eq_add_one h
    obtain ⟨d, ds, hlen, hrow, hval⟩ := ih (c := (t + x * b + c) / 2 ^ 32) (Nat.succ.inj h)
    refine ⟨(t + x * b + c) % 2 ^ 32, d :: ds, congrArg Nat.succ hlen, ?_, ?_⟩
    · rw [List.cons_append, mulRow, hrow]
      rfl
    · have hsplit := Nat.mod_add_div (t + x * b + c) (2 ^ 32)
      rw [ofDigits, hval, ofDigits, ofDigits]
      linear_combination hsplit

/-- The rows add `xs · bs` to the words under the first row, when the words above are still 0. -/
theorem ofDigits_mulRows (xs : List Nat) (h : ts.length = bs.length) :
    ofDigits 32 (mulRows bs xs (ts ++ List.replicate xs.length 0)) =
      ofDigits 32 ts + ofDigits 32 xs * ofDigits 32 bs := by
  induction xs generalizing ts with
  | nil => simp [mulRows, ofDigits]
  | cons x xs ih =>
    obtain ⟨d, ds, hlen, hrow, hval⟩ :=
      mulRow_adds_product (x := x) (c := 0) (y := 0) (zs := List.replicate xs.length 0) h
    rw [List.length_cons, List.replicate_succ, mulRows, hrow, List.cons_append]
    dsimp only
    rw [ofDigits, ih hlen, ofDigits]
    rw [ofDigits] at hval
    linear_combination hval

/-- Settles O39: from a zero buffer the rows leave the product of the numbers whose half-limbs they take. -/
theorem halfLimbMultiplierIsExact : Obligations.HalfLimbMultiplierIsExact := by
  unfold Obligations.HalfLimbMultiplierIsExact
  intro a b ha hb
  have hrows := ofDigits_mulRows (ts := List.replicate 8 0) (bs := digitsOf 32 8 b) (digitsOf 32 8 a)
    (by simp)
  rw [length_digitsOf, ← List.replicate_add, ofDigits_replicate_zero, ofDigits_digitsOf ha,
    ofDigits_digitsOf hb, Nat.zero_add] at hrows
  exact hrows

end HalfLimbs

end Sys2Proof.Machine
end

section
/-! SUPPORT. Proofs about the integer commands (40_integer.md R71 to R74, R76 to R78). -/

namespace Sys2Proof.Machine

/-! ### The values written -/

/-- A 256-bit result is taken modulo 2^256. -/
theorem ofU256_eq_mod (n : Nat) : ofU256 n = [BitVec.ofNat 256 (n % 2 ^ 256)] := by
  rw [ofU256]
  congr 1
  exact BitVec.eq_of_toNat_eq (by simp)

/-- The pair of registers of a 512-bit result holds it modulo 2^512. -/
theorem ofU512_value (n : Nat) :
    (BitVec.ofNat 256 n).toNat + 2 ^ 256 * (BitVec.ofNat 256 (n / 2 ^ 256)).toNat =
      n % (2 ^ 256 * 2 ^ 256) := by
  rw [BitVec.toNat_ofNat, BitVec.toNat_ofNat, Nat.mod_mul]

/-- The difference modulo `m` of two values below `m`: `m` is added exactly when there is a borrow. -/
theorem sub_mod_eq_ite {m a b : Nat} (ha : a < m) (hb : b < m) :
    (m + a - b) % m = if a < b then a + m - b else a - b := by
  split
  · rw [Nat.mod_eq_of_lt (by omega), Nat.add_comm]
  · rw [Nat.add_sub_assoc (by omega), Nat.add_mod_left, Nat.mod_eq_of_lt (by omega)]

/-! ### The commands -/

section IntegerCommands
variable {i : Instr} {s : State}

/-- A command that writes registers and C, and nothing else. -/
theorem carryResult_of_command {f : Config → Latched → Result}
    (hf : ∀ s, exec i s = command i s f) {d : Slot} (hd : i.slots.rd = some d)
    (hi : Idle s) (hc : check i s = none) {vs : List U256} {b : Bool}
    (hr : f s.const ⟨readSlot s.w i.slots.rs1, readSlot s.w i.slots.rs2⟩ = { dest := vs, flags := .carry b })
    (hl : vs.length = d.ty.size) :
    ∃ t, Completes i s t ∧ CommitFrame s t ∧ WritesGroup s t d.reg vs ∧
      t.status = { statusAfter s.status with c := b } := by
  obtain ⟨t, hcomp, hframe, hstatus, hwrites⟩ := completes_with hf hd hi hc hr hl
  exact ⟨t, hcomp, hframe, hwrites, hstatus⟩

/-- Settles O14: the sum and the difference modulo 2^256, C the carry or the borrow out. -/
theorem addAndSubResults : Obligations.AddAndSubResults := by
  unfold Obligations.AddAndSubResults
  intro s rd rs1 rs2 hi a b
  have ha : a < 2 ^ 256 := s.w[rs1].isLt
  have hb : b < 2 ^ 256 := s.w[rs2].isLt
  constructor
  · have hc : check (.add rd rs1 rs2) s = none := check_rrr rfl rd.isLt rs1.isLt rs2.isLt nofun nofun
    refine carryResult_of_command (fun _ => by unfold exec; rfl) (d := ⟨rd, .u256⟩) rfl hi hc ?_ rfl
    simp only [Instr.slots, Slots.rrr, asU256_u256]
    rw [ofU256_eq_mod, carryOut_eq 256 _ (by omega)]
  · have hc : check (.sub rd rs1 rs2) s = none := check_rrr rfl rd.isLt rs1.isLt rs2.isLt nofun nofun
    refine carryResult_of_command (fun _ => by unfold exec; rfl) (d := ⟨rd, .u256⟩) rfl hi hc ?_ rfl
    simp only [Instr.slots, Slots.rrr, asU256_u256]
    rw [ofU256_eq_mod, sub_mod_eq_ite ha hb, borrowOut]

/-- Settles O15: both compares write the three flags of the unsigned order of what they latched. -/
theorem compareResults : Obligations.CompareResults := by
  unfold Obligations.CompareResults
  intro s rs1 rs2 hi
  constructor
  · have hc : check (.cmp rs1 rs2) s = none := check_ss rfl rs1.isLt rs2.isLt nofun nofun
    refine flagResult_of_command (fun _ => by unfold exec; rfl) rfl hi hc
      (g := compareFlags s.w[rs1].toNat s.w[rs2].toNat) ?_
    simp only [Instr.slots, Slots.ss, asU256_u256]
  · intro h1 h2
    have hc : check (.cmpw rs1 rs2) s = none := check_ss rfl h1 h2 nofun nofun
    refine flagResult_of_command (fun _ => by unfold exec; rfl) rfl hi hc
      (g := compareFlags (wide s rs1) (wide s rs2)) ?_
    simp only [Instr.slots, Slots.ss, asU512_u512]

/-- Settles O16: the product of two 256-bit values fits the pair. -/
theorem mulResult : Obligations.MulResult := by
  unfold Obligations.MulResult
  intro s rd rs1 rs2 hi hd
  have hlt : s.w[rs1].toNat * s.w[rs2].toNat < 2 ^ 256 * 2 ^ 256 :=
    Nat.mul_lt_mul'' s.w[rs1].isLt s.w[rs2].isLt
  have hc : check (.mul rd rs1 rs2) s = none := check_rrr rfl hd rs1.isLt rs2.isLt nofun nofun
  refine ⟨_, _, (ofU512_value _).trans (Nat.mod_eq_of_lt hlt), ?_⟩
  refine regResult_of_command (fun _ => by unfold exec; rfl) (d := ⟨rd, .u512⟩) rfl hi hc ?_ rfl
  simp only [Instr.slots, Slots.rrr, asU256_u256, ofU512]

/-- Settles O17: the pairs' sum and difference modulo 2^512, C the carry or the borrow out. -/
theorem wideAddAndSubResults : Obligations.WideAddAndSubResults := by
  unfold Obligations.WideAddAndSubResults
  intro s rd rs1 rs2 hi hd h1 h2 a b m
  have ha : a < m := wide_lt s rs1
  have hb : b < m := wide_lt s rs2
  constructor
  · have hc : check (.addw rd rs1 rs2) s = none := check_rrr rfl hd h1 h2 nofun nofun
    obtain ⟨t, ht⟩ := carryResult_of_command (fun _ => by unfold exec; rfl) (d := ⟨rd, .u512⟩) rfl hi hc
      (vs := ofU512 (a + b)) (b := decide (m ≤ a + b)) (by
        simp only [Instr.slots, Slots.rrr, asU512_u512]
        rw [carryOut_512 _ (by omega)]) rfl
    exact ⟨t, _, _, ofU512_value _, ht⟩
  · have hc : check (.subw rd rs1 rs2) s = none := check_rrr rfl hd h1 h2 nofun nofun
    obtain ⟨t, ht⟩ := carryResult_of_command (fun _ => by unfold exec; rfl) (d := ⟨rd, .u512⟩) rfl hi hc
      (vs := ofU512 (m + a - b)) (b := decide (a < b)) (by
        simp only [Instr.slots, Slots.rrr, asU512_u512, borrowOut]
        rfl) rfl
    exact ⟨t, _, _, (ofU512_value _).trans (sub_mod_eq_ite ha hb), ht⟩

end IntegerCommands

end Sys2Proof.Machine
end

section
/-! SUPPORT. Every register an Fp, Fp2, G1 or G2 command writes is below P (41_fp.md R79, 42_fp2.md R94,
43_g1.md R103, 44_g2.md R119). -/

namespace Sys2Proof.Machine

/-! ### Canonical points -/

section Points
variable {F R : Type} [CommRing R] {k : FieldOps F} {canon : F → Prop} {view : F → R}

/-- Negation keeps canonical triples canonical. -/
theorem Models.negPoint_canonical (m : Models k canon view) {q : Point F} (h : CanonicalPoint canon q) :
    CanonicalPoint canon (negPoint k q) := by
  obtain ⟨hx, -, hz⟩ := h
  exact ⟨hx, (m.neg _).1, hz⟩

/-- Five doublings keep canonical triples canonical. -/
theorem Models.dblPoint5_canonical [DecidableEq F] (m : Models k canon view) (a : F) {q : Point F}
    (h : CanonicalPoint canon q) : CanonicalPoint canon (dblPoint5 k a q) := by
  have dbl : ∀ {q}, CanonicalPoint canon q → CanonicalPoint canon (dblPoint k a q) :=
    m.dblPoint_canonical a
  exact dbl (dbl (dbl (dbl (dbl h))))

end Points

/-! ### Groups of values below P -/

section Groups
variable {p : Nat}

/-- Both parts of an Fp2 element are below p (42_fp2.md R94). -/
abbrev Fp2.Below (p : Nat) (x : Fp2) : Prop := x.re < p ∧ x.im < p

/-- Every value of the list is below p. -/
def AllBelow (p : Nat) (vs : List U256) : Prop := ∀ v ∈ vs, v.toNat < p

/-- A value below p stays so as a register's value. -/
theorem toNat_ofNat_lt {n : Nat} (h : n < p) : (BitVec.ofNat 256 n).toNat < p := by
  rw [BitVec.toNat_ofNat]
  exact (Nat.mod_le _ _).trans_lt h

theorem allBelow_append {vs ws : List U256} (h : AllBelow p vs) (h' : AllBelow p ws) :
    AllBelow p (vs ++ ws) := fun v hv => (List.mem_append.mp hv).elim (h v) (h' v)

theorem allBelow_ofU256 {n : Nat} (h : n < p) : AllBelow p (ofU256 n) :=
  List.forall_mem_singleton.mpr (toNat_ofNat_lt h)

theorem allBelow_ofFp2 {x : Fp2} (h : Fp2.Below p x) : AllBelow p (ofFp2 x) := by
  obtain ⟨hre, him⟩ := h
  exact List.forall_mem_cons.mpr ⟨toNat_ofNat_lt hre, allBelow_ofU256 him⟩

theorem allBelow_ofG1 {q : Point Nat} (h : CanonicalPoint (· < p) q) : AllBelow p (ofG1 q) := by
  obtain ⟨hx, hy, hz⟩ := h
  exact List.forall_mem_cons.mpr ⟨toNat_ofNat_lt hx, allBelow_ofFp2 (x := ⟨q.y, q.z⟩) ⟨hy, hz⟩⟩

theorem allBelow_ofG2 {q : Point Fp2} (h : CanonicalPoint (Fp2.Below p) q) : AllBelow p (ofG2 q) := by
  obtain ⟨hx, hy, hz⟩ := h
  exact allBelow_append (allBelow_append (allBelow_ofFp2 hx) (allBelow_ofFp2 hy)) (allBelow_ofFp2 hz)

variable {w : Vector U256 64} {r : Reg}

/-- A component of an Fp-typed source that passed its check is below p (45_control.md R132). -/
theorem component_lt_of_slotCanonical {o : Slot} (h : slotCanonical p w (some o) = true)
    (ho : o.ty.fpTyped = true) {k : Nat} (hk : k < o.ty.size) : component (readSlot w (some o)) k < p := by
  rw [readSlot, component_readGroup w hk]
  exact (slotCanonical_some p w o).mp h ho k hk

/-- A checked fp source. -/
theorem asU256_lt (h : slotCanonical p w (some ⟨r, .fp⟩) = true) :
    asU256 (readSlot w (some ⟨r, .fp⟩)) < p :=
  component_lt_of_slotCanonical h rfl Nat.one_pos

/-- A checked g1 source. -/
theorem asG1_canonical (h : slotCanonical p w (some ⟨r, .g1⟩) = true) :
    CanonicalPoint (· < p) (asG1 (readSlot w (some ⟨r, .g1⟩))) := by
  have hk : ∀ k < 3, component (readSlot w (some ⟨r, .g1⟩)) k < p := fun _ =>
    component_lt_of_slotCanonical h rfl
  exact ⟨hk 0 (by decide), hk 1 (by decide), hk 2 (by decide)⟩

/-- A checked g2 source. -/
theorem asG2_canonical (h : slotCanonical p w (some ⟨r, .g2⟩) = true) :
    CanonicalPoint (Fp2.Below p) (asG2 (readSlot w (some ⟨r, .g2⟩))) := by
  have hk : ∀ k < 6, component (readSlot w (some ⟨r, .g2⟩)) k < p := fun _ =>
    component_lt_of_slotCanonical h rfl
  exact ⟨⟨hk 0 (by decide), hk 1 (by decide)⟩, ⟨hk 2 (by decide), hk 3 (by decide)⟩,
    hk 4 (by decide), hk 5 (by decide)⟩

end Groups

/-! ### The commands -/

section FieldCommands
variable {i : Instr} {s t : State} {o : Slot}

/-- A command that completes has passed its checks (45_control.md R132). -/
theorem check_of_completes (hi : Idle s) (h : Completes i s t) : check i s = none := by
  obtain ⟨f, hf, -⟩ := exec_eq_command i
  exact (completes_unique hf hi h).1

/-- The destination group of a command that passed its checks lies inside the file (10_state.md R22). -/
theorem destination_fits (hd : i.slots.rd = some o) (hc : check i s = none) :
    o.reg.val + o.ty.size ≤ 64 := by
  have hw := (check_eq_none.mp hc).1
  simp only [Instr.wellFormed, hd, slotFits, Bool.and_eq_true] at hw
  exact (fits_iff o.reg o.ty).mp hw.1.1

/-- A destination group holds what the command's rule gives, so it is below p when that is. -/
theorem destination_below {f : Config → Latched → Result} {p : Nat}
    (hi : Idle s) (hd : i.slots.rd = some o) (h : Completes i s t) (hf : ∀ u, exec i u = command i u f)
    (hl : ∀ c l, (f c l).dest.length = i.slots.rd.elim 0 fun d => d.ty.size)
    (hv : AllBelow p (f s.const ⟨readSlot s.w i.slots.rs1, readSlot s.w i.slots.rs2⟩).dest) :
    ∀ k < o.ty.size, (regAt t.w (o.reg.val + k)).toNat < p := by
  obtain ⟨hc, rfl⟩ := completes_unique hf hi h
  have hfits := destination_fits hd hc
  have hl := hl s.const ⟨readSlot s.w i.slots.rs1, readSlot s.w i.slots.rs2⟩
  rw [hd, Option.elim_some] at hl
  intro k hk
  rw [(writesGroup_commit hd _ hl (latencyRunOut (issue i s)) rfl rfl).value k (hl ▸ hk) (by omega)]
  exact hv _ (List.getElem_mem _)

/-- Settles O12: each command's operators give canonical values, on the sources that passed the check. -/
theorem fieldResultsAreCanonical : Obligations.FieldResultsAreCanonical := by
  unfold Obligations.FieldResultsAreCanonical
  intro i s t o hi hp ⟨hgx, hgy⟩ ⟨hx0, hx1, hy0, hy1⟩ h hd ho
  have hp0 : 0 < s.const.P := by omega
  have hp1 : 1 < s.const.P := by omega
  have m1 := fpOps_models s.const hp0
  have m2 := fp2Ops_models s.const hp0
  obtain ⟨-, h1, h2⟩ := check_eq_none.mp (check_of_completes hi h)
  cases i
  case nop | cmp | cmpw | fisz | pisz | pval | qisz | qval => cases hd
  case add | sub | mul | addw | subw => cases hd; cases ho
  all_goals refine destination_below hi hd h (fun _ => by unfold exec; rfl) (fun _ _ => rfl) ?_
  case fadd => exact allBelow_ofU256 (fpAdd_lt hp0 _ _)
  case fsub => exact allBelow_ofU256 (fpSub_lt hp0 _ _)
  case fneg => exact allBelow_ofU256 (fpNeg_lt hp0 _)
  case fdbl | ftpl | fred | fcan => exact allBelow_ofU256 (Nat.mod_lt _ hp0)
  case fhlv => exact allBelow_ofU256 (fpHalf_lt (asU256_lt h1))
  case fsqr | fmul => exact allBelow_ofU256 (fpMul_lt hp0 _ _)
  case f2add | f2dbl => exact allBelow_ofFp2 (m2.add _ _).1
  case f2sub => exact allBelow_ofFp2 (m2.sub _ _).1
  case f2neg => exact allBelow_ofFp2 (m2.neg _).1
  case f2sqr | f2mul => exact allBelow_ofFp2 (m2.mul _ _).1
  case pzero => exact allBelow_ofG1 ⟨hp1, hp1, hp0⟩
  case pgen => exact allBelow_ofG1 ⟨hgx, hgy, hp1⟩
  case pneg => exact allBelow_ofG1 (m1.negPoint_canonical (asG1_canonical h1))
  case pdbl => exact allBelow_ofG1 (m1.dblPoint_canonical _ (asG1_canonical h1))
  case pdbl5 => exact allBelow_ofG1 (m1.dblPoint5_canonical _ (asG1_canonical h1))
  case padd => exact allBelow_ofG1 (m1.addPoint_canonical _ (asG1_canonical h1) (asG1_canonical h2))
  case psub =>
    exact allBelow_ofG1
      (m1.addPoint_canonical _ (asG1_canonical h1) (m1.negPoint_canonical (asG1_canonical h2)))
  case qzero => exact allBelow_ofG2 ⟨⟨hp1, hp0⟩, ⟨hp1, hp0⟩, hp0, hp0⟩
  case qgen => exact allBelow_ofG2 ⟨⟨hx0, hx1⟩, ⟨hy0, hy1⟩, hp1, hp0⟩
  case qneg => exact allBelow_ofG2 (m2.negPoint_canonical (asG2_canonical h1))
  case qdbl => exact allBelow_ofG2 (m2.dblPoint_canonical _ (asG2_canonical h1))
  case qdbl5 => exact allBelow_ofG2 (m2.dblPoint5_canonical _ (asG2_canonical h1))
  case qadd => exact allBelow_ofG2 (m2.addPoint_canonical _ (asG2_canonical h1) (asG2_canonical h2))
  case qsub =>
    exact allBelow_ofG2
      (m2.addPoint_canonical _ (asG2_canonical h1) (m2.negPoint_canonical (asG2_canonical h2)))

end FieldCommands

end Sys2Proof.Machine
end

section
/-! SUPPORT. Proofs about the Fp unit (41_fp.md R81, R83 to R93). -/

namespace Sys2Proof.Machine

/-! ### The operators on canonical values -/

section Operators
variable {p a b : Nat}

/-- The difference of canonical values adds p exactly when there is a borrow (00_scope.md R14). -/
theorem fpSub_eq_ite (ha : a < p) (hb : b < p) : fpSub p a b = if b ≤ a then a - b else a + p - b := by
  rw [fpSub, Nat.mod_eq_of_lt hb, show a + (p - b) = p + a - b by omega, sub_mod_eq_ite ha hb]
  simp only [← Nat.not_le, ite_not]

/-- The negation of a canonical value (00_scope.md R14). -/
theorem fpNeg_eq_ite (ha : a < p) : fpNeg p a = if a = 0 then 0 else p - a := by
  rw [fpNeg, Nat.mod_eq_of_lt ha]
  split
  · next h => rw [h, Nat.sub_zero, Nat.mod_self]
  · exact Nat.mod_eq_of_lt (by omega)

end Operators

/-! ### The commands -/

section FpCommands
variable {i : Instr} {s t : State} {rd rs1 rs2 : Reg} {f : Config → Latched → Result}

/-- A register below P is a canonical fp group. -/
theorem groupBelowP_fp {r : Reg} (h : s.w[r].toNat < s.const.P) : GroupBelowP s r OperandTy.fp.size := by
  intro k hk
  obtain rfl : k = 0 := Nat.lt_one_iff.mp hk
  rwa [Nat.add_zero, regAt_val]

/-- A command of one canonical fp source writes what its rule gives on it, and no flag. -/
theorem fpResult_rr (hf : ∀ u, exec i u = command i u f) (hs : i.slots = .rr .fp .fp rd rs1) (hi : Idle s)
    (h1 : s.w[rs1].toNat < s.const.P) {n : Nat}
    (hr : f s.const ⟨readSlot s.w (some ⟨rs1, .fp⟩), []⟩ = { dest := ofU256 n }) :
    RegResult i s rd [BitVec.ofNat 256 n] := by
  have hc : check i s = none := check_rr hs rd.isLt rs1.isLt fun _ => groupBelowP_fp h1
  refine regResult_of_command hf (d := ⟨rd, .fp⟩) (by rw [hs]; rfl) hi hc ?_ rfl
  rw [hs]
  exact hr

/-- A command of two canonical fp sources writes what its rule gives on them, and no flag. -/
theorem fpResult_rrr (hf : ∀ u, exec i u = command i u f) (hs : i.slots = .rrr .fp .fp .fp rd rs1 rs2)
    (hi : Idle s) (h1 : s.w[rs1].toNat < s.const.P) (h2 : s.w[rs2].toNat < s.const.P) {n : Nat}
    (hr : f s.const ⟨readSlot s.w (some ⟨rs1, .fp⟩), readSlot s.w (some ⟨rs2, .fp⟩)⟩ =
      { dest := ofU256 n }) :
    RegResult i s rd [BitVec.ofNat 256 n] := by
  have hc : check i s = none := check_rrr hs rd.isLt rs1.isLt rs2.isLt (fun _ => groupBelowP_fp h1)
    fun _ => groupBelowP_fp h2
  refine regResult_of_command hf (d := ⟨rd, .fp⟩) (by rw [hs]; rfl) hi hc ?_ rfl
  rw [hs]
  exact hr

/-- Settles O18: the five operators on the registers' values. -/
theorem fieldLinearResults : Obligations.FieldLinearResults := by
  unfold Obligations.FieldLinearResults
  intro s rd rs1 rs2 hi ha a b
  refine ⟨fun hb => ⟨?_, ?_⟩, ?_, ?_, ?_⟩
  · refine fpResult_rrr (fun _ => by unfold exec; rfl) rfl hi ha hb ?_
    simp only [asU256_fp, fpAdd, a, b]
  · refine fpResult_rrr (fun _ => by unfold exec; rfl) rfl hi ha hb ?_
    simp only [asU256_fp, fpSub_eq_ite ha hb, a, b]
  · refine fpResult_rr (fun _ => by unfold exec; rfl) rfl hi ha ?_
    simp only [asU256_fp, fpNeg_eq_ite ha, a]
  · refine fpResult_rr (fun _ => by unfold exec; rfl) rfl hi ha ?_
    simp only [asU256_fp, a]
  · refine fpResult_rr (fun _ => by unfold exec; rfl) rfl hi ha ?_
    simp only [asU256_fp, a]

/-- Settles O19: half a canonical value is canonical, so the register holds it. -/
theorem halveResult : Obligations.HalveResult := by
  unfold Obligations.HalveResult
  intro s rd rs1 hi ha hodd
  have hlt : fpHalf s.const.P s.w[rs1].toNat < s.const.P := fpHalf_lt ha
  have hval : (BitVec.ofNat 256 (fpHalf s.const.P s.w[rs1].toNat)).toNat =
      fpHalf s.const.P s.w[rs1].toNat := by
    rw [BitVec.toNat_ofNat, Nat.mod_eq_of_lt (hlt.trans s.const.p.isLt)]
  refine ⟨BitVec.ofNat 256 (fpHalf s.const.P s.w[rs1].toNat), ?_⟩
  rw [hval]
  refine ⟨rfl, hlt, fpHalf_double hodd ha, fpResult_rr (fun _ => by unfold exec; rfl) rfl hi ha ?_⟩
  simp only [asU256_fp]

/-- Settles O20: both products are reduced modulo P. -/
theorem fieldProductResults : Obligations.FieldProductResults := by
  unfold Obligations.FieldProductResults
  intro s rd rs1 rs2 hi ha a b
  refine ⟨?_, fun hb => ?_⟩
  · refine fpResult_rr (fun _ => by unfold exec; rfl) rfl hi ha ?_
    simp only [asU256_fp, fpMul, a]
  · refine fpResult_rrr (fun _ => by unfold exec; rfl) rfl hi ha hb ?_
    simp only [asU256_fp, fpMul, a, b]

/-- Settles O21: a raw source has only its group to check. -/
theorem reductionResults : Obligations.ReductionResults := by
  unfold Obligations.ReductionResults
  intro s rd rs1 hi
  refine ⟨fun h1 => ?_, ?_, fcan_copies rd hi⟩
  · have hc : check (.fred rd rs1) s = none := check_rr rfl rd.isLt h1 nofun
    refine regResult_of_command (fun _ => by unfold exec; rfl) (d := ⟨rd, .fp⟩) rfl hi hc ?_ rfl
    simp only [Instr.slots, Slots.rr, asU512_u512, ofU256]
  · have hc : check (.fcan rd rs1) s = none := check_rr rfl rd.isLt rs1.isLt nofun
    refine regResult_of_command (fun _ => by unfold exec; rfl) (d := ⟨rd, .fp⟩) rfl hi hc ?_ rfl
    simp only [Instr.slots, Slots.rr, asU256_u256, ofU256]

/-- Settles O22: a register's value is 0 as a number exactly when it is 0. -/
theorem fieldZeroTest : Obligations.FieldZeroTest := by
  unfold Obligations.FieldZeroTest
  intro s rs1 hi ha
  have hc : check (.fisz rs1) s = none := check_s rfl rs1.isLt fun _ => groupBelowP_fp ha
  have hz : s.w[rs1].toNat = 0 ↔ s.w[rs1] = 0#256 := BitVec.toNat_inj (y := 0#256)
  refine flagResult_of_command (fun _ => by unfold exec; rfl) rfl hi hc
    (g := .zero (decide (s.w[rs1] = 0#256))) ?_
  simp only [Instr.slots, Slots.s, asU256_fp, hz]

/-! ### MUL followed by FRED (41_fp.md R81) -/

/-- The first register of a group written holds the first value. -/
theorem WritesGroup.first {r : Reg} {v : U256} {vs : List U256} (h : WritesGroup s t r (v :: vs)) :
    t.w[r] = v := by
  rw [← regAt_val]
  exact h.value 0 (Nat.succ_pos _) r.isLt

/-- The 512-bit value of a pair written. -/
theorem WritesGroup.wide {r : Reg} {lo hi : U256} (h : WritesGroup s t r [lo, hi]) (hr : r.val + 2 ≤ 64) :
    wide t r = lo.toNat + 2 ^ 256 * hi.toNat := by
  have h0 : regAt t.w r.val = lo := h.value 0 (by simp) r.isLt
  have h1 : regAt t.w (r.val + 1) = hi := h.value 1 (by simp) hr
  rw [Machine.wide, h0, h1]

/-- Settles O42: FRED finds in the pair the exact product that FMUL reduces. -/
theorem mulThenReduceIsFieldMul : Obligations.MulThenReduceIsFieldMul := by
  unfold Obligations.MulThenReduceIsFieldMul
  intro s rd r rs1 rs2 hi hr ha hb
  obtain ⟨lo, high, hprod, t1, hmul, hframe, hstatus, hpair⟩ := mulResult s r rs1 rs2 hi hr
  obtain ⟨t2, hfred, -, -, hw2⟩ := (reductionResults t1 rd r (hframe.idle hstatus)).1 hr
  obtain ⟨t3, hfmul, -, -, hw3⟩ := (fieldProductResults s rd rs1 rs2 hi ha).2 hb
  refine ⟨t1, t2, t3, hmul, hfred, hfmul, ?_⟩
  rw [hw2.first, hw3.first, hpair.wide hr, hprod, hframe.const]

end FpCommands

end Sys2Proof.Machine
end

section
/-! SUPPORT. Proofs about the Fp2 unit (42_fp2.md R96 to R102). -/

namespace Sys2Proof.Machine

/-! ### The operators -/

section Operators
variable {p : Nat}

/-- `a -p b` for a canonical b, in one reduction (00_scope.md R14). -/
theorem fpSub_eq_mod {b : Nat} (a : Nat) (hb : b < p) : fpSub p a b = (a + p - b) % p := by
  rw [fpSub, Nat.mod_eq_of_lt hb, Nat.add_sub_assoc hb.le]

/-- `-p a` for a canonical a (00_scope.md R14). -/
theorem fpNeg_eq_mod {a : Nat} (ha : a < p) : fpNeg p a = (p - a) % p := by
  rw [fpNeg, Nat.mod_eq_of_lt ha]

/-- The real part of the Fp2 product, in one reduction (42_fp2.md R95). -/
theorem fp2Mul_re (p beta : Nat) (x y : Fp2) :
    (fp2Mul p beta x y).re = (x.re * y.re + beta * (x.im * y.im)) % p := by
  simp only [fp2Mul, fpAdd, fpMul, Nat.mul_mod_mod, Nat.add_mod_mod, Nat.mod_add_mod]

/-- The u part of the Fp2 product, in one reduction (42_fp2.md R95). -/
theorem fp2Mul_im (p beta : Nat) (x y : Fp2) :
    (fp2Mul p beta x y).im = (x.re * y.im + x.im * y.re) % p := by
  simp only [fp2Mul, fpAdd, fpMul, Nat.add_mod_mod, Nat.mod_add_mod]

/-- Karatsuba's u part (42_fp2.md R96): (a + b)(c + d) − ac − bd = ad + bc. -/
theorem karatsuba_cross_terms (hp : 0 < p) (a b c d : Nat) :
    fpSub p (fpSub p (fpMul p (fpAdd p a b) (fpAdd p c d)) (fpMul p a c)) (fpMul p b d) =
      fpAdd p (fpMul p a d) (fpMul p b c) := by
  refine eq_of_cast_eq (fpSub_lt hp _ _) (fpAdd_lt hp _ _) ?_
  simp only [cast_fpSub hp, cast_fpAdd, cast_fpMul]
  ring

/-- Settles O40: the real parts are the same expression, the u parts agree in ZMod p. -/
theorem karatsubaGivesTheProduct : Obligations.KaratsubaGivesTheProduct := by
  unfold Obligations.KaratsubaGivesTheProduct
  intro p beta x y hx _ _ _
  exact congrArg (Fp2.mk _) (karatsuba_cross_terms (Nat.zero_lt_of_lt hx) x.re x.im y.re y.im)

end Operators

/-! ### The commands -/

section Fp2Commands
variable {i : Instr} {s : State} {rd rs1 rs2 : Reg} {f : Config → Latched → Result}

/-- A command of one canonical fp2 source writes what its rule gives on it, and no flag. -/
theorem fp2Result_rr (hf : ∀ u, exec i u = command i u f) (hs : i.slots = .rr .fp2 .fp2 rd rs1)
    (hi : Idle s) (hd : rd.val + 2 ≤ 64) (h1 : rs1.val + 2 ≤ 64) (c1 : GroupBelowP s rs1 2) {x : Fp2}
    (hr : f s.const ⟨readSlot s.w (some ⟨rs1, .fp2⟩), []⟩ = { dest := ofFp2 x }) :
    RegResult i s rd (ofFp2 x) := by
  have hc : check i s = none := check_rr hs hd h1 fun _ => c1
  refine regResult_of_command hf (d := ⟨rd, .fp2⟩) (by rw [hs]; rfl) hi hc ?_ rfl
  rw [hs]
  exact hr

/-- A command of two canonical fp2 sources writes what its rule gives on them, and no flag. -/
theorem fp2Result_rrr (hf : ∀ u, exec i u = command i u f)
    (hs : i.slots = .rrr .fp2 .fp2 .fp2 rd rs1 rs2) (hi : Idle s) (hd : rd.val + 2 ≤ 64)
    (h1 : rs1.val + 2 ≤ 64) (h2 : rs2.val + 2 ≤ 64) (c1 : GroupBelowP s rs1 2) (c2 : GroupBelowP s rs2 2)
    {x : Fp2} (hr : f s.const ⟨readSlot s.w (some ⟨rs1, .fp2⟩), readSlot s.w (some ⟨rs2, .fp2⟩)⟩ =
      { dest := ofFp2 x }) :
    RegResult i s rd (ofFp2 x) := by
  have hc : check i s = none := check_rrr hs hd h1 h2 (fun _ => c1) fun _ => c2
  refine regResult_of_command hf (d := ⟨rd, .fp2⟩) (by rw [hs]; rfl) hi hc ?_ rfl
  rw [hs]
  exact hr

/-- Settles O23: the four operators on both components. -/
theorem fp2LinearResults : Obligations.Fp2LinearResults := by
  unfold Obligations.Fp2LinearResults
  intro s rd rs1 rs2 hi hd h1 c1 p a b c d
  have hap : a < p := c1 0 (by decide)
  have hbp : b < p := c1 1 (by decide)
  refine ⟨fun h2 c2 => ⟨?_, ?_⟩, ?_, ?_⟩
  · refine fp2Result_rrr (x := ⟨_, _⟩) (fun _ => by unfold exec; rfl) rfl hi hd h1 h2 c1 c2 ?_
    simp only [asFp2_fp2, fp2Add, fpAdd, a, b, c, d, p]
  · have hcp : c < p := c2 0 (by decide)
    have hdp : d < p := c2 1 (by decide)
    refine fp2Result_rrr (x := ⟨_, _⟩) (fun _ => by unfold exec; rfl) rfl hi hd h1 h2 c1 c2 ?_
    simp only [asFp2_fp2, fp2Sub, fpSub_eq_mod _ hcp, fpSub_eq_mod _ hdp, a, b, c, d, p]
  · refine fp2Result_rr (x := ⟨_, _⟩) (fun _ => by unfold exec; rfl) rfl hi hd h1 c1 ?_
    simp only [asFp2_fp2, fp2Neg, fpNeg_eq_mod hap, fpNeg_eq_mod hbp, a, b, p]
  · refine fp2Result_rr (x := ⟨_, _⟩) (fun _ => by unfold exec; rfl) rfl hi hd h1 c1 ?_
    simp only [asFp2_fp2, fp2Add, fpAdd, a, b, p]

/-- A canonical value fits a register. -/
theorem toNat_ofNat_of_lt_P (c : Config) {n : Nat} (h : n < c.P) : (BitVec.ofNat 256 n).toNat = n := by
  rw [BitVec.toNat_ofNat, Nat.mod_eq_of_lt (h.trans c.p.isLt)]

/-- The registers that a command fills with an Fp2 product hold its two parts (42_fp2.md R95), which
stand for the product in the extension. -/
theorem fp2Product_registers (hp : 0 < s.const.P) (x y : Fp2)
    (h : RegResult i s rd (ofFp2 (fp2Mul s.const.P s.const.beta.toNat x y))) :
    ∃ u v : U256, u.toNat = (x.re * y.re + s.const.beta.toNat * (x.im * y.im)) % s.const.P ∧
      v.toNat = (x.re * y.im + x.im * y.re) % s.const.P ∧
      fp2Of s.const u v = fp2View s.const x * fp2View s.const y ∧ RegResult i s rd [u, v] := by
  obtain ⟨⟨hre, him⟩, hview⟩ := (fp2Ops_models s.const hp).mul x y
  have hu := toNat_ofNat_of_lt_P s.const hre
  have hv := toNat_ofNat_of_lt_P s.const him
  refine ⟨_, _, hu.trans (fp2Mul_re ..), hv.trans (fp2Mul_im ..), ?_, h⟩
  rw [← hview, fp2Of, hu, hv]
  rfl

/-- Settles O24: the product's parts below P are the registers' values, and Fp2 computes in the
extension. -/
theorem fp2ProductResults : Obligations.Fp2ProductResults := by
  unfold Obligations.Fp2ProductResults
  intro s rd rs1 rs2 hi hd h1 c1 p a b c d
  have hp : 0 < s.const.P := Nat.zero_lt_of_lt (c1 0 (by decide))
  refine ⟨?_, fun h2 c2 => ?_⟩
  · rw [show a * b + a * b = a * b + b * a by rw [Nat.mul_comm b a]]
    refine fp2Product_registers hp ⟨a, b⟩ ⟨a, b⟩
      (fp2Result_rr (fun _ => by unfold exec; rfl) rfl hi hd h1 c1 ?_)
    simp only [asFp2_fp2, a, b]
  · refine fp2Product_registers hp ⟨a, b⟩ ⟨c, d⟩
      (fp2Result_rrr (fun _ => by unfold exec; rfl) rfl hi hd h1 h2 c1 c2 ?_)
    simp only [asFp2_fp2, a, b, c, d]

end Fp2Commands

end Sys2Proof.Machine
end

section
/-! SUPPORT. The point functions of 43_g1.md §1 over any commutative ring: the curve is kept by negation,
doubling and addition, the laws of R109 for a point and itself, and the a = −3 doubling sequence (R106). -/

namespace Sys2Proof.Machine

/-! ### Jacobian triples -/

section Triples
variable {R : Type} [CommRing R] {a b : R} {q q' q1 q2 q3 : Triple R}

/-- The negated triple is on the curve (43_g1.md R104, R108). -/
theorem OnCurve.neg (h : OnCurve a b q) : OnCurve a b (negTriple q) := by
  unfold OnCurve negTriple at *
  linear_combination h

/-- The canonical infinity satisfies the curve equation (43_g1.md R103). -/
theorem onCurve_infinity (a b : R) : OnCurve a b (1, 1, 0) := by
  unfold OnCurve
  ring

/-- The double of a triple on the curve is on the curve (43_g1.md R104, R105). With T = 2Y, the cubic minus the
square of the tangent line is (x − XT²)²(x − X3) − T⁶e, where e is what the triple misses the curve by. -/
theorem OnCurve.of_isDouble (h : OnCurve a b q) (hd : IsDouble a q q3) : OnCurve a b q3 := by
  obtain ⟨hinf, hformula⟩ := hd
  by_cases hz : q.2.2 = 0
  · rwa [hinf hz]
  · rw [hformula hz]
    unfold OnCurve at *
    linear_combination 64 * q.2.1 ^ 6 * h

/-- The chord through two triples on the curve meets it in a third (43_g1.md R104, R107). The cubic minus the
square of the chord is (x − U1·H²)(x − U2·H²)(x − X3) and a linear rest, which is 0 for points on the curve:
`e1` and `e2` are the curve equations of both points, brought to the common Z1·Z2. -/
theorem OnCurve.chord (h1 : OnCurve a b q1) (h2 : OnCurve a b q2) {u1 s1 h r x3 : R}
    (hu : u1 = q1.1 * q2.2.2 ^ 2) (hs : s1 = q1.2.1 * q2.2.2 ^ 3)
    (hh : h = q2.1 * q1.2.2 ^ 2 - u1) (hr : r = q2.2.1 * q1.2.2 ^ 3 - s1)
    (hx : x3 = r ^ 2 - h ^ 3 - 2 * (u1 * h ^ 2)) :
    OnCurve a b (x3, r * (u1 * h ^ 2 - x3) - s1 * h ^ 3, q1.2.2 * q2.2.2 * h) := by
  unfold OnCurve at *
  have e1 : s1 ^ 2 = u1 ^ 3 + a * (q1.2.2 * q2.2.2) ^ 4 * u1 + b * (q1.2.2 * q2.2.2) ^ 6 := by
    rw [hu, hs]
    linear_combination q2.2.2 ^ 6 * h1
  have e2 : (s1 + r) ^ 2 =
      (u1 + h) ^ 3 + a * (q1.2.2 * q2.2.2) ^ 4 * (u1 + h) + b * (q1.2.2 * q2.2.2) ^ 6 := by
    rw [hr, hh]
    linear_combination q1.2.2 ^ 6 * h2
  rw [hx]
  linear_combination h ^ 6 * e1 + (r ^ 2 - h ^ 3 - 3 * (u1 * h ^ 2)) * h ^ 3 * (e2 - e1)

/-- The sum of two triples on the curve is on the curve (43_g1.md R104, R107). -/
theorem OnCurve.of_isSum (h1 : OnCurve a b q1) (h2 : OnCurve a b q2) (hsum : IsSum a q1 q2 q3) :
    OnCurve a b q3 := by
  obtain ⟨hinf2, hinf1, hfinite⟩ := hsum
  by_cases hz2 : q2.2.2 = 0
  · rwa [hinf2 hz2]
  by_cases hz1 : q1.2.2 = 0
  · rwa [hinf1 hz2 hz1]
  obtain ⟨hequal, hnegated, hgeneral⟩ := hfinite hz2 hz1
  by_cases hh : q2.1 * q1.2.2 ^ 2 - q1.1 * q2.2.2 ^ 2 = 0
  · by_cases hr : q2.2.1 * q1.2.2 ^ 3 - q1.2.1 * q2.2.2 ^ 3 = 0
    · exact h1.of_isDouble (hequal hh hr)
    · rw [hnegated hh hr]
      exact onCurve_infinity a b
  · rw [hgeneral hh]
    exact h1.chord h2 rfl rfl rfl rfl rfl

/-- A triple has one double. -/
theorem IsDouble.unique (h : IsDouble a q q3) (h' : IsDouble a q q') : q3 = q' := by
  by_cases hz : q.2.2 = 0
  · rw [h.1 hz, h'.1 hz]
  · rw [h.2 hz, h'.2 hz]

/-- A finite triple plus itself is its double (43_g1.md R109 (a)). -/
theorem IsSum.isDouble_of_self (h : IsSum a q q q3) (hz : q.2.2 ≠ 0) : IsDouble a q q3 := by
  obtain ⟨-, -, hfinite⟩ := h
  obtain ⟨hequal, -, -⟩ := hfinite hz hz
  exact hequal (sub_self _) (sub_self _)

/-- A double with Y = 0 has Z = 0 (43_g1.md R105). -/
theorem IsDouble.z_eq_zero (h : IsDouble a q q3) (hy : q.2.1 = 0) : q3.2.2 = 0 := by
  by_cases hz : q.2.2 = 0
  · rw [h.1 hz, hz]
  · rw [h.2 hz, hy]
    ring

section Domain
variable [NoZeroDivisors R] (h2 : (2 : R) ≠ 0)
include h2

/-- A finite triple with Y ≠ 0 minus itself is the canonical infinity, where 2 ≠ 0 (43_g1.md R109 (b)). -/
theorem IsSum.neg_self (h : IsSum a q (negTriple q) q3) (hy : q.2.1 ≠ 0) (hz : q.2.2 ≠ 0) :
    q3 = (1, 1, 0) := by
  obtain ⟨-, -, hfinite⟩ := h
  obtain ⟨-, hnegated, -⟩ := hfinite hz hz
  have hr : -q.2.1 * q.2.2 ^ 3 - q.2.1 * q.2.2 ^ 3 ≠ 0 := by
    rw [show -q.2.1 * q.2.2 ^ 3 - q.2.1 * q.2.2 ^ 3 = -(2 * (q.2.1 * q.2.2 ^ 3)) by ring]
    exact neg_ne_zero.mpr (mul_ne_zero h2 (mul_ne_zero hy (pow_ne_zero 3 hz)))
  exact hnegated (sub_self _) hr

/-- A triple minus itself has Z = 0, where 2 ≠ 0 (43_g1.md R109 (b)). -/
theorem IsSum.z_eq_zero_of_neg_self (h : IsSum a q (negTriple q) q3) : q3.2.2 = 0 := by
  by_cases hz : q.2.2 = 0
  · rw [h.1 hz, hz]
  by_cases hy : q.2.1 = 0
  · have hr : -q.2.1 * q.2.2 ^ 3 - q.2.1 * q.2.2 ^ 3 = 0 := by rw [hy]; ring
    obtain ⟨-, -, hfinite⟩ := h
    obtain ⟨hequal, -, -⟩ := hfinite hz hz
    exact (hequal (sub_self _) hr).z_eq_zero hy
  · rw [h.neg_self h2 hy hz]

end Domain

end Triples

/-! ### The point functions, seen in the ring -/

section PointFunctions
variable {F R : Type} [CommRing R] {k : FieldOps F} {canon : F → Prop} {view : F → R} {a : F} {b : R}
  {q q1 q2 : Point F}

/-- The Y of a canonical point is canonical. -/
theorem CanonicalPoint.canon_y (h : CanonicalPoint canon q) : canon q.y := h.2.1

/-- The Z of a canonical point is canonical. -/
theorem CanonicalPoint.canon_z (h : CanonicalPoint canon q) : canon q.z := h.2.2

/-- A canonical triple is determined by its view. -/
theorem Models.point_inj (m : Models k canon view) {q q' : Point F} (hq : CanonicalPoint canon q)
    (hq' : CanonicalPoint canon q') (h : viewPoint view q = viewPoint view q') : q = q' := by
  obtain ⟨x, y, z⟩ := q
  obtain ⟨x', y', z'⟩ := q'
  obtain ⟨hx, hy, hz⟩ := hq
  obtain ⟨hx', hy', hz'⟩ := hq'
  simp only [viewPoint, Prod.mk.injEq] at h
  obtain ⟨ex, ey, ez⟩ := h
  rw [m.inj x x' hx hx' ex, m.inj y y' hy hy' ey, m.inj z z' hz hz' ez]

/-- The view of a canonical value is 0 exactly when the value is. -/
theorem Models.view_eq_zero_iff (m : Models k canon view) {x : F} (hx : canon x) : view x = 0 ↔ x = k.zero := by
  rw [← m.zero.2]
  exact ⟨m.inj x k.zero hx m.zero.1, congrArg view⟩

/-- The point is canonical and satisfies the equation of the curve of coefficients `a` and `b`. -/
structure CanonicalOnCurve (canon : F → Prop) (view : F → R) (a : F) (b : R) (q : Point F) : Prop where
  canonical : CanonicalPoint canon q
  onCurve : OnCurve (view a) b (viewPoint view q)

/-- The negation of a point of the curve is one. -/
theorem CanonicalOnCurve.neg (m : Models k canon view) (h : CanonicalOnCurve canon view a b q) :
    CanonicalOnCurve canon view a b (negPoint k q) where
  canonical := m.negPoint_canonical h.canonical
  onCurve := by
    rw [m.view_negPoint]
    exact h.onCurve.neg

variable [DecidableEq F]

/-- The double of a point of the curve is one. -/
theorem CanonicalOnCurve.dbl (m : Models k canon view) (h : CanonicalOnCurve canon view a b q) :
    CanonicalOnCurve canon view a b (dblPoint k a q) where
  canonical := m.dblPoint_canonical a h.canonical
  onCurve := h.onCurve.of_isDouble (m.dblPoint_isDouble a h.canonical.canon_z)

/-- Five doublings of a point of the curve give one. -/
theorem CanonicalOnCurve.dbl5 (m : Models k canon view) (h : CanonicalOnCurve canon view a b q) :
    CanonicalOnCurve canon view a b (dblPoint5 k a q) :=
  ((((h.dbl m).dbl m).dbl m).dbl m).dbl m

/-- The sum of two points of the curve is one. -/
theorem CanonicalOnCurve.add (m : Models k canon view) (h1 : CanonicalOnCurve canon view a b q1)
    (h2 : CanonicalOnCurve canon view a b q2) : CanonicalOnCurve canon view a b (addPoint k a q1 q2) where
  canonical := m.addPoint_canonical a h1.canonical h2.canonical
  onCurve := h1.onCurve.of_isSum h2.onCurve (m.addPoint_isSum a h1.canonical.canon_z h2.canonical.canon_z)

/-- The addition function with the second point negated is the sum with the negated triple (43_g1.md R108). -/
theorem Models.subPoint_isSum (m : Models k canon view) (a : F) (hz1 : canon q1.z) (hz2 : canon q2.z) :
    IsSum (view a) (viewPoint view q1) (negTriple (viewPoint view q2))
      (viewPoint view (addPoint k a q1 (negPoint k q2))) := by
  rw [← m.view_negPoint]
  exact m.addPoint_isSum a hz1 hz2

/-- A finite point plus itself is its double, as a triple (43_g1.md R109 (a)). -/
theorem Models.addPoint_self (m : Models k canon view) (a : F) (hq : CanonicalPoint canon q)
    (hz : q.z ≠ k.zero) : addPoint k a q q = dblPoint k a q := by
  have hzv : view q.z ≠ 0 := mt (m.view_eq_zero_iff hq.canon_z).mp hz
  have hdouble := (m.addPoint_isSum a hq.canon_z hq.canon_z).isDouble_of_self hzv
  exact m.point_inj (m.addPoint_canonical a hq hq) (m.dblPoint_canonical a hq)
    (hdouble.unique (m.dblPoint_isDouble a hq.canon_z))

section Domain
variable [NoZeroDivisors R] (h2 : (2 : R) ≠ 0)
include h2

/-- A point minus itself has Z = 0 (43_g1.md R109 (b)). -/
theorem Models.subPoint_self_z (m : Models k canon view) (a : F) (hq : CanonicalPoint canon q) :
    (addPoint k a q (negPoint k q)).z = k.zero :=
  (m.view_eq_zero_iff (m.addPoint_canonical a hq (m.negPoint_canonical hq)).canon_z).mp
    ((m.subPoint_isSum a hq.canon_z hq.canon_z).z_eq_zero_of_neg_self h2)

/-- A finite point with Y ≠ 0 minus itself is the canonical infinity (43_g1.md R109 (b)). -/
theorem Models.subPoint_self (m : Models k canon view) (a : F) (hq : CanonicalPoint canon q)
    (hy : q.y ≠ k.zero) (hz : q.z ≠ k.zero) : addPoint k a q (negPoint k q) = infinity k := by
  have hyv : view q.y ≠ 0 := mt (m.view_eq_zero_iff hq.canon_y).mp hy
  have hzv : view q.z ≠ 0 := mt (m.view_eq_zero_iff hq.canon_z).mp hz
  have hone : canon k.one := m.one_canon _ hq.canon_z hz
  refine m.point_inj (m.addPoint_canonical a hq (m.negPoint_canonical hq)) ⟨hone, hone, m.zero.1⟩ ?_
  rw [(m.subPoint_isSum a hq.canon_z hq.canon_z).neg_self h2 hyv hzv]
  simp only [viewPoint, infinity, m.one_view, m.zero.2]

end Domain

end PointFunctions

/-! ### The a = −3 doubling sequence (43_g1.md R106) -/

section Minus3
variable {p : Nat}

/-- Twice half a canonical value is the value, in ZMod p for odd p (41_fp.md R88). -/
theorem two_mul_cast_fpHalf (hodd : p % 2 = 1) {a : Nat} (ha : a < p) :
    2 * ((fpHalf p a : Nat) : ZMod p) = a := by
  have h : ((2 * fpHalf p a % p : Nat) : ZMod p) = a := by rw [fpHalf_double hodd ha]
  rwa [ZMod.natCast_mod, Nat.cast_mul, Nat.cast_ofNat] at h

/-- 2 is a unit of ZMod p for odd p. -/
theorem isUnit_two (hodd : p % 2 = 1) : IsUnit (2 : ZMod p) := by
  have h := (ZMod.isUnit_iff_coprime 2 p).mpr (Nat.coprime_two_left.mpr (Nat.odd_iff.mpr hodd))
  exact_mod_cast h

/-- Half of ((2y)²)² is 8y⁴ in ZMod p for odd p. -/
theorem cast_fpHalf_fourth_power (hp : 0 < p) (hodd : p % 2 = 1) (y : Nat) :
    ((fpHalf p (fpMul p (fpMul p (fpAdd p y y) (fpAdd p y y)) (fpMul p (fpAdd p y y) (fpAdd p y y))) :
      Nat) : ZMod p) = 8 * (y : ZMod p) ^ 4 := by
  refine (isUnit_two hodd).mul_left_cancel ?_
  rw [two_mul_cast_fpHalf hodd (fpMul_lt hp _ _)]
  simp only [cast_fpMul, cast_fpAdd]
  ring

/-- Settles O41: the three coordinates agree in ZMod P, the 8Y⁴ of the formula being half of (2Y)⁴. -/
theorem minus3SequenceGivesTheDouble : Obligations.Minus3SequenceGivesTheDouble := by
  unfold Obligations.Minus3SequenceGivesTheDouble
  intro c q hp hodd _ _ _
  have hp0 : 0 < c.P := by omega
  have m := fpOps_models c hp0
  refine m.point_inj ⟨fpSub_lt hp0 _ _, fpSub_lt hp0 _ _, fpMul_lt hp0 _ _⟩
    ⟨(m.sub _ _).1, (m.sub _ _).1, (m.mul _ _).1⟩ ?_
  simp only [viewPoint, dblFormula, (m.add _ _).2, (m.sub _ _).2, (m.mul _ _).2, m.view_times, m.view_sqr,
    cast_a1 c hp]
  simp only [dblMinus3, cast_fpSub hp0, cast_fpAdd, cast_fpMul, cast_fpHalf_fourth_power hp0 hodd,
    ZMod.natCast_mod, Nat.cast_mul, Nat.cast_ofNat, Prod.mk.injEq]
  refine ⟨?_, ?_, ?_⟩ <;> ring

end Minus3

end Sys2Proof.Machine
end

section
/-! SUPPORT. Proofs about the G1 and G2 point units (43_g1.md, 44_g2.md): the state a command leaves, what each
command writes, said once, and what follows for points over the mathematical fields. -/

namespace Sys2Proof.Machine

/-! ### The state a command without flags leaves -/

section Leaves
variable {i j : Instr} {s t u : State} {r rd : Reg} {vs ws : List U256}

/-- `t` is what a command without flags leaves of `s` when it writes `vs` to the registers from W[r]
(45_control.md R134). -/
structure Leaves (s t : State) (r : Reg) (vs : List U256) : Prop where
  frame : CommitFrame s t
  status : t.status = statusAfter s.status
  writes : WritesGroup s t r vs

/-- A command that writes a register group completes in a state that has it. -/
theorem regResult_iff : RegResult i s r vs ↔ ∃ t, Completes i s t ∧ Leaves s t r vs :=
  ⟨fun ⟨t, hc, hf, hs, hw⟩ => ⟨t, hc, hf, hs, hw⟩, fun ⟨t, hc, h⟩ => ⟨t, hc, h.frame, h.status, h.writes⟩⟩

/-- A command completes in one state. -/
theorem Completes.unique (h : Completes i s t) (h' : Completes i s u) : t = u := by
  obtain ⟨a, ha, -, ht⟩ := h
  obtain ⟨b, hb, -, hu⟩ := h'
  obtain rfl : a = b := Host.Outcome.next.inj (ha.symm.trans hb)
  exact Host.Outcome.next.inj (ht.symm.trans hu)

/-- The values written determine the state left. -/
theorem Leaves.unique (h : Leaves s t r vs) (h' : Leaves s u r vs) : t = u := by
  have hw : t.w = u.w := Vector.ext fun n hn =>
    ((h.writes ⟨n, hn⟩).1).trans ((h'.writes ⟨n, hn⟩).1).symm
  have hm : t.written = u.written := Vector.ext fun n hn =>
    ((h.writes ⟨n, hn⟩).2).trans ((h'.writes ⟨n, hn⟩).2).symm
  obtain ⟨hconst, hirq, hfl, hrst, hport, hhost, hsched, hdraws⟩ := h.frame
  obtain ⟨hconst', hirq', hfl', hrst', hport', hhost', hsched', hdraws'⟩ := h'.frame
  have hst := h.status.trans h'.status.symm
  cases t
  cases u
  rw [State.mk.injEq]
  exact ⟨hconst.trans hconst'.symm, hw, hm, hirq.trans hirq'.symm, hst, hfl.trans hfl'.symm,
    hrst.trans hrst'.symm, hport.trans hport'.symm, hhost.trans hhost'.symm, hsched.trans hsched'.symm,
    hdraws.trans hdraws'.symm⟩

/-- Two commands that write the same values leave the same state. -/
theorem RegResult.same_state (h : RegResult i s r vs) (h' : RegResult j s r vs) :
    ∃ t, Completes i s t ∧ Completes j s t := by
  obtain ⟨t, hc, ht⟩ := regResult_iff.mp h
  obtain ⟨u, hc', hu⟩ := regResult_iff.mp h'
  exact ⟨t, hc, ht.unique hu ▸ hc'⟩

/-- A group written over the same group is the last group written. -/
theorem WritesGroup.overwrite (h : WritesGroup s t r vs) (h' : WritesGroup t u r ws)
    (hl : vs.length = ws.length) : WritesGroup s u r ws := by
  intro n
  rw [(h' n).1, (h' n).2, (h n).1, (h n).2, hl]
  refine ⟨?_, by split <;> rfl⟩
  split
  · obtain hlt | hge := Nat.lt_or_ge (n.val - r.val) ws.length
    · simp [hlt]
    · rw [List.getD_eq_default vs _ (hl ▸ hge)]
  · rfl

/-- The engine is idle in the state left. -/
theorem Leaves.idle (h : Leaves s t r vs) : Idle t := h.frame.idle h.status

/-- A second command over the same group leaves of the first state what it leaves of the second. -/
theorem Leaves.overwrite (h : Leaves s t r vs) (h' : Leaves t u r ws) (hl : vs.length = ws.length) :
    Leaves s u r ws where
  frame := h.frame.trans h'.frame
  status := by rw [h'.status, h.status]; rfl
  writes := h.writes.overwrite h'.writes hl

/-- The group written is below P when the values are. -/
theorem Leaves.groupBelowP (h : Leaves s t r vs) (hr : r.val + vs.length ≤ 64) (hv : AllBelow s.const.P vs) :
    GroupBelowP t r vs.length := by
  intro k hk
  rw [h.writes.value k hk (by omega), h.frame.const]
  exact hv _ (List.getElem_mem hk)

end Leaves

/-! ### Point operands -/

section Operands
variable {s t : State} {r : Reg}

/-- The G1 point in the registers from W[r], as numbers (10_state.md R21). -/
def g1Words (s : State) (r : Reg) : Point Nat :=
  ⟨(regAt s.w r.val).toNat, (regAt s.w (r.val + 1)).toNat, (regAt s.w (r.val + 2)).toNat⟩

/-- The G2 point in the registers from W[r], as numbers (10_state.md R21). -/
def g2Words (s : State) (r : Reg) : Point Fp2 :=
  ⟨⟨(regAt s.w r.val).toNat, (regAt s.w (r.val + 1)).toNat⟩,
    ⟨(regAt s.w (r.val + 2)).toNat, (regAt s.w (r.val + 3)).toNat⟩,
    ⟨(regAt s.w (r.val + 4)).toNat, (regAt s.w (r.val + 5)).toNat⟩⟩

/-- A latched g1 operand is the point in its registers. -/
theorem asG1_eq_g1Words (s : State) (r : Reg) : asG1 (readSlot s.w (some ⟨r, .g1⟩)) = g1Words s r :=
  asG1_g1 s.w r

/-- A latched g2 operand is the point in its registers. -/
theorem asG2_eq_g2Words (s : State) (r : Reg) : asG2 (readSlot s.w (some ⟨r, .g2⟩)) = g2Words s r :=
  asG2_g2 s.w r

/-- The point at W[r] over the mathematical field is the view of its numbers. -/
theorem g1At_eq (s : State) (r : Reg) :
    g1At s r = viewPoint (fun a : Nat => (a : ZMod s.const.P)) (g1Words s r) := rfl

/-- The point at W[r] over the mathematical extension is the view of its numbers. -/
theorem g2At_eq (s : State) (r : Reg) : g2At s r = viewPoint (fp2View s.const) (g2Words s r) := rfl

/-- A checked g1 group holds a canonical point. -/
theorem g1Words_canonical (h : GroupBelowP s r 3) : CanonicalPoint (· < s.const.P) (g1Words s r) :=
  ⟨h 0 (by decide), h 1 (by decide), h 2 (by decide)⟩

/-- A checked g2 group holds a canonical point. -/
theorem g2Words_canonical (h : GroupBelowP s r 6) : CanonicalPoint (Fp2.Below s.const.P) (g2Words s r) :=
  ⟨⟨h 0 (by decide), h 1 (by decide)⟩, ⟨h 2 (by decide), h 3 (by decide)⟩, h 4 (by decide), h 5 (by decide)⟩

/-- P is positive when a group below it is not empty. -/
theorem P_pos_of_groupBelowP {g : Nat} (h : GroupBelowP s r (g + 1)) : 0 < s.const.P :=
  Nat.zero_lt_of_lt (h 0 (Nat.succ_pos g))

end Operands

/-! ### What each point command writes -/

section Writes
variable {i : Instr} {s : State} {rd rs1 rs2 : Reg} {ty : OperandTy} {f : Config → Latched → Result}
  {vs : List U256}

/-- A command that loads a constant writes what its rule gives. -/
theorem regResult_d (hf : ∀ u, exec i u = command i u f) (hs : i.slots = .d ty rd) (hi : Idle s)
    (hd : rd.val + ty.size ≤ 64) (hr : f s.const ⟨[], []⟩ = { dest := vs }) (hl : vs.length = ty.size) :
    RegResult i s rd vs := by
  refine regResult_of_command hf (d := ⟨rd, ty⟩) (by rw [hs]; rfl) hi (check_d hs hd) ?_ hl
  rw [hs]
  exact hr

/-- A command of one checked source writes what its rule gives on it. -/
theorem regResult_rr (hf : ∀ u, exec i u = command i u f) (hs : i.slots = .rr ty ty rd rs1) (hi : Idle s)
    (hd : rd.val + ty.size ≤ 64) (h1 : rs1.val + ty.size ≤ 64) (c1 : GroupBelowP s rs1 ty.size)
    (hr : f s.const ⟨readSlot s.w (some ⟨rs1, ty⟩), []⟩ = { dest := vs }) (hl : vs.length = ty.size) :
    RegResult i s rd vs := by
  refine regResult_of_command hf (d := ⟨rd, ty⟩) (by rw [hs]; rfl) hi (check_rr hs hd h1 fun _ => c1) ?_ hl
  rw [hs]
  exact hr

/-- A command of two checked sources writes what its rule gives on them. -/
theorem regResult_rrr (hf : ∀ u, exec i u = command i u f) (hs : i.slots = .rrr ty ty ty rd rs1 rs2)
    (hi : Idle s) (hd : rd.val + ty.size ≤ 64) (h1 : rs1.val + ty.size ≤ 64) (h2 : rs2.val + ty.size ≤ 64)
    (c1 : GroupBelowP s rs1 ty.size) (c2 : GroupBelowP s rs2 ty.size)
    (hr : f s.const ⟨readSlot s.w (some ⟨rs1, ty⟩), readSlot s.w (some ⟨rs2, ty⟩)⟩ = { dest := vs })
    (hl : vs.length = ty.size) : RegResult i s rd vs := by
  refine regResult_of_command hf (d := ⟨rd, ty⟩) (by rw [hs]; rfl) hi
    (check_rrr hs hd h1 h2 (fun _ => c1) fun _ => c2) ?_ hl
  rw [hs]
  exact hr

/-- A test of one checked source writes the flags its rule gives on it. -/
theorem flagResult_s {g : FlagWrite} (hf : ∀ u, exec i u = command i u f) (hs : i.slots = .s ty rs1)
    (hi : Idle s) (h1 : rs1.val + ty.size ≤ 64) (c1 : GroupBelowP s rs1 ty.size)
    (hr : f s.const ⟨readSlot s.w (some ⟨rs1, ty⟩), []⟩ = { flags := g }) :
    FlagResult i s (g.apply (statusAfter s.status)) := by
  refine flagResult_of_command hf (by rw [hs]; rfl) hi (check_s hs h1 fun _ => c1) ?_
  rw [hs]
  exact hr

section G1
variable (hi : Idle s) (hd : rd.val + 3 ≤ 64) (h1 : rs1.val + 3 ≤ 64) (h2 : rs2.val + 3 ≤ 64)
  (c1 : GroupBelowP s rs1 3) (c2 : GroupBelowP s rs2 3)
include hi hd h1 c1

/-- PNEG writes the negation function's value (43_g1.md R114). -/
theorem pneg_writes : RegResult (.pneg rd rs1) s rd (ofG1 (negPoint (fpOps s.const) (g1Words s rs1))) :=
  regResult_rr (fun _ => by unfold exec; rfl) rfl hi hd h1 c1 (by rw [asG1_eq_g1Words]) rfl

/-- PDBL writes the doubling function's value (43_g1.md R115). -/
theorem pdbl_writes :
    RegResult (.pdbl rd rs1) s rd (ofG1 (dblPoint (fpOps s.const) (a1 s.const) (g1Words s rs1))) :=
  regResult_rr (fun _ => by unfold exec; rfl) rfl hi hd h1 c1 (by rw [asG1_eq_g1Words]) rfl

/-- PDBL5 writes the value of five doublings (43_g1.md R116). -/
theorem pdbl5_writes :
    RegResult (.pdbl5 rd rs1) s rd (ofG1 (dblPoint5 (fpOps s.const) (a1 s.const) (g1Words s rs1))) :=
  regResult_rr (fun _ => by unfold exec; rfl) rfl hi hd h1 c1 (by rw [asG1_eq_g1Words]) rfl

include h2 c2

/-- PADD writes the addition function's value (43_g1.md R117). -/
theorem padd_writes : RegResult (.padd rd rs1 rs2) s rd
    (ofG1 (addPoint (fpOps s.const) (a1 s.const) (g1Words s rs1) (g1Words s rs2))) :=
  regResult_rrr (fun _ => by unfold exec; rfl) rfl hi hd h1 h2 c1 c2
    (by rw [asG1_eq_g1Words, asG1_eq_g1Words]) rfl

/-- PSUB writes the addition function's value with the second point negated (43_g1.md R118). -/
theorem psub_writes : RegResult (.psub rd rs1 rs2) s rd
    (ofG1 (addPoint (fpOps s.const) (a1 s.const) (g1Words s rs1)
      (negPoint (fpOps s.const) (g1Words s rs2)))) :=
  regResult_rrr (fun _ => by unfold exec; rfl) rfl hi hd h1 h2 c1 c2
    (by rw [asG1_eq_g1Words, asG1_eq_g1Words]) rfl

end G1

section G2
variable (hi : Idle s) (hd : rd.val + 6 ≤ 64) (h1 : rs1.val + 6 ≤ 64) (h2 : rs2.val + 6 ≤ 64)
  (c1 : GroupBelowP s rs1 6) (c2 : GroupBelowP s rs2 6)
include hi hd h1 c1

/-- QNEG writes the negation function's value (44_g2.md R125). -/
theorem qneg_writes : RegResult (.qneg rd rs1) s rd (ofG2 (negPoint (fp2Ops s.const) (g2Words s rs1))) :=
  regResult_rr (fun _ => by unfold exec; rfl) rfl hi hd h1 c1 (by rw [asG2_eq_g2Words]) rfl

/-- QDBL writes the doubling function's value (44_g2.md R126). -/
theorem qdbl_writes : RegResult (.qdbl rd rs1) s rd
    (ofG2 (dblPoint (fp2Ops s.const) (Config.pair s.const.a2) (g2Words s rs1))) :=
  regResult_rr (fun _ => by unfold exec; rfl) rfl hi hd h1 c1 (by rw [asG2_eq_g2Words]) rfl

/-- QDBL5 writes the value of five doublings (44_g2.md R127). -/
theorem qdbl5_writes : RegResult (.qdbl5 rd rs1) s rd
    (ofG2 (dblPoint5 (fp2Ops s.const) (Config.pair s.const.a2) (g2Words s rs1))) :=
  regResult_rr (fun _ => by unfold exec; rfl) rfl hi hd h1 c1 (by rw [asG2_eq_g2Words]) rfl

include h2 c2

/-- QADD writes the addition function's value (44_g2.md R128). -/
theorem qadd_writes : RegResult (.qadd rd rs1 rs2) s rd
    (ofG2 (addPoint (fp2Ops s.const) (Config.pair s.const.a2) (g2Words s rs1) (g2Words s rs2))) :=
  regResult_rrr (fun _ => by unfold exec; rfl) rfl hi hd h1 h2 c1 c2
    (by rw [asG2_eq_g2Words, asG2_eq_g2Words]) rfl

/-- QSUB writes the addition function's value with the second point negated (44_g2.md R129). -/
theorem qsub_writes : RegResult (.qsub rd rs1 rs2) s rd
    (ofG2 (addPoint (fp2Ops s.const) (Config.pair s.const.a2) (g2Words s rs1)
      (negPoint (fp2Ops s.const) (g2Words s rs2)))) :=
  regResult_rrr (fun _ => by unfold exec; rfl) rfl hi hd h1 h2 c1 c2
    (by rw [asG2_eq_g2Words, asG2_eq_g2Words]) rfl

end G2

end Writes

/-! ### Constants, tests and negation -/

section Simple

/-- Settles O25: the constants of PZERO, PGEN, QZERO and QGEN, register by register. -/
theorem pointConstantsAreLoaded : Obligations.PointConstantsAreLoaded := by
  unfold Obligations.PointConstantsAreLoaded
  intro s rd hi
  refine ⟨fun hd => ⟨?_, ?_⟩, fun hd => ⟨?_, ?_⟩⟩
  · exact regResult_d (fun _ => by unfold exec; rfl) rfl hi hd rfl rfl
  · refine regResult_d (fun _ => by unfold exec; rfl) rfl hi hd ?_ rfl
    simp [ofG1, genG1]
  · exact regResult_d (fun _ => by unfold exec; rfl) rfl hi hd rfl rfl
  · refine regResult_d (fun _ => by unfold exec; rfl) rfl hi hd ?_ rfl
    simp [ofG2, ofFp2, genG2, Config.pair]

/-- A register's value is 0 as a number exactly when it is 0. -/
theorem toNat_eq_zero_iff (v : U256) : v.toNat = 0 ↔ v = 0#256 := BitVec.toNat_inj (y := 0#256)

/-- Settles O27: the infinity test is the test of the registers of Z. -/
theorem infinityTests : Obligations.InfinityTests := by
  unfold Obligations.InfinityTests
  intro s rs1 hi
  refine ⟨fun h1 c1 => ?_, fun h1 c1 => ?_⟩
  · refine flagResult_s (g := .zero _) (fun _ => by unfold exec; rfl) rfl hi h1 c1 ?_
    rw [asG1_eq_g1Words]
    simp only [isInfinity, g1Words, fpOps, toNat_eq_zero_iff]
  · refine flagResult_s (g := .zero _) (fun _ => by unfold exec; rfl) rfl hi h1 c1 ?_
    rw [asG2_eq_g2Words]
    simp only [isInfinity, g2Words, fp2Ops, Fp2.mk.injEq, toNat_eq_zero_iff]

/-- Settles O28: the validity test, seen in the mathematical fields. -/
theorem validityTests : Obligations.ValidityTests := by
  unfold Obligations.ValidityTests
  intro s rs1 hi hp
  refine ⟨fun h1 c1 => ?_, fun h1 c1 => ?_⟩
  · have m := fpOps_models s.const (P_pos_of_groupBelowP c1)
    refine ⟨isValid (fpOps s.const) (a1 s.const) s.const.b1.toNat (g1Words s rs1), ?_, ?_⟩
    · refine flagResult_s (g := .valid _) (fun _ => by unfold exec; rfl) rfl hi h1 c1 ?_
      rw [asG1_eq_g1Words]
    · rw [m.isValid_iff _ _ (g1Words_canonical c1).canon_z, cast_a1 s.const hp]
      rfl
  · have m := fp2Ops_models s.const (P_pos_of_groupBelowP c1)
    refine ⟨isValid (fp2Ops s.const) (Config.pair s.const.a2) (Config.pair s.const.b2) (g2Words s rs1), ?_, ?_⟩
    · refine flagResult_s (g := .valid _) (fun _ => by unfold exec; rfl) rfl hi h1 c1 ?_
      rw [asG2_eq_g2Words]
    · exact m.isValid_iff _ _ (g2Words_canonical c1).canon_z

/-- Settles O29: the registers of the negated point. -/
theorem pointNegationResults : Obligations.PointNegationResults := by
  unfold Obligations.PointNegationResults
  intro s rd rs1 hi
  refine ⟨fun hd h1 c1 => ?_, fun hd h1 c1 => ?_⟩
  · have hy := fpNeg_eq_mod (c1 1 (by decide))
    simpa [ofG1, negPoint, fpOps, g1Words, hy] using pneg_writes hi hd h1 c1
  · have hy0 := fpNeg_eq_mod (c1 2 (by decide))
    have hy1 := fpNeg_eq_mod (c1 3 (by decide))
    simpa [ofG2, ofFp2, negPoint, fp2Ops, fp2Neg, g2Words, hy0, hy1] using qneg_writes hi hd h1 c1

end Simple

/-! ### Doubles and sums -/

section Results
variable {i : Instr} {s t : State} {rd rs1 rs2 : Reg}

/-- A command that writes a canonical G1 point has it as its result. -/
theorem G1Result.of_regResult {q : Point Nat} {rel : Triple (FpRing s.const) → Prop}
    (h : RegResult i s rd (ofG1 q)) (hq : CanonicalPoint (· < s.const.P) q)
    (hrel : rel (viewPoint (fun a : Nat => (a : ZMod s.const.P)) q)) : G1Result i s rd rel := by
  obtain ⟨hx, hy, hz⟩ := hq
  obtain ⟨t, hc, hf, hst, hw⟩ := h
  refine ⟨t, _, _, _, hc, hf, hst, hw, ?_⟩
  simp only [g1Of, toNat_ofNat_of_lt_P s.const hx, toNat_ofNat_of_lt_P s.const hy,
    toNat_ofNat_of_lt_P s.const hz]
  exact ⟨⟨hx, hy, hz⟩, hrel⟩

/-- A command that writes a canonical G2 point has it as its result. -/
theorem G2Result.of_regResult {q : Point Fp2} {rel : Triple (Fp2Ring s.const) → Prop}
    (h : RegResult i s rd (ofG2 q)) (hq : CanonicalPoint (Fp2.Below s.const.P) q)
    (hrel : rel (viewPoint (fp2View s.const) q)) : G2Result i s rd rel := by
  have hall : AllBelow s.const.P (ofG2 q) := allBelow_ofG2 hq
  obtain ⟨⟨hx0, hx1⟩, ⟨hy0, hy1⟩, hz0, hz1⟩ := hq
  obtain ⟨t, hc, hf, hst, hw⟩ := h
  refine ⟨t, _, _, _, _, _, _, hc, hf, hst, hw, hall, ?_⟩
  simp only [g2Of, fp2Of, toNat_ofNat_of_lt_P s.const hx0, toNat_ofNat_of_lt_P s.const hx1,
    toNat_ofNat_of_lt_P s.const hy0, toNat_ofNat_of_lt_P s.const hy1, toNat_ofNat_of_lt_P s.const hz0,
    toNat_ofNat_of_lt_P s.const hz1]
  exact hrel

/-- Settles O30: the doubling function over Fp is the double, A1 being −3. -/
theorem g1DoubleResult : Obligations.G1DoubleResult := by
  unfold Obligations.G1DoubleResult
  intro s rd rs1 hi hp hd h1 c1
  have m := fpOps_models s.const (P_pos_of_groupBelowP c1)
  have q1 := g1Words_canonical c1
  refine .of_regResult (pdbl_writes hi hd h1 c1) (m.dblPoint_canonical _ q1) ?_
  rw [← cast_a1 s.const hp]
  exact m.dblPoint_isDouble _ q1.canon_z

/-- Settles O31: the doubling function over Fp2 is the double. -/
theorem g2DoubleResult : Obligations.G2DoubleResult := by
  unfold Obligations.G2DoubleResult
  intro s rd rs1 hi hd h1 c1
  have m := fp2Ops_models s.const (P_pos_of_groupBelowP c1)
  have q1 := g2Words_canonical c1
  exact .of_regResult (qdbl_writes hi hd h1 c1) (m.dblPoint_canonical _ q1) (m.dblPoint_isDouble _ q1.canon_z)

/-- Settles O33: the addition function over Fp is the sum, A1 being −3. -/
theorem g1SumResults : Obligations.G1SumResults := by
  unfold Obligations.G1SumResults
  intro s rd rs1 rs2 hi hp hd h1 h2 c1 c2
  have m := fpOps_models s.const (P_pos_of_groupBelowP c1)
  have q1 := g1Words_canonical c1
  have q2 := g1Words_canonical c2
  rw [← cast_a1 s.const hp]
  exact ⟨.of_regResult (padd_writes hi hd h1 h2 c1 c2) (m.addPoint_canonical _ q1 q2)
      (m.addPoint_isSum _ q1.canon_z q2.canon_z),
    .of_regResult (psub_writes hi hd h1 h2 c1 c2) (m.addPoint_canonical _ q1 (m.negPoint_canonical q2))
      (m.subPoint_isSum _ q1.canon_z q2.canon_z)⟩

/-- Settles O34: the addition function over Fp2 is the sum. -/
theorem g2SumResults : Obligations.G2SumResults := by
  unfold Obligations.G2SumResults
  intro s rd rs1 rs2 hi hd h1 h2 c1 c2
  have m := fp2Ops_models s.const (P_pos_of_groupBelowP c1)
  have q1 := g2Words_canonical c1
  have q2 := g2Words_canonical c2
  exact ⟨.of_regResult (qadd_writes hi hd h1 h2 c1 c2) (m.addPoint_canonical _ q1 q2)
      (m.addPoint_isSum _ q1.canon_z q2.canon_z),
    .of_regResult (qsub_writes hi hd h1 h2 c1 c2) (m.addPoint_canonical _ q1 (m.negPoint_canonical q2))
      (m.subPoint_isSum _ q1.canon_z q2.canon_z)⟩

end Results

/-! ### Five doublings in sequence (43_g1.md R116, 44_g2.md R127) -/

section FiveDoublings
variable {s t : State} {rd : Reg}

/-- The point in a group that a canonical G1 point has been written to. -/
theorem Leaves.g1Words_eq {q : Point Nat} (h : Leaves s t rd (ofG1 q)) (hd : rd.val + 3 ≤ 64)
    (hq : CanonicalPoint (· < s.const.P) q) : g1Words t rd = q := by
  obtain ⟨hx, hy, hz⟩ := hq
  have hv : ∀ k, (hk : k < 3) → regAt t.w (rd.val + k) = (ofG1 q)[k] := fun k hk =>
    h.writes.value k hk (by omega)
  have h0 : regAt t.w rd.val = _ := hv 0 (by decide)
  rw [g1Words, h0, hv 1 (by decide), hv 2 (by decide)]
  simp only [ofG1, List.getElem_cons_zero, List.getElem_cons_succ, toNat_ofNat_of_lt_P s.const hx,
    toNat_ofNat_of_lt_P s.const hy, toNat_ofNat_of_lt_P s.const hz]

/-- The point in a group that a canonical G2 point has been written to. -/
theorem Leaves.g2Words_eq {q : Point Fp2} (h : Leaves s t rd (ofG2 q)) (hd : rd.val + 6 ≤ 64)
    (hq : CanonicalPoint (Fp2.Below s.const.P) q) : g2Words t rd = q := by
  obtain ⟨⟨hx0, hx1⟩, ⟨hy0, hy1⟩, hz0, hz1⟩ := hq
  have hv : ∀ k, (hk : k < 6) → regAt t.w (rd.val + k) = (ofG2 q)[k] := fun k hk =>
    h.writes.value k hk (by omega)
  have h0 : regAt t.w rd.val = _ := hv 0 (by decide)
  rw [g2Words, h0, hv 1 (by decide), hv 2 (by decide), hv 3 (by decide), hv 4 (by decide),
    hv 5 (by decide)]
  simp only [ofG2, ofFp2, List.cons_append, List.nil_append, List.getElem_cons_zero, List.getElem_cons_succ,
    toNat_ofNat_of_lt_P s.const hx0, toNat_ofNat_of_lt_P s.const hx1, toNat_ofNat_of_lt_P s.const hy0,
    toNat_ofNat_of_lt_P s.const hy1, toNat_ofNat_of_lt_P s.const hz0, toNat_ofNat_of_lt_P s.const hz1]

/-- PDBL in place, after a canonical point has been written. -/
theorem Leaves.pdbl_again {q : Point Nat} (h : Leaves s t rd (ofG1 q)) (hd : rd.val + 3 ≤ 64)
    (hq : CanonicalPoint (· < s.const.P) q) : ∃ u, Completes (.pdbl rd rd) t u ∧
      Leaves s u rd (ofG1 (dblPoint (fpOps s.const) (a1 s.const) q)) := by
  have hw := pdbl_writes h.idle hd hd (h.groupBelowP hd (allBelow_ofG1 hq))
  rw [h.g1Words_eq hd hq, h.frame.const] at hw
  obtain ⟨u, hc, hu⟩ := regResult_iff.mp hw
  exact ⟨u, hc, h.overwrite hu rfl⟩

/-- QDBL in place, after a canonical point has been written. -/
theorem Leaves.qdbl_again {q : Point Fp2} (h : Leaves s t rd (ofG2 q)) (hd : rd.val + 6 ≤ 64)
    (hq : CanonicalPoint (Fp2.Below s.const.P) q) : ∃ u, Completes (.qdbl rd rd) t u ∧
      Leaves s u rd (ofG2 (dblPoint (fp2Ops s.const) (Config.pair s.const.a2) q)) := by
  have hw := qdbl_writes h.idle hd hd (h.groupBelowP hd (allBelow_ofG2 hq))
  rw [h.g2Words_eq hd hq, h.frame.const] at hw
  obtain ⟨u, hc, hu⟩ := regResult_iff.mp hw
  exact ⟨u, hc, h.overwrite hu rfl⟩

/-- A command `first` that writes `d q`, and four runs of a command `again` that applies `d` in place, leave
what one command `five` that writes the fifth iterate leaves. -/
theorem five_in_sequence {F : Type} {enc : Point F → List U256} {Ok : Point F → Prop}
    {d : Point F → Point F} {first again five : Instr} {q : Point F} (hok : ∀ {q}, Ok q → Ok (d q))
    (hagain : ∀ {t q}, Leaves s t rd (enc q) → Ok q →
      ∃ u, Completes again t u ∧ Leaves s u rd (enc (d q)))
    (hq : Ok q) (hfirst : RegResult first s rd (enc (d q)))
    (hfive : RegResult five s rd (enc (d (d (d (d (d q))))))) :
    ∃ t1 t2 t3 t4 t5, Completes first s t1 ∧ Completes again t1 t2 ∧ Completes again t2 t3 ∧
      Completes again t3 t4 ∧ Completes again t4 t5 ∧ Completes five s t5 := by
  obtain ⟨t1, hc1, h1⟩ := regResult_iff.mp hfirst
  obtain ⟨t2, hc2, h2⟩ := hagain h1 (hok hq)
  obtain ⟨t3, hc3, h3⟩ := hagain h2 (hok (hok hq))
  obtain ⟨t4, hc4, h4⟩ := hagain h3 (hok (hok (hok hq)))
  obtain ⟨t5, hc5, h5⟩ := hagain h4 (hok (hok (hok (hok hq))))
  obtain ⟨u, hcu, hu⟩ := regResult_iff.mp hfive
  exact ⟨t1, t2, t3, t4, t5, hc1, hc2, hc3, hc4, hc5, hu.unique h5 ▸ hcu⟩

/-- Settles O32: each doubling in place doubles what the one before wrote. -/
theorem fiveDoublingsInSequence : Obligations.FiveDoublingsInSequence := by
  unfold Obligations.FiveDoublingsInSequence
  intro s rd rs1 hi
  refine ⟨fun hd h1 c1 => ?_, fun hd h1 c1 => ?_⟩
  · have m := fpOps_models s.const (P_pos_of_groupBelowP c1)
    exact five_in_sequence (Ok := CanonicalPoint (· < s.const.P)) (m.dblPoint_canonical _)
      (fun h => h.pdbl_again hd) (g1Words_canonical c1) (pdbl_writes hi hd h1 c1) (pdbl5_writes hi hd h1 c1)
  · have m := fp2Ops_models s.const (P_pos_of_groupBelowP c1)
    exact five_in_sequence (Ok := CanonicalPoint (Fp2.Below s.const.P)) (m.dblPoint_canonical _)
      (fun h => h.qdbl_again hd) (g2Words_canonical c1) (qdbl_writes hi hd h1 c1) (qdbl5_writes hi hd h1 c1)

end FiveDoublings

/-! ### A point and itself (43_g1.md R109) -/

section Commands

/-- The parts of an Fp2 element read from two registers are both 0 exactly when both registers are. -/
theorem fp2_eq_zero_iff (a b : U256) : (⟨a.toNat, b.toNat⟩ : Fp2) = ⟨0, 0⟩ ↔ a = 0#256 ∧ b = 0#256 := by
  rw [Fp2.mk.injEq, toNat_eq_zero_iff, toNat_eq_zero_iff]

/-- Settles O35: the addition function on equal points with Z ≠ 0 is the doubling function. -/
theorem addingAPointToItselfDoublesIt : Obligations.AddingAPointToItselfDoublesIt := by
  unfold Obligations.AddingAPointToItselfDoublesIt
  intro s rd rs1 hi
  refine ⟨fun hd h1 c1 hz => ?_, fun hd h1 c1 hz => ?_⟩
  · have m := fpOps_models s.const (P_pos_of_groupBelowP c1)
    have hself := m.addPoint_self (a1 s.const) (g1Words_canonical c1) (mt (toNat_eq_zero_iff _).mp hz)
    exact RegResult.same_state (hself ▸ padd_writes hi hd h1 h1 c1 c1) (pdbl_writes hi hd h1 c1)
  · have m := fp2Ops_models s.const (P_pos_of_groupBelowP c1)
    have hself := m.addPoint_self (Config.pair s.const.a2) (g2Words_canonical c1)
      (mt (fp2_eq_zero_iff _ _).mp hz)
    exact RegResult.same_state (hself ▸ qadd_writes hi hd h1 h1 c1 c1) (qdbl_writes hi hd h1 c1)

/-- 2 is not 0 modulo an odd prime. -/
theorem two_ne_zero_of_odd_prime {p : Nat} (hp : p.Prime) (hodd : p ≠ 2) : (2 : ZMod p) ≠ 0 := by
  have := Fact.mk hp
  exact (isUnit_two (hp.eq_two_or_odd.resolve_left hodd)).ne_zero

/-- BETA is no square in the prime field when no canonical value squares to it (00_scope.md R8). -/
theorem beta_nonsquare {c : Config} (hp : 0 < c.P) (hb : c.beta.toNat < c.P)
    (hn : ∀ x < c.P, x * x % c.P ≠ c.beta.toNat) (x : ZMod c.P) : x ^ 2 ≠ (c.beta.toNat : ZMod c.P) := by
  have := NeZero.of_pos hp
  intro h
  apply hn x.val x.val_lt
  have hcast : ((x.val * x.val % c.P : Nat) : ZMod c.P) = (c.beta.toNat : ZMod c.P) := by
    rw [ZMod.natCast_mod, Nat.cast_mul, ZMod.natCast_zmod_val, ← pow_two, h]
  exact eq_of_cast_eq (Nat.mod_lt _ hp) hb hcast

/-- The extension is a domain when BETA is no square (42_fp2.md R94). -/
theorem fp2Ring_noZeroDivisors {c : Config} (hp : c.P.Prime)
    (hn : ∀ x : ZMod c.P, x ^ 2 ≠ (c.beta.toNat : ZMod c.P)) : NoZeroDivisors (Fp2Ring c) := by
  have := Fact.mk hp
  have : Fact (∀ x : ZMod c.P, x ^ 2 ≠ (c.beta.toNat : ZMod c.P) + 0 * x) :=
    ⟨fun x => by rw [zero_mul, add_zero]; exact hn x⟩
  infer_instance

/-- 2 is not 0 in the extension when it is not 0 in the prime field. -/
theorem fp2Ring_two_ne_zero {c : Config} (h : (2 : ZMod c.P) ≠ 0) : (2 : Fp2Ring c) ≠ 0 := fun h2 =>
  h (congrArg QuadraticAlgebra.re h2)

/-- Settles O36: in a domain with 2 ≠ 0 the two ordinates differ, or are both 0. -/
theorem aPointMinusItselfIsInfinity : Obligations.APointMinusItselfIsInfinity := by
  unfold Obligations.APointMinusItselfIsInfinity
  intro s rd rs1 hi hprime hodd
  have two := two_ne_zero_of_odd_prime hprime hodd
  refine ⟨fun hd h1 c1 => ?_, fun hb hn hd h1 c1 => ?_⟩
  · have m := fpOps_models s.const hprime.pos
    have := Fact.mk hprime
    have q1 := g1Words_canonical c1
    have hw := psub_writes hi hd h1 h1 c1 c1
    refine ⟨?_, fun hy hz => ?_⟩
    · rw [ofG1, m.subPoint_self_z two _ q1] at hw
      exact ⟨_, _, hw⟩
    · rw [m.subPoint_self two _ q1 (mt (toNat_eq_zero_iff _).mp hy) (mt (toNat_eq_zero_iff _).mp hz)] at hw
      exact hw
  · have m := fp2Ops_models s.const hprime.pos
    have := fp2Ring_noZeroDivisors hprime (beta_nonsquare hprime.pos hb hn)
    have two := fp2Ring_two_ne_zero two
    have q1 := g2Words_canonical c1
    have hw := qsub_writes hi hd h1 h1 c1 c1
    refine ⟨?_, fun hy hz => ?_⟩
    · rw [ofG2, m.subPoint_self_z two _ q1] at hw
      exact ⟨_, _, _, _, hw⟩
    · rw [m.subPoint_self two _ q1 (mt (fp2_eq_zero_iff _ _).mp hy) (mt (fp2_eq_zero_iff _ _).mp hz)] at hw
      exact hw

end Commands

/-! ### Point commands stay on the curve (43_g1.md R104, 44_g2.md R119) -/

section CommandsOnCurve
variable {i : Instr} {s t : State} {rd rs1 rs2 : Reg} {ty : OperandTy}

/-- The groups of a one-source command that completes fit, and its source is below P (45_control.md R132). -/
theorem Completes.operands_rr (hi : Idle s) (h : Completes i s t) (hs : i.slots = .rr ty ty rd rs1)
    (hty : ty.fpTyped = true) :
    rd.val + ty.size ≤ 64 ∧ rs1.val + ty.size ≤ 64 ∧ GroupBelowP s rs1 ty.size := by
  obtain ⟨hwf, hc1, -⟩ := check_eq_none.mp (check_of_completes hi h)
  simp only [Instr.wellFormed, hs, Slots.rr, slotFits, fits_iff, Bool.and_eq_true] at hwf
  obtain ⟨⟨hd, h1⟩, -⟩ := hwf
  rw [hs] at hc1
  exact ⟨hd, h1, (slotCanonical_some _ _ _).mp hc1 hty⟩

/-- The groups of a two-source command that completes fit, and its sources are below P (45_control.md R132). -/
theorem Completes.operands_rrr (hi : Idle s) (h : Completes i s t) (hs : i.slots = .rrr ty ty ty rd rs1 rs2)
    (hty : ty.fpTyped = true) :
    rd.val + ty.size ≤ 64 ∧ rs1.val + ty.size ≤ 64 ∧ rs2.val + ty.size ≤ 64 ∧
      GroupBelowP s rs1 ty.size ∧ GroupBelowP s rs2 ty.size := by
  obtain ⟨hwf, hc1, hc2⟩ := check_eq_none.mp (check_of_completes hi h)
  simp only [Instr.wellFormed, hs, Slots.rrr, slotFits, fits_iff, Bool.and_eq_true] at hwf
  obtain ⟨⟨hd, h1⟩, h2⟩ := hwf
  rw [hs] at hc1 hc2
  exact ⟨hd, h1, h2, (slotCanonical_some _ _ _).mp hc1 hty, (slotCanonical_some _ _ _).mp hc2 hty⟩

/-- The canonical G1 points of the curve. -/
abbrev OnG1 (c : Config) : Point Nat → Prop :=
  CanonicalOnCurve (· < c.P) (fun a : Nat => (a : ZMod c.P)) (a1 c) (c.b1.toNat : ZMod c.P)

/-- The canonical G2 points of the curve. -/
abbrev OnG2 (c : Config) : Point Fp2 → Prop :=
  CanonicalOnCurve (Fp2.Below c.P) (fp2View c) (Config.pair c.a2) (b2Ring c)

/-- A checked g1 operand that satisfies the curve equation. -/
theorem onG1_g1Words (hp : 3 ≤ s.const.P) (hc : GroupBelowP s rs1 3)
    (h : OnCurve (-3) (s.const.b1.toNat : FpRing s.const) (g1At s rs1)) : OnG1 s.const (g1Words s rs1) where
  canonical := g1Words_canonical hc
  onCurve := by
    rw [cast_a1 s.const hp]
    exact h

/-- A checked g2 operand that satisfies the curve equation. -/
theorem onG2_g2Words (hc : GroupBelowP s rs1 6)
    (h : OnCurve (a2Ring s.const) (b2Ring s.const) (g2At s rs1)) : OnG2 s.const (g2Words s rs1) where
  canonical := g2Words_canonical hc
  onCurve := h

/-- A command that writes a G1 point of the curve leaves it in its destination. -/
theorem RegResult.g1At_onCurve {q : Point Nat} (h : RegResult i s rd (ofG1 q)) (hc : Completes i s t)
    (hp : 3 ≤ s.const.P) (hd : rd.val + 3 ≤ 64) (hq : OnG1 s.const q) :
    OnCurve (-3) (t.const.b1.toNat : FpRing t.const) (g1At t rd) := by
  obtain ⟨u, hcu, hu⟩ := regResult_iff.mp h
  obtain rfl := hc.unique hcu
  rw [g1At_eq, hu.g1Words_eq hd hq.canonical, hu.frame.const, ← cast_a1 s.const hp]
  exact hq.onCurve

/-- A command that writes a G2 point of the curve leaves it in its destination. -/
theorem RegResult.g2At_onCurve {q : Point Fp2} (h : RegResult i s rd (ofG2 q)) (hc : Completes i s t)
    (hd : rd.val + 6 ≤ 64) (hq : OnG2 s.const q) :
    OnCurve (a2Ring t.const) (b2Ring t.const) (g2At t rd) := by
  obtain ⟨u, hcu, hu⟩ := regResult_iff.mp h
  obtain rfl := hc.unique hcu
  rw [g2At_eq, hu.g2Words_eq hd hq.canonical, hu.frame.const]
  exact hq.onCurve

/-- Settles O37: each point function keeps the curve, and each command writes its function's value. -/
theorem pointCommandsStayOnTheCurve : Obligations.PointCommandsStayOnTheCurve := by
  unfold Obligations.PointCommandsStayOnTheCurve
  intro s t rd rs1 rs2 hi
  constructor
  · intro hp o1 o2 h
    have m := fpOps_models s.const (by omega)
    obtain h | h | h | h | h := h
    · obtain ⟨hd, h1, c1⟩ := h.operands_rr hi rfl rfl
      exact (pneg_writes hi hd h1 c1).g1At_onCurve h hp hd ((onG1_g1Words hp c1 o1).neg m)
    · obtain ⟨hd, h1, c1⟩ := h.operands_rr hi rfl rfl
      exact (pdbl_writes hi hd h1 c1).g1At_onCurve h hp hd ((onG1_g1Words hp c1 o1).dbl m)
    · obtain ⟨hd, h1, c1⟩ := h.operands_rr hi rfl rfl
      exact (pdbl5_writes hi hd h1 c1).g1At_onCurve h hp hd ((onG1_g1Words hp c1 o1).dbl5 m)
    · obtain ⟨hd, h1, h2, c1, c2⟩ := h.operands_rrr hi rfl rfl
      exact (padd_writes hi hd h1 h2 c1 c2).g1At_onCurve h hp hd
        ((onG1_g1Words hp c1 o1).add m (onG1_g1Words hp c2 o2))
    · obtain ⟨hd, h1, h2, c1, c2⟩ := h.operands_rrr hi rfl rfl
      exact (psub_writes hi hd h1 h2 c1 c2).g1At_onCurve h hp hd
        ((onG1_g1Words hp c1 o1).add m ((onG1_g1Words hp c2 o2).neg m))
  · intro o1 o2 h
    have m (c1 : GroupBelowP s rs1 6) := fp2Ops_models s.const (P_pos_of_groupBelowP c1)
    obtain h | h | h | h | h := h
    · obtain ⟨hd, h1, c1⟩ := h.operands_rr hi rfl rfl
      exact (qneg_writes hi hd h1 c1).g2At_onCurve h hd ((onG2_g2Words c1 o1).neg (m c1))
    · obtain ⟨hd, h1, c1⟩ := h.operands_rr hi rfl rfl
      exact (qdbl_writes hi hd h1 c1).g2At_onCurve h hd ((onG2_g2Words c1 o1).dbl (m c1))
    · obtain ⟨hd, h1, c1⟩ := h.operands_rr hi rfl rfl
      exact (qdbl5_writes hi hd h1 c1).g2At_onCurve h hd ((onG2_g2Words c1 o1).dbl5 (m c1))
    · obtain ⟨hd, h1, h2, c1, c2⟩ := h.operands_rrr hi rfl rfl
      exact (qadd_writes hi hd h1 h2 c1 c2).g2At_onCurve h hd
        ((onG2_g2Words c1 o1).add (m c1) (onG2_g2Words c2 o2))
    · obtain ⟨hd, h1, h2, c1, c2⟩ := h.operands_rrr hi rfl rfl
      exact (qsub_writes hi hd h1 h2 c1 c2).g2At_onCurve h hd
        ((onG2_g2Words c1 o1).add (m c1) ((onG2_g2Words c2 o2).neg (m c1)))

end CommandsOnCurve

end Sys2Proof.Machine
end

section
/-! SUPPORT. Proofs about the life of a command (45_control.md): the checks seen operand by operand, rejection
and issue, that every step answers a next state, the run from issue to commit, and NOP. -/

namespace Sys2Proof.Machine

/-! ### The checks, operand by operand -/

section Checks
variable {i : Instr} {s : State}

/-- A register field passes REG_RANGE when its group, if it has one, ends at W63 or before (10_state.md
R22). -/
theorem slotFits_iff (x : Option Slot) :
    slotFits x = true ↔ ∀ o, x = some o → o.reg.val + o.ty.size - 1 ≤ 63 := by
  cases x with
  | none => simp [slotFits]
  | some o =>
    simp only [slotFits, Slot.fits, decide_eq_true_eq, Option.some.injEq, forall_eq']
    omega

/-- A command is well formed when each of its groups ends at W63 or before (45_control.md R132). -/
theorem wellFormed_iff : i.wellFormed = true ↔
    ∀ o, (i.slots.rd = some o ∨ i.slots.rs1 = some o ∨ i.slots.rs2 = some o) →
      o.reg.val + o.ty.size - 1 ≤ 63 := by
  simp only [Instr.wellFormed, Bool.and_eq_true, slotFits_iff, or_imp, forall_and, and_assoc]

/-- A source field passes NONCANONICAL when its group, if it is Fp-typed, is below P (30_encoding.md R62). -/
theorem slotCanonical_iff (x : Option Slot) : slotCanonical s.const.P s.w x = true ↔
    ∀ o, x = some o → o.ty.fpTyped = true → GroupBelowP s o.reg o.ty.size := by
  cases x with
  | none => simp [slotCanonical]
  | some o => simp only [slotCanonical_some, Option.some.injEq, forall_eq']

/-- A command passes its checks when it is well formed and its Fp-typed sources are below P (45_control.md
R132). -/
theorem check_eq_none_iff : check i s = none ↔ i.wellFormed = true ∧
    ∀ o, (i.slots.rs1 = some o ∨ i.slots.rs2 = some o) → o.ty.fpTyped = true →
      GroupBelowP s o.reg o.ty.size := by
  simp only [check_eq_none, slotCanonical_iff, or_imp, forall_and]

/-- A well-formed command that does not pass its checks fails NONCANONICAL (45_control.md R132). -/
theorem check_of_wellFormed (hw : i.wellFormed = true) (hc : check i s ≠ none) :
    check i s = some .nonCanonical := by
  obtain ⟨e, he⟩ := Option.ne_none_iff_exists'.mp hc
  obtain ⟨-, hw'⟩ | ⟨rfl, -⟩ := check_eq_some he
  · exact absurd (hw.symm.trans hw') nofun
  · exact he

end Checks

/-! ### Rejection and issue -/

section Presentation
variable {i : Instr} {s : State}

/-- A command that fails a check on an engine not BUSY is rejected (60_exceptions.md R139). -/
theorem exec_reject {e : Reject} (hb : s.status.busy = false) (hc : check i s = some e) :
    exec i s = .next (reject e s) := by
  obtain ⟨f, hf, -⟩ := exec_eq_command i
  rw [hf, command_reject hb hc]

/-- A command that passes its checks on an engine not BUSY is issued (45_control.md R133). -/
theorem exec_issue (hb : s.status.busy = false) (hc : check i s = none) :
    exec i s = .next (issue i s) := by
  obtain ⟨f, hf, -⟩ := exec_eq_command i
  rw [hf, command_issue hb hc]

/-- A source group kept at issue is its registers in order (45_control.md R133). -/
theorem readSlot_eq_elim (w : Vector U256 64) (x : Option Slot) : readSlot w x =
    x.elim [] fun o => (List.range o.ty.size).map fun k => regAt w (o.reg.val + k) := by
  cases x with
  | none => rfl
  | some o => exact readGroup_eq_map w o.reg.val o.ty.size

/-- Settles O7: a group past W63 fails the first check; with all groups inside, a component not below P
fails the second. -/
theorem failedChecksReject : Obligations.FailedChecksReject := by
  unfold Obligations.FailedChecksReject
  intro i s hi
  refine ⟨?_, fun hfits => ?_⟩
  · rintro ⟨o, ho, hpast⟩
    have hw : i.wellFormed = false := Bool.eq_false_iff.mpr fun hw =>
      Nat.not_le.mpr hpast (wellFormed_iff.mp hw o ho)
    exact exec_reject hi.1 (check_of_not_wellFormed hw s)
  · rintro ⟨o, ho, hty, hnot⟩
    have hc : check i s ≠ none := fun hc => hnot ((check_eq_none_iff.mp hc).2 o ho hty)
    exact exec_reject hi.1 (check_of_wellFormed (wellFormed_iff.mpr hfits) hc)

/-- Settles O8: the state is that of an issue, which keeps both source groups and the opcode's latency. -/
theorem issueKeepsSourcesAndLatency : Obligations.IssueKeepsSourcesAndLatency := by
  unfold Obligations.IssueKeepsSourcesAndLatency
  intro i s hi hw hcanon
  exact ⟨_, exec_issue hi.1 (check_eq_none_iff.mpr ⟨hw, hcanon⟩), rfl, latency_eq s.const i,
    readSlot_eq_elim s.w i.slots.rs1, readSlot_eq_elim s.w i.slots.rs2⟩

end Presentation

/-! ### Every step answers a next state -/

section Answers

/-- A command answers a next state (45_control.md R134). -/
theorem exec_next (i : Instr) (s : State) : ∃ t, exec i s = .next t := by
  obtain ⟨f, hf, -⟩ := exec_eq_command i
  rw [hf]
  exact command_next i s f

/-- A presented word is dropped, rejected or run (45_control.md R131), and answers a next state. -/
theorem present_next (w : Word) (s : State) : ∃ t, present exec w s = .next t := by
  unfold present
  split
  · exact ⟨_, rfl⟩
  · split
    · exact ⟨_, rfl⟩
    · exact exec_next _ _

/-- A write to any target answers a next state. -/
theorem writeTarget_next (s : State) (v : Word) (g : Target) : ∃ t, writeTarget exec s v g = .next t := by
  cases g with
  | cmd => exact present_next v s
  | id | version | ctrl | status | wle _ _ | wbe _ _ | reserved => exact ⟨_, rfl⟩

/-- A transfer answers a next state, a refused one too (60_exceptions.md R142; log 7). -/
theorem transfer_next (u : Transfer) (s : State) : ∃ t, transfer exec u s = .next t := by
  unfold transfer
  split
  · exact ⟨_, rfl⟩
  · split
    · exact writeTarget_next _ _ _
    · exact ⟨_, rfl⟩

/-- A host's turn or a pass turn answers a next state: a wait state, or a transfer's. -/
theorem step_next_of_hostTurn {s : State} (ht : HostTurn s) : ∃ t, step s = .next t := by
  cases hn : nextTransfer s with
  | none => exact ⟨_, step_wait ht hn⟩
  | some e =>
    rw [step_transfer hn]
    exact transfer_next _ _

/-- An engine turn answers a next state: an idle cycle, one cycle of the command in flight, or its commit. -/
theorem step_next_of_engineTurn {s : State} (ht : turnOf s = .engine) : ∃ t, step s = .next t := by
  cases hf : s.inflight with
  | none => exact ⟨_, step_engine_idle ht hf⟩
  | some f =>
    by_cases hr : f.remaining - 1 = 0
    · rw [step_engine_commit ht hf hr]
      exact exec_next _ _
    · exact ⟨_, step_engine_cycle ht hf hr⟩

/-- Settles O9: command by command through their one shape, and turn by turn. -/
theorem everyStepAnswersNext : Obligations.EveryStepAnswersNext := by
  unfold Obligations.EveryStepAnswersNext
  refine ⟨exec_next, fun s => ?_⟩
  cases ht : turnOf s with
  | host => exact step_next_of_hostTurn (.inl ht)
  | pass => exact step_next_of_hostTurn (.inr ht)
  | engine => exact step_next_of_engineTurn ht
  | rst level => exact ⟨_, step_rst ht⟩

end Answers

/-! ### From issue to commit -/

section Cycles
variable {s t : State} {f : InFlight}

/-- The state after one cycle of the command in flight that is not its last (70_reset_and_hazards.md R163). -/
def oneCycle (s : State) (f : InFlight) : State :=
  { quiet s with inflight := some { f with remaining := f.remaining - 1 } }

/-- With engine turns next, a cycle that is not the command's last takes one of them. -/
theorem step_withCycles_cycle (hf : s.inflight = some f) (hr : f.remaining - 1 ≠ 0) (n : Nat) :
    step (withCycles s (n + 1)) = .next (withCycles (oneCycle s f) n) :=
  step_engine_cycle rfl hf hr

/-- The last cycle of the command in flight is its commit, in the state it was in, its latency run out. -/
theorem step_withCycles_commit (hf : s.inflight = some f) (hr : f.remaining = 1) :
    step (withCycles s 1) = exec f.cmd (latencyRunOut (quiet s)) := by
  rw [step_engine_commit (s := withCycles s 1) rfl hf (by rw [hr]), latencyRunOut, quiet_inflight, hf]
  rfl

/-- The cycles before the last count down and leave STATUS and the registers as they are (45_control.md
R133). -/
theorem run_cycles_counts {k : Nat} (hf : s.inflight = some f) (hk : k < f.remaining) (n : Nat) :
    ∃ u, Host.Core.run core k (withCycles s (k + n)) = .next u ∧ u.status = s.status ∧ u.w = s.w ∧
      u.inflight = some { f with remaining := f.remaining - k } := by
  induction k generalizing s f with
  | zero => exact ⟨_, rfl, rfl, rfl, hf⟩
  | succ k ih =>
    obtain ⟨u, hrun, hst, hw, hu⟩ := ih (s := oneCycle s f) rfl (Nat.lt_sub_of_add_lt hk)
    rw [Nat.add_right_comm, run_succ (step_withCycles_cycle hf (by omega) (k + n)) k]
    refine ⟨u, hrun, hst, hw, hu.trans ?_⟩
    simp only [Nat.sub_sub, Nat.add_comm 1 k]

/-- As many cycles as are left end in the command's commit (45_control.md R134). -/
theorem run_cycles_commits {n : Nat} (hf : s.inflight = some f) (hr : f.remaining = n + 1)
    (hx : exec f.cmd (latencyRunOut (quiet s)) = .next t) :
    Host.Core.run core (n + 1) (withCycles s (n + 1)) = .next t := by
  induction n generalizing s f with
  | zero => exact run_succ ((step_withCycles_commit hf hr).trans hx) 0
  | succ n ih =>
    have hleft : f.remaining - 1 = n + 1 := by rw [hr, Nat.add_sub_cancel]
    have hsame : latencyRunOut (quiet (oneCycle s f)) = latencyRunOut (quiet s) := by
      simp [latencyRunOut, oneCycle, quiet, hf]
    rw [run_succ (step_withCycles_cycle hf (by omega) (n + 1)) (n + 1)]
    exact ih rfl hleft (hsame ▸ hx)

/-- A command whose latency has run out commits: BUSY 0, DONE 1, and no command in flight (45_control.md
R134). -/
theorem exec_latencyRunOut (hb : s.status.busy = true) (hf : s.inflight = some f)
    (hx : exec f.cmd (latencyRunOut s) = .next t) :
    t.status.busy = false ∧ t.status.done = true ∧ t.inflight = none := by
  rw [latencyRunOut, hf] at hx
  obtain ⟨r, -, rfl⟩ := exec_runOut hb hx
  exact ⟨rfl, rfl, rfl⟩

/-- Settles O55: the cycles before the last only count, and the last is the commit. -/
theorem commandCommitsAfterItsLatency : Obligations.CommandCommitsAfterItsLatency := by
  unfold Obligations.CommandCommitsAfterItsLatency
  intro s f h hf
  have hb : s.status.busy = true := by simp [h.busy_iff, hf]
  obtain ⟨n, hn⟩ := Nat.exists_eq_add_of_le' (h.inflight_ok f hf).remaining_pos
  obtain ⟨t, hx⟩ := exec_next f.cmd (latencyRunOut (quiet s))
  refine ⟨fun k hk => ?_, t, ?_, hx, exec_latencyRunOut (s := quiet s) hb hf hx⟩
  · have hcount := run_cycles_counts hf hk (f.remaining - k)
    rwa [Nat.add_sub_cancel' hk.le] at hcount
  · rw [hn]
    exact run_cycles_commits hf hn hx

end Cycles

/-! ### NOP (45_control.md R136) -/

section Nop
variable {s : State} {w : Word}

/-- A word with OPC 0 is its low 24 bits (30_encoding.md R59). -/
theorem and_low24_eq_self (h : w.toNat < 2 ^ 24) : w &&& 0x00FFFFFF#32 = w := by
  apply BitVec.eq_of_toNat_eq
  rw [BitVec.toNat_and]
  exact (Nat.and_two_pow_sub_one_eq_mod w.toNat 24).trans (Nat.mod_eq_of_lt h)

/-- A word with OPC 0 and any other bit set is rejected as RSVD_FIELD (30_encoding.md R65). -/
theorem decode_rsvdField_of_opc_zero (h : w.toNat < 2 ^ 24) (hw : w ≠ 0#32) :
    decode w = .error .rsvdField := by
  have hopc : Instr.nop.opc.toNat = w.toNat / 2 ^ 24 := (Nat.div_eq_of_lt h).symm
  have hmask : Instr.nop.format.mask = BitVec.allOnes 32 := by decide
  refine (decode_of_known hopc).1 ?_
  rwa [hmask, BitVec.and_allOnes, and_low24_eq_self h]

/-- NOP has no operand to check. -/
theorem check_nop : check .nop s = none := check_eq_none.mpr ⟨rfl, rfl, rfl⟩

/-- Settles O13: 0 is the encoding of NOP, whose format fixes every other bit, and NOP's rule gives no value
and no flag. -/
theorem nopCompletes : Obligations.NopCompletes := by
  unfold Obligations.NopCompletes
  exact ⟨decodeOfEncode .nop, fun _ => decode_rsvdField_of_opc_zero, fun _ hi =>
    flagResult_of_command (g := .none) (fun _ => by unfold exec; rfl) rfl hi check_nop rfl⟩

end Nop

end Sys2Proof.Machine
end

section
/-! SUPPORT. Proofs about OVR and DONE (60_exceptions.md R141, R143): a CMD write while BUSY, and what a
transfer and a step can do to STATUS. -/

namespace Sys2Proof.Machine

/-! ### What can happen to STATUS -/

section StatusMoves
variable {s t : State} {u : Transfer} {i : Instr}

/-- The one aligned offset that the address map gives to STATUS (20_memory.md R42). -/
theorem eq_of_target_status {a : BitVec 14} (ha : a.toNat % 4 = 0) (h : target a = .status) :
    a = 0x000C#14 := by
  have hrange : 0x000C ≤ a.toNat ∧ a.toNat < 0x0010 := by
    unfold target at h
    dsimp only at h
    split_ifs at h
    omega
  apply BitVec.eq_of_toNat_eq
  rw [BitVec.toNat_ofNat]
  omega

/-- A served transfer to STATUS is to its one offset (20_memory.md R43). -/
theorem addr_of_target_status (hr : u.refused = false) (h : target u.addr = .status) :
    u.addr = 0x000C#14 := by
  refine eq_of_target_status (not_not.mp fun ha => ?_) h
  exact Bool.false_ne_true (hr.symm.trans (refused_iff.mpr (.inl ha)))

/-- A command presented to an engine that is not BUSY is rejected or issued (45_control.md R132, R133). -/
theorem exec_cases_of_not_busy (hb : s.status.busy = false) (h : exec i s = .next t) :
    (∃ e, t = reject e s) ∨ t = issue i s := by
  obtain ⟨hb', -⟩ | ⟨r, hb', -⟩ | ⟨e, -, -, ht⟩ | ⟨-, -, ht⟩ := exec_cases h
  · exact absurd (hb.symm.trans hb') Bool.false_ne_true
  · exact absurd (hb.symm.trans hb') Bool.false_ne_true
  · exact .inl ⟨e, ht⟩
  · exact .inr ht

/-- Everything a transfer can do to STATUS: leave it, acknowledge, reset, overrun, reject or issue. -/
theorem transfer_status_cases (h : transfer exec u s = .next t) :
    t.status = s.status ∨
    (u.we = true ∧ u.addr = 0x000C#14 ∧ t.status = s.status.acknowledge u.wdata) ∨
    (t.status = {} ∧ t.irqEn = false ∧ t.inflight = none) ∨
    t.status = { s.status with ovr := true } ∨
    (∃ e : Reject, s.status.busy = false ∧ t.inflight = s.inflight ∧ t.w = s.w ∧
      t.status = { s.status with err := true, errcode := e.code, done := true }) ∨
    (s.status.busy = false ∧ t.inflight.isSome = true ∧
      t.status = { s.status with err := false, errcode := 0#4, done := false, busy := true }) := by
  obtain ⟨-, rfl⟩ | ⟨-, -, rfl⟩ | ⟨hr, hw, h⟩ := transfer_cases h
  · exact .inl rfl
  · exact .inl rfl
  · obtain ⟨-, rfl⟩ | ⟨-, rfl⟩ | ⟨ha, rfl⟩ | ⟨-, -, rfl⟩ | ⟨e, -, hb, -, rfl⟩ | ⟨i, -, hb, -, hx⟩ |
      ⟨r, k, -, rfl⟩ | ⟨r, k, -, rfl⟩ := h
    · exact .inl rfl
    · cases hv : u.wdata.getLsbD 0 with
      | true => exact .inr (.inr (.inl (by simp [writeCtrl_srst _ hv])))
      | false => exact .inl (by simp [writeCtrl_irqEn _ hv])
    · exact .inr (.inl ⟨hw, addr_of_target_status hr ha, rfl⟩)
    · exact .inr (.inr (.inr (.inl rfl)))
    · exact .inr (.inr (.inr (.inr (.inl ⟨e, hb, rfl, rfl, rfl⟩))))
    · obtain ⟨e, rfl⟩ | rfl := exec_cases_of_not_busy (s := { s with port := .wrote }) hb hx
      · exact .inr (.inr (.inr (.inr (.inl ⟨e, hb, rfl, rfl, rfl⟩))))
      · exact .inr (.inr (.inr (.inr (.inr ⟨hb, rfl, rfl⟩))))
    · exact .inl rfl
    · exact .inl rfl

/-- A step leaves STATUS as it is, runs the command in flight, carries out a transfer, or resets. -/
theorem step_status_cases (h : step s = .next t) :
    t.status = s.status ∨
    (∃ f, turnOf s = .engine ∧ s.inflight = some f ∧
      exec f.cmd (latencyRunOut (quiet (afterTurn s))) = .next t) ∨
    (∃ u rest, nextTransfer s = some (u, rest) ∧
      transfer exec u { afterTurn s with host := rest } = .next t) ∨
    (t.status = {} ∧ t.irqEn = false ∧ t.inflight = none) := by
  obtain ⟨-, -, rfl⟩ | ⟨f, -, -, -, rfl⟩ | ⟨f, ht, hf, -, hx⟩ | ⟨-, -, rfl⟩ | ⟨u, rest, hn, -, hx⟩ |
    ⟨level, -, rfl⟩ := step_cases h
  · exact .inl rfl
  · exact .inl rfl
  · exact .inr (.inl ⟨f, ht, hf, by simpa [latencyRunOut, hf] using hx⟩)
  · exact .inl rfl
  · exact .inr (.inr (.inl ⟨u, rest, hn, hx⟩))
  · cases level with
    | true => exact .inl rfl
    | false => exact .inr (.inr (.inr (by simp [resetTurn])))

end StatusMoves

/-! ### OVR (60_exceptions.md R141) -/

section Ovr
variable {s t : State} {u : Transfer}

/-- A CMD write while BUSY is an overrun, whatever its word (45_control.md R131). -/
theorem transfer_cmdWrite_busy {run : Instr → State → Host.Outcome State Fault Refusal}
    (hb : s.status.busy = true) (w : Word) :
    transfer run (cmdWrite w) s = .next (overrun { s with port := .wrote }) := by
  have ht : target 0x0010#14 = .cmd := by decide
  rw [cmdWrite, transfer_busWrite s w (by decide), ht]
  simp only [writeTarget, present, hb, if_true]

/-- No command clears OVR (45_control.md R131). -/
theorem exec_keeps_ovr {i : Instr} (h : exec i s = .next t) (ho : s.status.ovr = true) :
    t.status.ovr = true := by
  obtain ⟨-, rfl, -⟩ | ⟨r, -, -, rfl⟩ | ⟨e, -, -, rfl⟩ | ⟨-, -, rfl⟩ := exec_cases h
  · rfl
  · simpa using ho
  · exact ho
  · exact ho

/-- A transfer keeps OVR, unless it acknowledges it or is a soft reset (10_state.md R31). -/
theorem transfer_keeps_ovr (h : transfer exec u s = .next t) (ho : s.status.ovr = true) :
    t.status.ovr = true ∨
    (u.we = true ∧ u.addr = 0x000C#14 ∧ u.wdata.getLsbD 3 = true) ∨
    (t.status = {} ∧ t.irqEn = false ∧ t.inflight = none) := by
  obtain ht | ⟨hw, ha, ht⟩ | hreset | ht | ⟨e, -, -, -, ht⟩ | ⟨-, -, ht⟩ := transfer_status_cases h
  · exact .inl (ht ▸ ho)
  · cases hv : u.wdata.getLsbD 3 with
    | true => exact .inr (.inl ⟨hw, ha, rfl⟩)
    | false => exact .inl (by rw [ht, acknowledge_eq, hv]; exact ho)
  · exact .inr (.inr hreset)
  · exact .inl (by rw [ht])
  · exact .inl (by rw [ht, ho])
  · exact .inl (by rw [ht, ho])

/-- Settles O5: the busy engine drops the word unchecked, and no command, cycle or other transfer clears
OVR. -/
theorem busyCommandWriteOnlySetsOvr : Obligations.BusyCommandWriteOnlySetsOvr := by
  unfold Obligations.BusyCommandWriteOnlySetsOvr
  refine ⟨fun s w hb => transfer_cmdWrite_busy hb w, fun s t h ho => ?_⟩
  obtain ht | ⟨f, -, -, hx⟩ | ⟨u, rest, hn, hx⟩ | hreset := step_status_cases h
  · exact .inl (ht ▸ ho)
  · exact .inl (exec_keeps_ovr hx ho)
  · exact (transfer_keeps_ovr hx ho).imp_right (.imp_left fun hack => ⟨u, rest, hn, hack⟩)
  · exact .inr (.inr hreset)

end Ovr

/-! ### DONE (60_exceptions.md R143) -/

section Done
variable {s t : State} {u : Transfer}

/-- A transfer that raises DONE is a rejection (45_control.md R132). -/
theorem transfer_raises_done (h : transfer exec u s = .next t) (hd : s.status.done = false)
    (hd' : t.status.done = true) :
    s.status.busy = false ∧ t.status.err = true ∧ t.inflight = s.inflight ∧ t.w = s.w := by
  obtain ht | ⟨-, -, ht⟩ | ⟨ht, -, -⟩ | ht | ⟨e, hb, hf, hw, ht⟩ | ⟨-, -, ht⟩ := transfer_status_cases h
  · simp [ht, hd] at hd'
  · simp [ht, Status.acknowledge, hd] at hd'
  · simp [ht] at hd'
  · simp [ht, hd] at hd'
  · exact ⟨hb, by rw [ht], hf, hw⟩
  · simp [ht] at hd'

/-- A transfer that lowers DONE acknowledges it, issues a command, or is a soft reset (10_state.md R31). -/
theorem transfer_lowers_done (h : transfer exec u s = .next t) (hd : s.status.done = true)
    (hd' : t.status.done = false) :
    (u.we = true ∧ u.addr = 0x000C#14 ∧ u.wdata.getLsbD 1 = true) ∨
    (s.status.busy = false ∧ t.inflight.isSome = true ∧ t.status.busy = true) ∨
    (t.status = {} ∧ t.irqEn = false ∧ t.inflight = none) := by
  obtain ht | ⟨hw, ha, ht⟩ | hreset | ht | ⟨e, -, -, -, ht⟩ | ⟨hb, hf, ht⟩ := transfer_status_cases h
  · simp [ht, hd] at hd'
  · exact .inl ⟨hw, ha, by simpa [ht, Status.acknowledge, hd] using hd'⟩
  · exact .inr (.inr hreset)
  · simp [ht, hd] at hd'
  · simp [ht] at hd'
  · exact .inr (.inl ⟨hb, hf, by rw [ht]⟩)

/-- Settles O53: the engine's turn only commits, and each transfer that moves DONE is of a kind the rule
names. -/
theorem doneRisesAndFallsAsStated : Obligations.DoneRisesAndFallsAsStated := by
  unfold Obligations.DoneRisesAndFallsAsStated
  intro s t hi h
  obtain ht | ⟨f, hturn, hf, hx⟩ | ⟨u, rest, hn, hx⟩ | ⟨hst, hirq, hfl⟩ := step_status_cases h
  · exact ⟨fun hd hd' => by simp [ht, hd] at hd', fun hd hd' => by simp [ht, hd] at hd'⟩
  · have hb : s.status.busy = true := by simp [hi.busy_iff, hf]
    obtain ⟨hbusy, hdone, hfl⟩ := exec_latencyRunOut (s := quiet (afterTurn s)) hb hf hx
    exact ⟨fun _ _ => .inl ⟨by simp [hf], hfl, hbusy, hturn⟩, fun _ hd' => by simp [hdone] at hd'⟩
  · refine ⟨fun hd hd' => ?_, fun hd hd' => ?_⟩
    · obtain ⟨hb, herr, hfl, hw⟩ := transfer_raises_done hx hd hd'
      exact .inr ⟨herr, hfl.trans (hi.inflight_of_not_busy hb), hw, hostTurn_of_nextTransfer hn⟩
    · obtain hack | ⟨hb, hissue⟩ | ⟨hst, hirq, hfl⟩ := transfer_lowers_done hx hd hd'
      · exact .inl ⟨u, rest, hn, hack⟩
      · exact .inr (.inl ⟨hi.inflight_of_not_busy hb, hissue⟩)
      · exact .inr (.inr ⟨hst, hfl, hirq⟩)
  · exact ⟨fun _ hd' => by simp [hst] at hd', fun _ _ => .inr (.inr ⟨hst, hfl, hirq⟩)⟩

end Done

end Sys2Proof.Machine
end

section
/-! SUPPORT. Proofs about the resets (70_reset_and_hazards.md R153, R154): the state after power-on, the wait
while `rst_n` = 0, and the soft reset that ends a stall. -/

namespace Sys2Proof.Machine

variable {s : State} {u : Transfer}

/-! ### Power-on reset (70_reset_and_hazards.md R153) -/

section PowerOn

/-- No word of any operand register is marked written (70_reset_and_hazards.md R153). -/
theorem noneWritten_getElem (r : Reg) (k : Fin 8) : State.noneWritten[r][k] = false := by
  simp [State.noneWritten]

/-- `irq` is 0 while STATUS is as after a reset (10_state.md R37). -/
theorem irq_of_status_reset (h : s.status = {}) : irq s = false := by
  rw [irq, h]
  rfl

/-- CTRL reads 0 while IRQ_EN is 0 (10_state.md R32). -/
theorem readTarget_ctrl_of_irqEn (h : s.irqEn = false) : readTarget s .ctrl = 0#32 :=
  (ctrlWord_eq s).trans (if_neg (by simp [h]))

/-- While `rst_n` = 0 every transfer is held. -/
theorem held_of_inReset (hr : s.rstN = false) (u : Transfer) : held s u = true := by
  simp [held, hr]

/-- While `rst_n` = 0 no turn has a transfer to carry out (log 10). -/
theorem nextTransfer_none_of_inReset (ht : HostTurn s) (hr : s.rstN = false) : nextTransfer s = none := by
  obtain ht | ht := ht
  · exact nextTransfer_host_none ht fun u _ => held_of_inReset hr u
  · rw [nextTransfer, ht]
    exact firstFree_eq_none.mpr fun u _ => held_of_inReset hr u

/-- Settles O52: the parts of the state that a power-on reset clears fix all that the rule names, and in
reset the host's turns are wait states. -/
theorem powerOnResetState : Obligations.PowerOnResetState := by
  unfold Obligations.PowerOnResetState
  intro isReset
  have cleared : ∀ t : State, t.status = {} → t.irqEn = false → t.inflight = none →
      t.written = State.noneWritten → isReset t := fun t hst hi hf hm =>
    ⟨hst, hi, hf, irq_of_status_reset hst, readTarget_ctrl_of_irqEn hi, rfl, rfl, fun r k => by
      rw [hm, noneWritten_getElem]⟩
  refine ⟨cleared _ rfl rfl rfl rfl, fun s ht => ⟨_, step_rst ht, ?_, ?_, rfl⟩, fun s ht => step_rst ht,
    fun s ht hr => step_wait ht (nextTransfer_none_of_inReset ht hr)⟩
  · apply cleared <;> simp [resetTurn]
  · simp

/-- Every latency of the instance T1 is one cycle (log 1). -/
theorem t1_lat (o : Fin 256) : Config.t1.lat[o] = 1 := by
  simp [Config.t1]

/-- Settles O57: the latencies are one cycle, STATUS is 0, and the engine is in its power-on state. -/
theorem resetSatisfiesInvariant : Obligations.ResetSatisfiesInvariant where
  lat_pos o := (t1_lat o).ge
  busy_iff := rfl
  inflight_ok := nofun
  errcode_le := statusOk_reset.errcode_le
  err_iff := statusOk_reset.err_iff
  busy_clear := statusOk_reset.busy_clear
  order := statusOk_reset.order
  in_reset _ := ⟨rfl, rfl, rfl, rfl⟩

end PowerOn

/-! ### Soft reset (70_reset_and_hazards.md R154) -/

section SoftReset
variable {v : Word}

/-- A CTRL write with SRST = 1 is served as a soft reset (10_state.md R32). -/
theorem transfer_srst (s : State) (hv : v.getLsbD 0 = true) :
    transfer exec (busWrite 0x0008#14 v) s = .next (softReset { s with port := .wrote }) := by
  rw [transfer_busWrite s v (controlOffset_served 0x0008#14 (by decide)).1]
  exact congrArg Host.Outcome.next (writeCtrl_srst _ hv)

/-- A soft reset ends every stall (20_memory.md R50). -/
theorem held_softReset (hr : s.rstN = true) (u : Transfer) : held (softReset s) u = false :=
  held_of_not_busy (s := softReset s) hr rfl u

/-- A pass turn takes the CTRL write that stands behind one stalled transfer (45_control.md R130; log 14). -/
theorem nextTransfer_ctrl_behind_held {rest : List Transfer} (hr : s.rstN = true) (ht : turnOf s = .pass)
    (he : s.host = u :: busWrite 0x0008#14 v :: rest) (hu : held s u = true) :
    nextTransfer s = some (busWrite 0x0008#14 v, u :: rest) :=
  nextTransfer_pass (pre := [u]) ht he (by simpa using hu)
    (held_of_not_toWindow hr (controlOffset_served 0x0008#14 (by decide)).2)

/-- Settles O51: the write is a soft reset, also where it passes a stalled transfer, which the reset frees
for the host's next turn. -/
theorem softResetKeepsRegisters : Obligations.SoftResetKeepsRegisters := by
  unfold Obligations.SoftResetKeepsRegisters
  intro s v hv
  refine ⟨⟨_, transfer_srst s hv, rfl, irq_of_status_reset rfl, fun hr u => held_softReset hr u⟩, ?_⟩
  intro u rest hr ht he hu
  have hstep := (step_transfer (nextTransfer_ctrl_behind_held hr ht he hu)).trans (transfer_srst _ hv)
  exact ⟨_, hstep, rfl, fun ht' => step_transfer (nextTransfer_host ht' rfl (held_softReset hr u))⟩

end SoftReset

end Sys2Proof.Machine
end
